-- ==== Sys2Proof/Word.lean ====
section
/-! DEFINITION. The word types of the decoding core. -/

namespace Sys2Proof

/-- A 32-bit register word (20_memory.md R102). -/
abbrev Word := BitVec 32

/-- One byte of a frame (20_memory.md R102). -/
abbrev Byte := BitVec 8

/-- A sample clock, deadline or clock time (00_scope.md R13). -/
abbrev Clock := BitVec 64

/-- A host transaction word (30_encoding.md R130). -/
abbrev Txn := BitVec 64

/-- The IEEE 754 bit pattern of a binary32 value, the sign in bit 31 (20_memory.md R102). -/
abbrev F32 := BitVec 32

end Sys2Proof
end

