-- ==== Sys2Proof/Syntax.lean ====
section
/-! DEFINITION. The host transactions: one constructor per row of the opcode table, in its order.
The selectors k, x and c are the fields of OFF (30_encoding.md R134), `data` is bits 31:0 of a write.
A read drops its DATA, which is ignored (R131). -/

namespace Sys2Proof

/-- The instructions of the block (30_encoding.md R151). -/
inductive Instr
  | rdId
  | rdVersion
  | cmdReset
  | cmdConfigure
  | cmdStart
  | cmdStop
  | cmdResetCapture
  | cmdOutPop
  | cmdOutRewind
  | cmdReserved (data : Word)
  | rdStatus
  | rdErr
  | wrErr (data : Word)
  | rdIrqEn
  | wrIrqEn (data : Word)
  | rdIrqStatus
  | wrSampleReal (data : Word)
  | wrSampleI (data : Word)
  | wrSampleQ (data : Word)
  | rdClock (k : BitVec 1)
  | rdCfg (k : BitVec 4)
  | wrCfg (k : BitVec 4) (data : Word)
  | rdDbg (k : BitVec 4)
  | rdHistChan
  | wrHistChan (data : Word)
  | rdHistIndex
  | wrHistIndex (data : Word)
  | rdHistData
  | rdParam (k : BitVec 2)
  | rdTcfg (x : BitVec 2) (k : BitVec 3)
  | wrTcfg (x : BitVec 2) (k : BitVec 3) (data : Word)
  | rdTstat (x : BitVec 2) (k : BitVec 3)
  | rdCand (c : BitVec 4) (k : BitVec 3)
  | rdSs (c : BitVec 4) (k : BitVec 4)
  | rdAsm (k : BitVec 3)
  | rdOut (k : BitVec 4)
  | rdOutData
deriving DecidableEq, Repr

end Sys2Proof
end

