-- ==== Sys2Proof/WellFormed.lean ====
section
/-! DEFINITION. Which terms of `Instr` are instructions: the selector ranges of the opcode table's
rows (30_encoding.md R132, R139 to R150). -/

namespace Sys2Proof

/-- The selector fields lie in the ranges the row gives; CMD_RESERVED holds no code of another
command (30_encoding.md R143). -/
def Instr.wellFormed : Instr → Bool
  | .rdId | .rdVersion => true
  | .cmdReset | .cmdConfigure | .cmdStart | .cmdStop | .cmdResetCapture => true
  | .cmdOutPop | .cmdOutRewind => true
  | .cmdReserved data => data.toNat < 1 || 7 < data.toNat
  | .rdStatus | .rdErr | .rdIrqEn | .rdIrqStatus => true
  | .wrErr _ | .wrIrqEn _ => true
  | .wrSampleReal _ | .wrSampleI _ | .wrSampleQ _ => true
  | .rdClock _ => true
  | .rdCfg k => k.toNat ≤ 12
  | .wrCfg k _ => k.toNat ≤ 12
  | .rdDbg k => k.toNat ≤ 8
  | .rdHistChan | .rdHistIndex | .rdHistData => true
  | .wrHistChan _ | .wrHistIndex _ => true
  | .rdParam _ => true
  | .rdTcfg x k => x.toNat ≤ 2 && k.toNat ≤ 4
  | .wrTcfg x k _ => x.toNat ≤ 2 && k.toNat ≤ 4
  | .rdTstat x k => x.toNat ≤ 2 && k.toNat ≤ 6
  | .rdCand c _ => c.toNat ≤ 10
  | .rdSs c k => c.toNat ≤ 10 && k.toNat ≤ 14
  | .rdAsm _ => true
  | .rdOut k => k.toNat ≤ 8
  | .rdOutData => true

end Sys2Proof
end

