-- ==== Sys2Proof/Decode.lean ====
section
/-! DEFINITION. Decoding and encoding of the 64-bit transaction word (30_encoding.md R130 to R152). -/

namespace Sys2Proof

/-- Why a transaction is malformed (20_memory.md R104). -/
inductive DecodeError
  /-- A reserved bit 62:44 is 1. -/
  | reservedBits
  /-- OFF[1:0] is not 0. -/
  | misaligned
  /-- OFF names no register. -/
  | unmapped
  /-- A write to a readable-only register. -/
  | writeOfReadOnly
  /-- A read of a writable-only register. -/
  | readOfWriteOnly
deriving DecidableEq, Repr

/-- W, bit 63 (R130): true for a write. -/
def txnWrite (w : Txn) : Bool := w.getLsbD 63

/-- RSV, bits 62:44 (R130). -/
def txnReserved (w : Txn) : BitVec 19 := w.extractLsb' 44 19

/-- OFF, bits 43:32 (R130). -/
def txnOff (w : Txn) : BitVec 12 := w.extractLsb' 32 12

/-- DATA, bits 31:0 (R130). -/
def txnData (w : Txn) : Word := w.extractLsb' 0 32

/-- The word with these fields and reserved bits 0 (R160: `{W, 19'b0, OFF, DATA}`). -/
def mkTxn (write : Bool) (off : BitVec 12) (data : Word) : Txn :=
  BitVec.ofBool write ++ 0#19 ++ off ++ data

/-- The result of decoding one word. -/
abbrev Decoded := Except DecodeError Instr

/-- A readable-only register (R133). -/
def accessRO (write : Bool) (rd : Instr) : Decoded :=
  if write then .error .writeOfReadOnly else .ok rd

/-- A writable-only register (R133). -/
def accessWO (write : Bool) (wr : Instr) : Decoded :=
  if write then .ok wr else .error .readOfWriteOnly

/-- A register that allows both directions (R133: RW, RW1C, RL). -/
def accessRW (write : Bool) (rd wr : Instr) : Decoded := .ok (if write then wr else rd)

/-- A block element, unmapped where its selectors are out of range (R132). -/
def accessIf (mapped : Bool) (d : Decoded) : Decoded :=
  if mapped then d else .error .unmapped

/-- The command that DATA of a CMD write selects (R143). -/
def decodeCmd (data : Word) : Instr :=
  if data = 1#32 then .cmdReset
  else if data = 2#32 then .cmdConfigure
  else if data = 3#32 then .cmdStart
  else if data = 4#32 then .cmdStop
  else if data = 5#32 then .cmdResetCapture
  else if data = 6#32 then .cmdOutPop
  else if data = 7#32 then .cmdOutRewind
  else .cmdReserved data

/-- The registers that stand alone (R135, R141, R150's OUT_DATA), else `none`. -/
def decodeSingle (write : Bool) (off : BitVec 12) (data : Word) : Option Decoded :=
  if off = 0x000#12 then some (accessRO write .rdId)
  else if off = 0x004#12 then some (accessRO write .rdVersion)
  else if off = 0x008#12 then some (accessWO write (decodeCmd data))
  else if off = 0x00C#12 then some (accessRO write .rdStatus)
  else if off = 0x010#12 then some (accessRW write .rdErr (.wrErr data))
  else if off = 0x014#12 then some (accessRW write .rdIrqEn (.wrIrqEn data))
  else if off = 0x018#12 then some (accessRO write .rdIrqStatus)
  else if off = 0x020#12 then some (accessWO write (.wrSampleReal data))
  else if off = 0x024#12 then some (accessWO write (.wrSampleI data))
  else if off = 0x028#12 then some (accessWO write (.wrSampleQ data))
  else if off = 0x030#12 then some (accessRO write (.rdClock 0#1))
  else if off = 0x034#12 then some (accessRO write (.rdClock 1#1))
  else if off = 0x0C0#12 then some (accessRW write .rdHistChan (.wrHistChan data))
  else if off = 0x0C4#12 then some (accessRW write .rdHistIndex (.wrHistIndex data))
  else if off = 0x0C8#12 then some (accessRO write .rdHistData)
  else if off = 0x940#12 then some (accessRO write .rdOutData)
  else none

/-- The indexed blocks (R139, R140, R142, R145 to R150): the high bits of OFF name the block, the
middle ones are the selectors. -/
def decodeBlock (write : Bool) (off : BitVec 12) (data : Word) : Decoded :=
  let k2 := off.extractLsb' 2 2
  let k3 := off.extractLsb' 2 3
  let k4 := off.extractLsb' 2 4
  let x := off.extractLsb' 5 2
  if off.extractLsb' 6 6 = 0b000001#6 then
    accessIf (k4.toNat ≤ 12) (accessRW write (.rdCfg k4) (.wrCfg k4 data))
  else if off.extractLsb' 6 6 = 0b000010#6 then
    accessIf (k4.toNat ≤ 8) (accessRO write (.rdDbg k4))
  else if off.extractLsb' 4 8 = 0x0E#8 then
    accessRO write (.rdParam k2)
  else if off.extractLsb' 7 5 = 0b00010#5 then
    accessIf (x.toNat ≤ 2 && k3.toNat ≤ 4) (accessRW write (.rdTcfg x k3) (.wrTcfg x k3 data))
  else if off.extractLsb' 7 5 = 0b00011#5 then
    accessIf (x.toNat ≤ 2 && k3.toNat ≤ 6) (accessRO write (.rdTstat x k3))
  else if off.extractLsb' 9 3 = 0b001#3 then
    let c := off.extractLsb' 5 4
    accessIf (c.toNat ≤ 10) (accessRO write (.rdCand c k3))
  else if off.extractLsb' 10 2 = 0b01#2 then
    let c := off.extractLsb' 6 4
    accessIf (c.toNat ≤ 10 && k4.toNat ≤ 14) (accessRO write (.rdSs c k4))
  else if off.extractLsb' 5 7 = 0b1000000#7 then
    accessRO write (.rdAsm k3)
  else if off.extractLsb' 6 6 = 0b100100#6 then
    accessIf (k4.toNat ≤ 8) (accessRO write (.rdOut k4))
  else .error .unmapped

/-- Decoding of a word whose reserved bits are 0 from its fields (R132). -/
def decodeFields (write : Bool) (off : BitVec 12) (data : Word) : Decoded :=
  if off.extractLsb' 0 2 ≠ 0#2 then .error .misaligned
  else (decodeSingle write off data).getD (decodeBlock write off data)

/-- The decoding procedure of R132, total on every word: an instruction, or why the transaction is
malformed. -/
def decode (w : Txn) : Decoded :=
  if txnReserved w ≠ 0#19 then .error .reservedBits
  else decodeFields (txnWrite w) (txnOff w) (txnData w)

/-- Whether the instruction is a write transaction (its W bit, R130). -/
def Instr.isWrite : Instr → Bool
  | .cmdReset | .cmdConfigure | .cmdStart | .cmdStop | .cmdResetCapture => true
  | .cmdOutPop | .cmdOutRewind | .cmdReserved _ => true
  | .wrErr _ | .wrIrqEn _ | .wrHistChan _ | .wrHistIndex _ => true
  | .wrSampleReal _ | .wrSampleI _ | .wrSampleQ _ => true
  | .wrCfg _ _ | .wrTcfg _ _ _ => true
  | .rdId | .rdVersion | .rdStatus | .rdErr | .rdIrqEn | .rdIrqStatus => false
  | .rdClock _ | .rdCfg _ | .rdDbg _ | .rdHistChan | .rdHistIndex | .rdHistData => false
  | .rdParam _ | .rdTcfg _ _ | .rdTstat _ _ | .rdCand _ _ | .rdSs _ _ => false
  | .rdAsm _ | .rdOut _ | .rdOutData => false

/-- The register offset of the instruction (R135 to R150). -/
def Instr.off : Instr → BitVec 12
  | .rdId => 0x000#12
  | .rdVersion => 0x004#12
  | .cmdReset | .cmdConfigure | .cmdStart | .cmdStop | .cmdResetCapture => 0x008#12
  | .cmdOutPop | .cmdOutRewind | .cmdReserved _ => 0x008#12
  | .rdStatus => 0x00C#12
  | .rdErr | .wrErr _ => 0x010#12
  | .rdIrqEn | .wrIrqEn _ => 0x014#12
  | .rdIrqStatus => 0x018#12
  | .wrSampleReal _ => 0x020#12
  | .wrSampleI _ => 0x024#12
  | .wrSampleQ _ => 0x028#12
  | .rdClock k => 0b000000110#9 ++ k ++ 0#2
  | .rdCfg k | .wrCfg k _ => 0b000001#6 ++ k ++ 0#2
  | .rdDbg k => 0b000010#6 ++ k ++ 0#2
  | .rdHistChan | .wrHistChan _ => 0x0C0#12
  | .rdHistIndex | .wrHistIndex _ => 0x0C4#12
  | .rdHistData => 0x0C8#12
  | .rdParam k => 0x0E#8 ++ k ++ 0#2
  | .rdTcfg x k | .wrTcfg x k _ => 0b00010#5 ++ x ++ k ++ 0#2
  | .rdTstat x k => 0b00011#5 ++ x ++ k ++ 0#2
  | .rdCand c k => 0b001#3 ++ c ++ k ++ 0#2
  | .rdSs c k => 0b01#2 ++ c ++ k ++ 0#2
  | .rdAsm k => 0b1000000#7 ++ k ++ 0#2
  | .rdOut k => 0b100100#6 ++ k ++ 0#2
  | .rdOutData => 0x940#12

/-- DATA of the instruction: the value written, the command code (R143), or 0 for a read, whose DATA
is ignored (R131). -/
def Instr.data : Instr → Word
  | .cmdReset => 1#32
  | .cmdConfigure => 2#32
  | .cmdStart => 3#32
  | .cmdStop => 4#32
  | .cmdResetCapture => 5#32
  | .cmdOutPop => 6#32
  | .cmdOutRewind => 7#32
  | .cmdReserved d | .wrErr d | .wrIrqEn d | .wrHistChan d | .wrHistIndex d => d
  | .wrSampleReal d | .wrSampleI d | .wrSampleQ d => d
  | .wrCfg _ d | .wrTcfg _ _ d => d
  | .rdId | .rdVersion | .rdStatus | .rdErr | .rdIrqEn | .rdIrqStatus => 0#32
  | .rdClock _ | .rdCfg _ | .rdDbg _ | .rdHistChan | .rdHistIndex | .rdHistData => 0#32
  | .rdParam _ | .rdTcfg _ _ | .rdTstat _ _ | .rdCand _ _ | .rdSs _ _ => 0#32
  | .rdAsm _ | .rdOut _ | .rdOutData => 0#32

/-- The encoder: the transaction word of an instruction (R130, R160). -/
def encode (i : Instr) : Txn := mkTxn i.isWrite i.off i.data

/-- The instruction the decoder reads from an opcode-table word of `nbits` bits, bits above them 0.
A transaction is one 64-bit word (R130). -/
def decodeTableWord (nbits w : Nat) : Option Instr :=
  match decode (BitVec.ofNat 64 (w % 2 ^ nbits)) with
  | .ok i => some i
  | .error _ => none

end Sys2Proof
end

