-- ==== Sys2Proof/Config.lean ====
section
/-! DEFINITION. What an instance fixes (00_scope.md R6) and the values the spec leaves free. -/

namespace Sys2Proof

/-- The synthesis parameters of 00_scope.md R6, coded so that every value is a legal instance: an
illegal one "is not built". `HIST_SIZE = 2 ^ (histExp + 4)`, `BUF_CAP = bufCapPred + 1`,
`OUTQ_DEPTH = outqExtra + 4` (log 5). -/
structure Params where
  histExp : Fin 17
  bufCapPred : Fin 65535
  outqExtra : Fin 252
deriving DecidableEq, Repr

/-- HIST_SIZE, entries per ring history: a power of two from 16 to 1048576 (R6). -/
def Params.histSize (p : Params) : Nat := 2 ^ (p.histExp.val + 4)

/-- BUF_CAP, capacity of the stream byte buffer: 1 to 65535 (R6). -/
def Params.bufCap (p : Params) : Nat := p.bufCapPred.val + 1

/-- OUTQ_DEPTH, records in the output queue: 4 to 255 (R6). -/
def Params.outqDepth (p : Params) : Nat := p.outqExtra.val + 4

/-- The default parameters of R6: HIST_SIZE 1024, BUF_CAP 512, OUTQ_DEPTH 8. -/
def Params.default : Params := ⟨6, 511, 4⟩

/-- The binary32 operations of 00_scope.md R11, as a name under which a free value is drawn. -/
inductive FloatOp
  | add | sub | mul | div | sqrt
deriving DecidableEq, Repr

/-- FREE VALUE (log 1). The sign (bit 23) and fraction (bits 22:0) of the NaN that an operation
produces from its operands: 00_scope.md R11 names the IEEE 754 operations, and neither it nor any
other rule says which NaN comes out. -/
opaque Config.nanFill : FloatOp → F32 → F32 → BitVec 24

/-- FREE VALUE (log 2). The slot that 42_symbol_correlator.md R284 calls `best`, where some slot sum
is a NaN and no slot meets the rule's condition. -/
opaque Config.ppmBest : F32 → F32 → F32 → F32 → BitVec 2

/-- FREE VALUE (log 2). "The greatest" of the three other slot sums of R284, where one is a NaN. -/
opaque Config.ppmSecond : F32 → F32 → F32 → F32

end Sys2Proof
end

