-- ==== Sys2Proof/Machine/Types.lean ====
section
/-! DEFINITION. The names the spec gives the machine's parts (technologies, candidate rows, patterns,
stages), their codes, and the containers indexed by them. -/

namespace Sys2Proof.Machine

/-- The technologies A, B and V (00_scope.md R7). -/
inductive Tech
  | a | b | v
deriving DecidableEq, Repr

/-- The technologies in the order of the tick (R200, R409). -/
def Tech.all : List Tech := [.a, .b, .v]

/-- A = 0, B = 1, V = 2 (R7). -/
def Tech.code : Tech → BitVec 2
  | .a => 0 | .b => 1 | .v => 2

/-- The technology of a selector x; 3 names none (R145, R146). -/
def Tech.ofCode (x : BitVec 2) : Option Tech :=
  if x = 0#2 then some .a else if x = 1#2 then some .b else if x = 2#2 then some .v else none

/-- The direction of a frame: poll = 0, listen = 1 (10_state.md R41). -/
inductive Dir
  | poll | listen
deriving DecidableEq, Repr

/-- The DIR bit (R41). -/
def Dir.code : Dir → BitVec 1
  | .poll => 0 | .listen => 1

/-- The eleven candidate rows, named as in 41_candidate_bank.md R251. -/
inductive Row
  | aPoll848 | bPoll848 | aPoll424 | bPoll424 | aPoll212 | bPoll212
  | aPoll106 | bPoll106 | aListen106 | vPoll26 | vListen26
deriving DecidableEq, Repr

/-- The rows in the fixed priority order c = 0..10 (R250). -/
def Row.all : List Row :=
  [.aPoll848, .bPoll848, .aPoll424, .bPoll424, .aPoll212, .bPoll212,
   .aPoll106, .bPoll106, .aListen106, .vPoll26, .vListen26]

/-- The row index c (R251). -/
def Row.code : Row → BitVec 4
  | .aPoll848 => 0
  | .bPoll848 => 1
  | .aPoll424 => 2
  | .bPoll424 => 3
  | .aPoll212 => 4
  | .bPoll212 => 5
  | .aPoll106 => 6
  | .bPoll106 => 7
  | .aListen106 => 8
  | .vPoll26 => 9
  | .vListen26 => 10

/-- The row of a selector c; 11 to 15 name none (R147, R148). -/
def Row.ofCode (c : BitVec 4) : Option Row := Row.all.find? (fun r => r.code = c)

/-- The pattern codes of 42_symbol_correlator.md R280. The codes 5, 6, 7 and 12 to 15 "are never
produced" and have no constructor (log 10). -/
inductive Pattern
  | none | first | second | nrzZero | nrzOne | ppm0 | ppm1 | ppm2 | ppm3
deriving DecidableEq, Repr

/-- The 4-bit code of a pattern (R280). -/
def Pattern.code : Pattern → BitVec 4
  | .none => 0 | .first => 1 | .second => 2 | .nrzZero => 3 | .nrzOne => 4
  | .ppm0 => 8 | .ppm1 => 9 | .ppm2 => 10 | .ppm3 => 11

/-- PPM_j, code 8 + j (R280, R284). -/
def Pattern.ppm (j : BitVec 2) : Pattern :=
  if j = 0#2 then .ppm0 else if j = 1#2 then .ppm1 else if j = 2#2 then .ppm2 else .ppm3

/-- The stages of a search (10_state.md R38). -/
inductive Stage
  | idle | searching | synchronizing | locked
deriving DecidableEq, Repr

/-- The STAGE field (R38). -/
def Stage.code : Stage → BitVec 2
  | .idle => 0 | .searching => 1 | .synchronizing => 2 | .locked => 3

/-- The phases of the stream decoder (10_state.md R40). -/
inductive Phase
  | sofStrip | data | bSofZeros | bSofOnes | bWaitStart | bChar
deriving DecidableEq, Repr

/-- The PHASE field (R40). -/
def Phase.code : Phase → BitVec 3
  | .sofStrip => 0 | .data => 1 | .bSofZeros => 2 | .bSofOnes => 3 | .bWaitStart => 4 | .bChar => 5

/-- The stages of the frame assembler that outlive a tick (10_state.md R41, R400). -/
inductive AsmStage
  | waitingStart | accumulating
deriving DecidableEq, Repr

/-- The ASM_STAGE bit (R41). -/
def AsmStage.code : AsmStage → BitVec 1
  | .waitingStart => 0 | .accumulating => 1

/-- The kinds of output records (10_state.md R43). -/
inductive Kind
  | frame | timeout | abandoned
deriving DecidableEq, Repr

/-- The KIND field (R43). -/
def Kind.code : Kind → BitVec 2
  | .frame => 0 | .timeout => 1 | .abandoned => 2

/-- The codings of the candidate ROM (41_candidate_bank.md R251, R252). -/
inductive Coding
  | miller | manchester | nrz | ppm4
deriving DecidableEq, Repr

/-- The CODING field of CAND_INFO (30_encoding.md R147). -/
def Coding.code : Coding → BitVec 2
  | .miller => 0 | .manchester => 1 | .nrz => 2 | .ppm4 => 3

/-- The framings of the candidate ROM (43_stream_decoder.md R355). -/
inductive Framing
  | parityOdd | startStop | plain
deriving DecidableEq, Repr

/-- The FRAMING field of CAND_INFO (30_encoding.md R147). -/
def Framing.code : Framing → BitVec 2
  | .parityOdd => 0 | .startStop => 1 | .plain => 2

/-- One value for each technology. -/
structure PerTech (α : Type) where
  a : α
  b : α
  v : α
deriving DecidableEq, Repr

/-- The value of technology `x`. -/
def PerTech.get {α : Type} (m : PerTech α) : Tech → α
  | .a => m.a | .b => m.b | .v => m.v

/-- The values with that of technology `x` replaced. -/
def PerTech.set {α : Type} (m : PerTech α) (x : Tech) (y : α) : PerTech α :=
  match x with
  | .a => { m with a := y } | .b => { m with b := y } | .v => { m with v := y }

/-- The values given by a function of the technology. -/
def PerTech.build {α : Type} (f : Tech → α) : PerTech α := ⟨f .a, f .b, f .v⟩

/-- One value for each candidate row. -/
structure PerRow (α : Type) where
  aPoll848 : α
  bPoll848 : α
  aPoll424 : α
  bPoll424 : α
  aPoll212 : α
  bPoll212 : α
  aPoll106 : α
  bPoll106 : α
  aListen106 : α
  vPoll26 : α
  vListen26 : α
deriving DecidableEq, Repr

/-- The value of row `c`. -/
def PerRow.get {α : Type} (m : PerRow α) : Row → α
  | .aPoll848 => m.aPoll848
  | .bPoll848 => m.bPoll848
  | .aPoll424 => m.aPoll424
  | .bPoll424 => m.bPoll424
  | .aPoll212 => m.aPoll212
  | .bPoll212 => m.bPoll212
  | .aPoll106 => m.aPoll106
  | .bPoll106 => m.bPoll106
  | .aListen106 => m.aListen106
  | .vPoll26 => m.vPoll26
  | .vListen26 => m.vListen26

/-- The values with that of row `c` replaced. -/
def PerRow.set {α : Type} (m : PerRow α) (c : Row) (y : α) : PerRow α :=
  match c with
  | .aPoll848 => { m with aPoll848 := y }
  | .bPoll848 => { m with bPoll848 := y }
  | .aPoll424 => { m with aPoll424 := y }
  | .bPoll424 => { m with bPoll424 := y }
  | .aPoll212 => { m with aPoll212 := y }
  | .bPoll212 => { m with bPoll212 := y }
  | .aPoll106 => { m with aPoll106 := y }
  | .bPoll106 => { m with bPoll106 := y }
  | .aListen106 => { m with aListen106 := y }
  | .vPoll26 => { m with vPoll26 := y }
  | .vListen26 => { m with vListen26 := y }

/-- The values given by a function of the row. -/
def PerRow.build {α : Type} (f : Row → α) : PerRow α :=
  ⟨f .aPoll848, f .bPoll848, f .aPoll424, f .bPoll424, f .aPoll212, f .bPoll212,
   f .aPoll106, f .bPoll106, f .aListen106, f .vPoll26, f .vListen26⟩

/-- A storage of `w`-bit entries by index, as a list of the entries that are not 0 at strictly rising
indices; an unlisted entry reads 0, its reset value (10_state.md R36, R40; log 8). With `w = 8` it is a
list of `Host.Cell`. -/
abbrev Memory (w : Nat) := List (Nat × BitVec w)

end Sys2Proof.Machine
end

