-- ==== Sys2Proof/Machine/State.lean ====
section
/-! DEFINITION. Everything the spec gives the machine (10_state.md), as plain data, and its reset. -/

namespace Sys2Proof.Machine

/-- Why the machine could stop. No condition of the spec stops the block: "The block has no traps"
(60_exceptions.md R537), and every transaction "completes wholly". Nothing raises a fault. -/
inductive Fault
deriving DecidableEq, Repr

/-- Why an instruction has no meaning. -/
inductive Refusal
  /-- Raised by `exec` for an instruction without a meaning yet; safe, since the run stops. No arm
  raises it: every instruction has its meaning. -/
  | notModelled (mnemonic : String)
deriving DecidableEq, Repr

/-- Conditioner and bank configuration (10_state.md R33). -/
structure CondCfg where
  alphaAvgLive : F32
  alphaDevLive : F32
  alphaAvgSil : F32
  alphaDevSil : F32
  alphaEdgeFast : F32
  alphaEdgeSlow : F32
  hystFactor : F32
  silenceLimit : Word
  thrK : F32
  minDepth : F32
  sampleRate : Word
  candEnable : BitVec 11
  bIdleLimit : Word
deriving DecidableEq, Repr

/-- The reset values of R33. -/
def CondCfg.reset : CondCfg where
  alphaAvgLive := 0x3D800000#32
  alphaDevLive := 0x3D800000#32
  alphaAvgSil := 0x3E800000#32
  alphaDevSil := 0x3E800000#32
  alphaEdgeFast := 0x3F000000#32
  alphaEdgeSlow := 0x3E000000#32
  hystFactor := 0x3F733333#32
  silenceLimit := 32#32
  thrK := 0x40800000#32
  minDepth := 0x3D4CCCCD#32
  sampleRate := 10000000#32
  candEnable := 0x7FF#11
  bIdleLimit := 16#32

/-- ProtocolStatus of one technology (10_state.md R34). -/
structure TechCfg where
  maxFrameSize : Word
  frameGuardTime : Word
  frameWaitingTime : Word
  startupGuardTime : Word
  requestGuardTime : Word
deriving DecidableEq, Repr

/-- The reset values of R34. -/
def TechCfg.reset : TechCfg := ⟨256#32, 0#32, 0#32, 0#32, 0#32⟩

/-- SignalState (10_state.md R35). -/
structure SignalState where
  clock : Clock
  value : F32
  average : F32
  deviation : F32
  edgeFast : F32
  edgeSlow : F32
  depth : F32
  threshold : F32
  silence : Word
deriving DecidableEq, Repr

/-- The reset values of R35. -/
def SignalState.reset : SignalState :=
  ⟨0#64, 0#32, 0#32, 0#32, 0#32, 0#32, 0#32, 0#32, 0#32⟩

/-- The four ring histories (10_state.md R36). -/
structure Histories where
  hdata : Memory 32
  hdev : Memory 32
  hedge : Memory 32
  hdeep : Memory 32
deriving DecidableEq, Repr

/-- Every entry +0.0 (R36). -/
def Histories.reset : Histories := ⟨[], [], [], []⟩

/-- The computed fields of one candidate row (10_state.md R37). -/
structure BankRow where
  pfx : BitVec 64
  p : Word
  h : Word
  q : Word
  e : Word
  tau : Word
  w : Word
  l : Word
  valid : Bool
  active : Bool
  weight : F32
deriving DecidableEq, Repr

/-- The reset values of R37. -/
def BankRow.reset : BankRow :=
  ⟨0#64, 0#32, 0#32, 0#32, 0#32, 0#32, 0#32, 0#32, false, false, 0#32⟩

/-- SearchState of one candidate (10_state.md R38). -/
structure SearchState where
  stage : Stage
  start : Clock
  stop : Clock
  thresh : F32
  found : Bool
  peakValue : F32
  peakTime : Clock
  peakPat : Pattern
  pulseWidth : Word
  pulseOpen : Bool
  sym1Pat : Pattern
  sym1Start : Clock
  sym1End : Clock
  symEnd : Clock
  expFx : BitVec 64
  bestFound : Bool
  bestTime : Clock
  bestValue : F32
  bestPat : Pattern
  miss : BitVec 2
  hold : Bool
  holdStart : Clock
  holdEnd : Clock
  holdNext : Word
  corr0 : F32
  corr1 : F32
deriving DecidableEq, Repr

/-- A clear search state: every element of R38 at its reset value. -/
def SearchState.reset : SearchState where
  stage := .idle
  start := 0#64
  stop := 0#64
  thresh := 0#32
  found := false
  peakValue := 0#32
  peakTime := 0#64
  peakPat := .none
  pulseWidth := 0#32
  pulseOpen := false
  sym1Pat := .none
  sym1Start := 0#64
  sym1End := 0#64
  symEnd := 0#64
  expFx := 0#64
  bestFound := false
  bestTime := 0#64
  bestValue := 0#32
  bestPat := .none
  miss := 0#2
  hold := false
  holdStart := 0#64
  holdEnd := 0#64
  holdNext := 0#32
  corr0 := 0#32
  corr1 := 0#32

/-- StreamState (10_state.md R40). -/
structure StreamState where
  phase : Phase
  data : Byte
  bitcnt : BitVec 4
  run : Word
  bytes : BitVec 16
  buf : Memory 8
  parErr : Bool
  prevPat : Pattern
  lastbits : BitVec 4
deriving DecidableEq, Repr

/-- A clear stream state (R40). -/
def StreamState.reset : StreamState :=
  ⟨.sofStrip, 0#8, 0#4, 0#32, 0#16, [], false, .none, 0#4⟩

/-- FrameState of the frame in progress (10_state.md R41); `cand = none` is F_CAND = 0xF. -/
structure FrameState where
  asmStage : AsmStage
  cand : Option Row
  tech : Tech
  dir : Dir
  rate : BitVec 16
  frameStart : Clock
  lastEnd : Clock
deriving DecidableEq, Repr

/-- A clear frame state (R41). -/
def FrameState.reset : FrameState := ⟨.waitingStart, none, .a, .poll, 0#16, 0#64, 0#64⟩

/-- Timing state of one technology (10_state.md R42). -/
structure Timing where
  guardPoll : Clock
  guardListen : Clock
  waitEnd : Clock
  expect : Bool
  lastCmd : Byte
  lastCmdValid : Bool
deriving DecidableEq, Repr

/-- The reset values of R42. -/
def Timing.reset : Timing := ⟨0#64, 0#64, 0#64, false, 0#8, false⟩

/-- A record of the output queue (10_state.md R43); `cand = none` is CAND = 0xF. LEN is the number of
`bytes` (`Record.len`). -/
structure Record where
  kind : Kind
  tech : Tech
  dir : Dir
  cand : Option Row
  rate : BitVec 16
  parErr : Bool
  crcErr : Bool
  lastbits : BitVec 4
  bytes : List Byte
  t0 : Clock
  t1 : Clock
  cmd : Byte
  cmdValid : Bool
deriving DecidableEq, Repr

/-- What reaches the block from outside, between transactions: a host transaction (30_encoding.md
R130) or a pulse of the reset input (70_reset_and_hazards.md R580). -/
inductive HostInput
  | txn (w : Txn)
  | reset
deriving DecidableEq, Repr

/-- The machine (10_state.md). `inputs` and `response` are the model's own fields: what the host has
yet to issue, oldest first (log 3), and the value the last transaction returned to the host, `none`
after a write (R131, log 4). -/
structure State where
  params : Params
  run : Bool
  configured : Bool
  err : BitVec 8
  irqEn : BitVec 2
  iLatch : F32
  iValid : Bool
  histChan : BitVec 2
  histIndex : Word
  cfg : CondCfg
  tcfg : PerTech TechCfg
  sig : SignalState
  hist : Histories
  bank : PerRow BankRow
  ss : PerRow SearchState
  st : StreamState
  fs : FrameState
  tim : PerTech Timing
  queue : List Record
  rptr : BitVec 16
  inputs : List HostInput
  response : Option Word
deriving DecidableEq, Repr

/-- The machine right after reset (70_reset_and_hazards.md R580), an instance with the default
parameters (00_scope.md R6), no input pending and nothing returned yet. -/
def State.reset : State where
  params := Params.default
  run := false
  configured := false
  err := 0#8
  irqEn := 0#2
  iLatch := 0#32
  iValid := false
  histChan := 0#2
  histIndex := 0#32
  cfg := CondCfg.reset
  tcfg := PerTech.build fun _ => TechCfg.reset
  sig := SignalState.reset
  hist := Histories.reset
  bank := PerRow.build fun _ => BankRow.reset
  ss := PerRow.build fun _ => SearchState.reset
  st := StreamState.reset
  fs := FrameState.reset
  tim := PerTech.build fun _ => Timing.reset
  queue := []
  rptr := 0#16
  inputs := []
  response := none

end Sys2Proof.Machine
end

