-- ==== Sys2Proof/Machine/Flags.lean ====
section
/-! DEFINITION. The flags of the block: the ERR bits (60_exceptions.md R530), READY (R204), the
interrupt output (R533) and the words that show them (30_encoding.md R136 to R138). -/

namespace Sys2Proof.Machine

/-- The sticky bits of ERR (R137, R530). -/
inductive ErrBit
  | notReady | nonfinite | cmd | bus | cfgLocked | config | out | iqSeq
deriving DecidableEq, Repr

/-- The place of a bit in ERR (R137). -/
def ErrBit.index : ErrBit → Nat
  | .notReady => 0 | .nonfinite => 1 | .cmd => 2 | .bus => 3
  | .cfgLocked => 4 | .config => 5 | .out => 6 | .iqSeq => 7

/-- ERR with only this bit set. -/
def ErrBit.mask (e : ErrBit) : BitVec 8 := 1#8 <<< e.index

/-- A field of a register word: the value at bit position `pos`, other bits 0 (R134). -/
def field {n : Nat} (v : BitVec n) (pos : Nat) : Word := v.setWidth 32 <<< pos

/-- A one-bit field of a register word. -/
def flagBit (b : Bool) (pos : Nat) : Word := field (BitVec.ofBool b) pos

/-- QCOUNT, the number of records held (10_state.md R43; log 9). -/
abbrev State.qcount (s : State) : Nat := s.queue.length

/-- OUT_VALID (R136). -/
def State.outValid (s : State) : Bool := decide (0 < s.qcount)

/-- READY: running, configured and at least MAX_RECORDS_PER_TICK = 4 queue entries free
(40_signal_conditioner.md R204). -/
def State.ready (s : State) : Bool :=
  s.run && s.configured && decide (s.qcount + 4 ≤ s.params.outqDepth)

/-- A row is LOCKED. -/
def State.isLocked (s : State) (c : Row) : Bool := decide ((s.ss.get c).stage = .locked)

/-- The LOCKED candidate, if any (R453; at most one, R296). -/
def State.lockedRow (s : State) : Option Row := Row.all.find? s.isLocked

/-- The row field of a register: the row index, 0xF for none (R136, R149, R150). -/
def rowField (c : Option Row) : BitVec 4 := (c.map Row.code).getD 0xF#4

/-- STATUS (R136, R453). -/
def State.statusWord (s : State) : Word :=
  flagBit s.run 0 ||| flagBit s.configured 1 ||| flagBit s.ready 2 ||| flagBit s.outValid 3
    ||| flagBit s.lockedRow.isSome 4 ||| field s.fs.asmStage.code 5 ||| flagBit s.iValid 6
    ||| field (rowField s.lockedRow) 8 ||| field (BitVec.ofNat 8 s.qcount) 16

/-- QIRQ: a record is queued and QEN is set (R138, R458). -/
def State.qirq (s : State) : Bool := s.outValid && s.irqEn.getLsbD 0

/-- EIRQ: an ERR bit is set and EEN is set (R138, R458). -/
def State.eirq (s : State) : Bool := s.err != 0#8 && s.irqEn.getLsbD 1

/-- The interrupt output IRQ, a level that depends on the state alone (60_exceptions.md R533). -/
def State.irq (s : State) : Bool := s.qirq || s.eirq

/-- IRQ_STATUS (R138, R458). -/
def State.irqStatusWord (s : State) : Word :=
  flagBit s.qirq 0 ||| flagBit s.eirq 1 ||| flagBit s.irq 2

end Sys2Proof.Machine
end

