-- ==== Sys2Proof/Machine/Float32.lean ====
section
/-! DEFINITION. Binary32 arithmetic (00_scope.md R11, R12): exact integer arithmetic in units of
2^-149 (the least subnormal), then one rounding to nearest, ties to even. Subnormals are kept. The
rules for infinities, signed zeros and invalid operations are those of IEEE 754 (log 15). -/

namespace Sys2Proof.Machine

/-- The sign bit, bit 31. -/
def f32sign (a : F32) : Bool := a.getLsbD 31

/-- The biased exponent field, bits 30:23. -/
def f32exp (a : F32) : Nat := (a.extractLsb' 23 8).toNat

/-- The fraction field, bits 22:0. -/
def f32frac (a : F32) : Nat := (a.extractLsb' 0 23).toNat

/-- False for infinities and NaNs (R11). -/
def isfinite (a : F32) : Bool := f32exp a != 255

/-- A NaN pattern. -/
def isNaN (a : F32) : Bool := f32exp a == 255 && f32frac a != 0

/-- An infinity pattern. -/
def isInf (a : F32) : Bool := f32exp a == 255 && f32frac a == 0

/-- Clears the sign bit (R11). -/
def f32abs (a : F32) : F32 := a &&& 0x7FFFFFFF#32

/-- The magnitude of a finite value, as a number of units of 2^-149. -/
def f32mag (a : F32) : Nat :=
  if f32exp a = 0 then f32frac a else (f32frac a + 2 ^ 23) <<< (f32exp a - 1)

/-- The value of a finite pattern, as a number of units of 2^-149. -/
def f32units (a : F32) : Int := if f32sign a then -(f32mag a : Int) else f32mag a

/-- The pattern with this sign and magnitude field (bits 30:0). -/
def f32pack (sign : Bool) (mag : Nat) : F32 :=
  (if sign then 0x80000000#32 else 0#32) ||| BitVec.ofNat 32 mag

/-- The infinity of a sign. -/
def f32inf (sign : Bool) : F32 := f32pack sign 0x7F800000

/-- The quotient of two naturals rounded to the nearest natural, ties to even. -/
def divHalfEven (num den : Nat) : Nat :=
  let q := num / den
  let r := num % den
  if den < 2 * r then q + 1
  else if 2 * r = den then q + q % 2
  else q

/-- The magnitude field of the value `num / den` (in units of 2^-149), correctly rounded to nearest,
ties to even; a value that rounds beyond the largest finite one gives infinity (R11). -/
def roundMag (num den : Nat) : Nat :=
  let k := (num / den).log2 - 23
  min (k * 2 ^ 23 + divHalfEven num (den <<< k)) 0x7F800000

/-- The binary32 nearest to `num / den` units of 2^-149, with the given sign. -/
def roundRat (sign : Bool) (num den : Nat) : F32 := f32pack sign (roundMag num den)

/-- A NaN that `op` produces from its operands: its sign and fraction are free (log 1), a fraction of
0 standing for the one that keeps it a NaN. -/
def freeNaN (op : FloatOp) (a b : F32) : F32 :=
  let f := Config.nanFill op a b
  let frac := f.extractLsb' 0 23
  f.extractLsb' 23 1 ++ 0xFF#8 ++ (if frac = 0#23 then 0x400000#23 else frac)

/-- The exact sum of two finite values, rounded once. An exact 0 is +0 unless both operands have
the minus sign. -/
def f32sumFinite (a b : F32) : F32 :=
  let sum := f32units a + f32units b
  if sum = 0 then f32pack (f32sign a && f32sign b) 0
  else roundRat (decide (sum < 0)) sum.natAbs 1

/-- The sum of `a` and `b`, an invalid operation or a NaN operand giving the NaN `nan`. -/
def f32sum (nan : F32) (a b : F32) : F32 :=
  if isNaN a || isNaN b then nan
  else if isInf a then (if isInf b && f32sign a != f32sign b then nan else a)
  else if isInf b then b
  else f32sumFinite a b

/-- IEEE 754 addition (R11). -/
def f32add (a b : F32) : F32 := f32sum (freeNaN .add a b) a b

/-- IEEE 754 subtraction (R11). -/
def f32sub (a b : F32) : F32 := f32sum (freeNaN .sub a b) a (b ^^^ 0x80000000#32)

/-- IEEE 754 multiplication (R11). -/
def f32mul (a b : F32) : F32 :=
  let sign := f32sign a != f32sign b
  if isNaN a || isNaN b then freeNaN .mul a b
  else if isInf a || isInf b then
    (if f32mag a = 0 || f32mag b = 0 then freeNaN .mul a b else f32inf sign)
  else roundRat sign (f32mag a * f32mag b) (2 ^ 149)

/-- IEEE 754 division (R11). -/
def f32div (a b : F32) : F32 :=
  let sign := f32sign a != f32sign b
  if isNaN a || isNaN b then freeNaN .div a b
  else if isInf a then (if isInf b then freeNaN .div a b else f32inf sign)
  else if isInf b then f32pack sign 0
  else if f32mag b = 0 then (if f32mag a = 0 then freeNaN .div a b else f32inf sign)
  else roundRat sign (f32mag a <<< 149) (f32mag b)

/-- The greatest r with r^2 ≤ n among those whose bits above `bits` are those of `r`. -/
def isqrtFrom (n : Nat) : Nat → Nat → Nat
  | 0, r => r
  | bits + 1, r =>
    let r' := r + 2 ^ bits
    isqrtFrom n bits (if r' * r' ≤ n then r' else r)

/-- The integer square root of a number below 2^440. -/
def isqrt (n : Nat) : Nat := isqrtFrom n 220 0

/-- IEEE 754 square root (R11). The root has at least 75 integer bits, so its integer part and
whether it is exact decide the rounding. -/
def f32sqrt (a : F32) : F32 :=
  if isNaN a then freeNaN .sqrt a a
  else if f32mag a = 0 then a
  else if f32sign a then freeNaN .sqrt a a
  else if isInf a then a
  else
    let n := f32mag a <<< 149
    let r := isqrt n
    roundRat false (2 * r + (if r * r = n then 0 else 1)) 2

/-- The binary32 nearest to an unsigned integer (R11, `f32(n)`). -/
def f32ofNat (n : Nat) : F32 := roundRat false (n <<< 149) 1

/-- The order of the values that are not NaN: +0 and -0 are equal, the infinities are the ends. -/
def f32key (a : F32) : Int :=
  let mag : Int := (a.extractLsb' 0 31).toNat
  if f32sign a then -mag else mag

/-- The IEEE ordered `a > b`: false when either is a NaN (R12). -/
def f32gt (a b : F32) : Bool := !isNaN a && !isNaN b && decide (f32key b < f32key a)

/-- The IEEE ordered `a ≥ b` (R12). -/
def f32ge (a b : F32) : Bool := !isNaN a && !isNaN b && decide (f32key b ≤ f32key a)

/-- The IEEE ordered `a == b` (R12). -/
def f32eq (a b : F32) : Bool := !isNaN a && !isNaN b && decide (f32key a = f32key b)

/-- "a if a > m, else m" (R12): m when a is a NaN. -/
def fmaxfloor (a m : F32) : F32 := if f32gt a m then a else m

/-- 1.0. -/
def f32one : F32 := 0x3F800000#32

/-- +0.0. -/
def f32zero : F32 := 0#32

end Sys2Proof.Machine
end

