-- ==== Sys2Proof/Machine/Ops.lean ====
section
/-! DEFINITION. The named operations over storages, registers, errors, the queue and the resets. The
block has no traps (60_exceptions.md R537): raising a sticky error bit, and the malformed transaction,
stand where another machine takes an exception. -/

namespace Sys2Proof.Machine

/-- The outcome of a step of this machine. -/
abbrev Result := Host.Outcome State Fault Refusal

/-! ## Storages -/

/-- The entry at index `a`; an unlisted entry reads 0, its reset value (10_state.md R36, R40). -/
def Memory.read {w : Nat} (m : Memory w) (a : Nat) : BitVec w :=
  match m with
  | [] => 0#w
  | (b, v) :: rest => if a = b then v else Memory.read rest a

/-- The storage with entry `a` set to `v`: rising indices are kept, and an entry that becomes 0 is no
longer listed. -/
def Memory.write {w : Nat} (m : Memory w) (a : Nat) (v : BitVec w) : Memory w :=
  match m with
  | [] => if v = 0#w then [] else [(a, v)]
  | (b, u) :: rest =>
    if a < b then (if v = 0#w then (b, u) :: rest else (a, v) :: (b, u) :: rest)
    else if a = b then (if v = 0#w then rest else (a, v) :: rest)
    else (b, u) :: Memory.write rest a v

/-- The canonical form: indices strictly rising, no entry 0. -/
def Memory.wf {w : Nat} : Memory w → Bool
  | [] => true
  | (a, v) :: rest => v != 0#w && rest.all (fun e => decide (a < e.1)) && Memory.wf rest

/-- Every listed entry lies in a storage of `n` entries. -/
def Memory.within {w : Nat} (n : Nat) (m : Memory w) : Bool := m.all (fun e => decide (e.1 < n))

/-- `clock & (HIST_SIZE - 1)`, the history entry of a clock (10_state.md R36, R216). -/
def ringIndex (p : Params) (k : Clock) : Nat := (k &&& BitVec.ofNat 64 (p.histSize - 1)).toNat

/-! ## Counters -/

/-- A saturating increment: stops at 2^32 - 1 (00_scope.md R13). -/
def satinc (c : Word) : Word := if c.toNat < 2 ^ 32 - 1 then c + 1#32 else c

/-! ## Transactions -/

/-- The state after a read returned `v` to the host (30_encoding.md R131). -/
def State.answer (s : State) (v : Word) : State := { s with response := some v }

/-- The state after a write, which returns nothing to the host (R131). -/
def State.quiet (s : State) : State := { s with response := none }

/-- `raise ERR.X`: the sticky bit is set, whatever it was (00_scope.md R10, 60_exceptions.md R531). -/
def State.raise (s : State) (e : ErrBit) : State := { s with err := s.err ||| e.mask }

/-- A malformed transaction sets ERR.BUS and changes nothing else; a malformed read returns 0
(20_memory.md R104). -/
def State.malformed (s : State) (write : Bool) : State :=
  let s := s.raise .bus
  if write then s.quiet else s.answer 0#32

/-- Completes a read that may name no register: the value, or the malformed read (R104, R132). -/
def State.completeRead (s : State) : Option Word → State
  | some v => s.answer v
  | none => s.malformed false

/-- The next input from outside, oldest first, and the state without it (20_memory.md R107). -/
def State.takeInput (s : State) : Option (HostInput × State) :=
  match s.inputs with
  | [] => none
  | i :: rest => some (i, { s with inputs := rest })

/-! ## The output queue -/

/-- LEN of a record (10_state.md R43; log 9). -/
def Record.len (r : Record) : BitVec 16 := BitVec.ofNat 16 r.bytes.length

/-- `push(rec)`: the record joins the tail, QCOUNT goes up by one, RPTR stays
(44_frame_assembler.md R413). -/
def State.push (s : State) (r : Record) : State := { s with queue := s.queue ++ [r] }

/-! ## Resets -/

/-- `capture_reset()` (70_reset_and_hazards.md R581). -/
def State.captureReset (s : State) : State :=
  { s with
    sig := SignalState.reset
    hist := Histories.reset
    ss := PerRow.build fun _ => SearchState.reset
    st := StreamState.reset
    fs := FrameState.reset
    tim := PerTech.build fun _ => Timing.reset
    queue := []
    rptr := 0#16
    iLatch := 0#32
    iValid := false }

/-- The full reset of the reset input and of CMD_RESET (R580): every element takes its reset value;
the synthesis parameters are constants of the instance, and what the host has yet to issue is the
host's. -/
def State.fullReset (s : State) : State :=
  { State.reset with params := s.params, inputs := s.inputs }

end Sys2Proof.Machine
end

