-- ==== Sys2Proof/Machine/CandidateRom.lean ====
section
/-! DEFINITION. The candidate ROM (41_candidate_bank.md R251) and the arithmetic of the bank
(R253 to R257). -/

namespace Sys2Proof.Machine

/-- TECH (R251). -/
def Row.tech : Row → Tech
  | .aPoll848 | .aPoll424 | .aPoll212 | .aPoll106 | .aListen106 => .a
  | .bPoll848 | .bPoll424 | .bPoll212 | .bPoll106 => .b
  | .vPoll26 | .vListen26 => .v

/-- DIR (R251). -/
def Row.dir : Row → Dir
  | .aPoll848 | .bPoll848 | .aPoll424 | .bPoll424 | .aPoll212 | .bPoll212 => .poll
  | .aPoll106 | .bPoll106 | .vPoll26 => .poll
  | .aListen106 | .vListen26 => .listen

/-- CODING (R251). -/
def Row.coding : Row → Coding
  | .aPoll848 | .aPoll424 | .aPoll212 | .aPoll106 => .miller
  | .bPoll848 | .bPoll424 | .bPoll212 | .bPoll106 => .nrz
  | .aListen106 | .vListen26 => .manchester
  | .vPoll26 => .ppm4

/-- POL (R251): 1 for row 8 alone. -/
def Row.pol : Row → Bool
  | .aListen106 => true
  | .aPoll848 | .bPoll848 | .aPoll424 | .bPoll424 | .aPoll212 | .bPoll212 => false
  | .aPoll106 | .bPoll106 | .vPoll26 | .vListen26 => false

/-- FRAMING (R251). -/
def Row.framing : Row → Framing
  | .aPoll848 | .aPoll424 | .aPoll212 | .aPoll106 | .aListen106 => .parityOdd
  | .bPoll848 | .bPoll424 | .bPoll212 | .bPoll106 => .startStop
  | .vPoll26 | .vListen26 => .plain

/-- N, the symbol period in carrier cycles (R251). -/
def Row.n : Row → Nat
  | .aPoll848 | .bPoll848 => 16
  | .aPoll424 | .bPoll424 => 32
  | .aPoll212 | .bPoll212 => 64
  | .aPoll106 | .bPoll106 | .aListen106 => 128
  | .vPoll26 => 1024
  | .vListen26 => 512

/-- RATE, the nominal rate in kbit/s (R251). -/
def Row.rate : Row → BitVec 16
  | .aPoll848 | .bPoll848 => 848
  | .aPoll424 | .bPoll424 => 424
  | .aPoll212 | .bPoll212 => 212
  | .aPoll106 | .bPoll106 | .aListen106 => 106
  | .vPoll26 | .vListen26 => 26

/-- FC, the carrier frequency in Hz (00_scope.md R7). -/
def carrierHz : Nat := 13560000

/-- NUM_CAND (R7). -/
def numCand : Nat := 11

/-- The symbol period in 1/256 sample, rounded half up, in exact arithmetic (R253). -/
def periodFx (sampleRate : Word) (c : Row) : Nat :=
  (256 * sampleRate.toNat * c.n + carrierHz / 2) / carrierHz

/-- The symbol period in samples (R253). -/
def period (sampleRate : Word) (c : Row) : Nat := (periodFx sampleRate c + 128) >>> 8

/-- TAU, the tracking half-window (R254). -/
def tauOf (coding : Coding) (e : Nat) : Nat :=
  match coding with
  | .miller => 0
  | .manchester => e
  | .nrz => 0
  | .ppm4 => e >>> 2

/-- W, the correlation window (R254). -/
def windowOf (coding : Coding) (p h e : Nat) : Nat :=
  match coding with
  | .miller => 2 * h
  | .manchester => 2 * h
  | .nrz => p
  | .ppm4 => 8 * e

/-- L, the slot length that normalises scores (R254). -/
def slotOf (coding : Coding) (p h e : Nat) : Nat :=
  match coding with
  | .miller => h
  | .manchester => h
  | .nrz => p
  | .ppm4 => e

/-- VALID (R255). -/
def rowValid (params : Params) (p : Nat) : Bool := decide (8 ≤ p) && decide (p ≤ params.histSize)

/-- The computed fields of row `c` at CMD_CONFIGURE (R253 to R257). -/
def bankRow (params : Params) (cfg : CondCfg) (c : Row) : BankRow :=
  let p := period cfg.sampleRate c
  let h := p >>> 1
  let e := p >>> 3
  let valid := rowValid params p
  { pfx := BitVec.ofNat 64 (periodFx cfg.sampleRate c)
    p := BitVec.ofNat 32 p
    h := BitVec.ofNat 32 h
    q := BitVec.ofNat 32 (p >>> 2)
    e := BitVec.ofNat 32 e
    tau := BitVec.ofNat 32 (tauOf c.coding e)
    w := BitVec.ofNat 32 (windowOf c.coding p h e)
    l := BitVec.ofNat 32 (slotOf c.coding p h e)
    valid := valid
    active := valid && cfg.candEnable.getLsbD c.code.toNat
    weight := if valid then f32div f32one (f32ofNat p) else f32zero }

/-- The bank computed from a configuration (R253 to R257). -/
def bankOf (params : Params) (cfg : CondCfg) : PerRow BankRow := PerRow.build (bankRow params cfg)

/-- Some row is active (R476). -/
def someActive (bank : PerRow BankRow) : Bool := Row.all.any (fun c => (bank.get c).active)

end Sys2Proof.Machine
end

