-- ==== Sys2Proof/Machine/Operands.lean ====
section
/-! DEFINITION. The operand forms: how the DATA of a write becomes an element and how an element
becomes the word of a read (30_encoding.md R134, R139 to R150). A selector that names no register
gives `none` (R132). -/

namespace Sys2Proof.Machine

/-- Bits 31:0 of a 64-bit quantity (20_memory.md R103). -/
def lo (v : BitVec 64) : Word := v.extractLsb' 0 32

/-- Bits 63:32 of a 64-bit quantity (20_memory.md R103). -/
def hi (v : BitVec 64) : Word := v.extractLsb' 32 32

/-- The configuration word k (R139, 45_host_interface.md R460). -/
def CondCfg.read (g : CondCfg) (k : BitVec 4) : Option Word :=
  match k.toNat with
  | 0 => some g.alphaAvgLive
  | 1 => some g.alphaDevLive
  | 2 => some g.alphaAvgSil
  | 3 => some g.alphaDevSil
  | 4 => some g.alphaEdgeFast
  | 5 => some g.alphaEdgeSlow
  | 6 => some g.hystFactor
  | 7 => some g.silenceLimit
  | 8 => some g.thrK
  | 9 => some g.minDepth
  | 10 => some g.sampleRate
  | 11 => some (field g.candEnable 0)
  | 12 => some g.bIdleLimit
  | _ => none

/-- The configuration with element k written (R139, R461); CAND_ENABLE keeps DATA[10:0]. -/
def CondCfg.write (g : CondCfg) (k : BitVec 4) (d : Word) : Option CondCfg :=
  match k.toNat with
  | 0 => some { g with alphaAvgLive := d }
  | 1 => some { g with alphaDevLive := d }
  | 2 => some { g with alphaAvgSil := d }
  | 3 => some { g with alphaDevSil := d }
  | 4 => some { g with alphaEdgeFast := d }
  | 5 => some { g with alphaEdgeSlow := d }
  | 6 => some { g with hystFactor := d }
  | 7 => some { g with silenceLimit := d }
  | 8 => some { g with thrK := d }
  | 9 => some { g with minDepth := d }
  | 10 => some { g with sampleRate := d }
  | 11 => some { g with candEnable := d.extractLsb' 0 11 }
  | 12 => some { g with bIdleLimit := d }
  | _ => none

/-- Element k of a technology's ProtocolStatus (R145, R462). -/
def TechCfg.read (g : TechCfg) (k : BitVec 3) : Option Word :=
  match k.toNat with
  | 0 => some g.maxFrameSize
  | 1 => some g.frameGuardTime
  | 2 => some g.frameWaitingTime
  | 3 => some g.startupGuardTime
  | 4 => some g.requestGuardTime
  | _ => none

/-- A technology's ProtocolStatus with element k written (R145, R463). -/
def TechCfg.write (g : TechCfg) (k : BitVec 3) (d : Word) : Option TechCfg :=
  match k.toNat with
  | 0 => some { g with maxFrameSize := d }
  | 1 => some { g with frameGuardTime := d }
  | 2 => some { g with frameWaitingTime := d }
  | 3 => some { g with startupGuardTime := d }
  | 4 => some { g with requestGuardTime := d }
  | _ => none

/-- The conditioner debug word k (R140, R481). -/
def State.dbgWord (s : State) (k : BitVec 4) : Option Word :=
  match k.toNat with
  | 0 => some s.sig.value
  | 1 => some s.sig.average
  | 2 => some s.sig.deviation
  | 3 => some s.sig.edgeFast
  | 4 => some s.sig.edgeSlow
  | 5 => some s.sig.depth
  | 6 => some s.sig.threshold
  | 7 => some s.sig.silence
  | 8 => some s.iLatch
  | _ => none

/-- The parameter word k (R142, R464). -/
def paramWord (p : Params) (k : BitVec 2) : Word :=
  if k = 0#2 then BitVec.ofNat 32 p.histSize
  else if k = 1#2 then BitVec.ofNat 32 p.bufCap
  else if k = 2#2 then BitVec.ofNat 32 p.outqDepth
  else BitVec.ofNat 32 numCand

/-- The timing word k of a technology (R146, 44_frame_assembler.md R420). -/
def Timing.word (m : Timing) (k : BitVec 3) : Option Word :=
  match k.toNat with
  | 0 => some (lo m.guardPoll)
  | 1 => some (hi m.guardPoll)
  | 2 => some (lo m.waitEnd)
  | 3 => some (hi m.waitEnd)
  | 4 => some (field m.lastCmd 0 ||| flagBit m.lastCmdValid 8 ||| flagBit m.expect 9)
  | 5 => some (lo m.guardListen)
  | 6 => some (hi m.guardListen)
  | _ => none

/-- CAND_INFO (R147, 41_candidate_bank.md R258). -/
def candInfo (c : Row) (b : BankRow) : Word :=
  field c.tech.code 0 ||| field c.dir.code 2 ||| field c.coding.code 4 ||| flagBit c.pol 6
    ||| field c.framing.code 8 ||| flagBit b.valid 12 ||| flagBit b.active 13 ||| field c.rate 16

/-- The word k of a candidate row (R147, R258). -/
def candWord (c : Row) (b : BankRow) (k : BitVec 3) : Word :=
  match k.toNat with
  | 0 => candInfo c b
  | 1 => b.p
  | 2 => lo b.pfx
  | 3 => b.h
  | 4 => b.q
  | 5 => b.e
  | 6 => b.tau
  | _ => b.weight

/-- XP, the expected end of the next symbol as a clock: `(EXP_FX + 128) >> 8`, in unbounded
integers (10_state.md R38, 00_scope.md R9; log 6). -/
def SearchState.xp (ss : SearchState) : Nat := (ss.expFx.toNat + 128) >>> 8

/-- SS_STAGE (R148, 42_symbol_correlator.md R340). -/
def SearchState.stageWord (ss : SearchState) : Word :=
  field ss.stage.code 0 ||| field ss.miss 2 ||| flagBit ss.found 4 ||| flagBit ss.pulseOpen 5
    ||| flagBit ss.bestFound 6 ||| flagBit ss.hold 7 ||| field ss.peakPat.code 8
    ||| field ss.bestPat.code 12 ||| field ss.sym1Pat.code 16

/-- The word k of a SearchState (R148, R340). -/
def SearchState.word (ss : SearchState) (k : BitVec 4) : Option Word :=
  match k.toNat with
  | 0 => some ss.stageWord
  | 1 => some (lo ss.start)
  | 2 => some (lo ss.stop)
  | 3 => some (lo ss.peakTime)
  | 4 => some ss.peakValue
  | 5 => some ss.pulseWidth
  | 6 => some ss.thresh
  | 7 => some (BitVec.ofNat 32 ss.xp)
  | 8 => some (lo ss.expFx)
  | 9 => some (hi ss.expFx)
  | 10 => some (lo ss.bestTime)
  | 11 => some ss.bestValue
  | 12 => some ss.corr0
  | 13 => some ss.corr1
  | 14 => some (lo ss.symEnd)
  | _ => none

/-- ASM_STATUS (R149, 44_frame_assembler.md R421). -/
def FrameState.statusWord (f : FrameState) : Word :=
  field f.asmStage.code 0 ||| field f.tech.code 4 ||| field f.dir.code 6
    ||| field (rowField f.cand) 8 ||| field f.rate 16

/-- STREAM_STATUS (R149, R421). -/
def StreamState.statusWord (t : StreamState) : Word :=
  field t.phase.code 0 ||| field t.bitcnt 4 ||| field t.data 8 ||| flagBit t.parErr 16
    ||| field t.prevPat.code 20 ||| field t.lastbits 24

/-- The stream and frame word k (R149, R421). -/
def State.asmWord (s : State) (k : BitVec 3) : Word :=
  match k.toNat with
  | 0 => s.fs.statusWord
  | 1 => s.st.statusWord
  | 2 => field s.st.bytes 0
  | 3 => s.st.run
  | 4 => lo s.fs.frameStart
  | 5 => hi s.fs.frameStart
  | 6 => lo s.fs.lastEnd
  | _ => hi s.fs.lastEnd

/-- OUT_STATUS of a record (R150, 45_host_interface.md R500). -/
def Record.statusWord (r : Record) : Word :=
  field r.kind.code 0 ||| field r.tech.code 2 ||| field r.dir.code 4 ||| field (rowField r.cand) 8
    ||| flagBit r.parErr 12 ||| flagBit r.crcErr 13 ||| field r.lastbits 16

/-- The word k of the head record, RPTR being word 8 (R150, R500). -/
def Record.word (r : Record) (rptr : BitVec 16) (k : BitVec 4) : Option Word :=
  match k.toNat with
  | 0 => some r.statusWord
  | 1 => some (field r.len 0)
  | 2 => some (lo r.t0)
  | 3 => some (hi r.t0)
  | 4 => some (lo r.t1)
  | 5 => some (hi r.t1)
  | 6 => some (field r.cmd 0 ||| flagBit r.cmdValid 8)
  | 7 => some (field r.rate 0)
  | 8 => some (field rptr 0)
  | _ => none

/-- The history that HIST_CHAN selects (R141, R484). -/
def Histories.channel (h : Histories) (chan : BitVec 2) : Memory 32 :=
  if chan = 0#2 then h.hdata
  else if chan = 1#2 then h.hdev
  else if chan = 2#2 then h.hedge
  else h.hdeep

/-- HIST_DATA: the entry that HIST_INDEX names modulo HIST_SIZE (R484). -/
def State.histWord (s : State) : Word :=
  Memory.read (s.hist.channel s.histChan)
    (s.histIndex &&& BitVec.ofNat 32 (s.params.histSize - 1)).toNat

end Sys2Proof.Machine
end

