-- ==== Sys2Proof/Machine/CandidateBank.lean ====
section
/-! DEFINITION. RD_CAND (41_candidate_bank.md R258). -/

namespace Sys2Proof.Machine

/-- RD_CAND: read one word of a candidate row (R258). -/
def execRdCand (c : BitVec 4) (k : BitVec 3) (s : State) : Result :=
  .next (s.completeRead ((Row.ofCode c).map fun r => candWord r (s.bank.get r) k))

end Sys2Proof.Machine
end

