-- ==== Sys2Proof/Machine/HostInterface.lean ====
section
/-! DEFINITION. The host interface instructions (45_host_interface.md). -/

namespace Sys2Proof.Machine

/-! ## Identification, status, errors, interrupt enables, clock -/

/-- RD_ID: "NFCD" (R451). -/
def execRdId (s : State) : Result := .next (s.answer 0x4E464344#32)

/-- RD_VERSION (R452). -/
def execRdVersion (s : State) : Result := .next (s.answer 1#32)

/-- RD_STATUS (R453). -/
def execRdStatus (s : State) : Result := .next (s.answer s.statusWord)

/-- RD_ERR: reading does not clear (R454). -/
def execRdErr (s : State) : Result := .next (s.answer (field s.err 0))

/-- WR_ERR: write one to clear (R455). -/
def execWrErr (d : Word) (s : State) : Result :=
  .next { s with err := s.err &&& ~~~(d.extractLsb' 0 8) }.quiet

/-- RD_IRQ_EN (R456). -/
def execRdIrqEn (s : State) : Result := .next (s.answer (field s.irqEn 0))

/-- WR_IRQ_EN (R457). -/
def execWrIrqEn (d : Word) (s : State) : Result :=
  .next { s with irqEn := d.extractLsb' 0 2 }.quiet

/-- RD_IRQ_STATUS (R458). -/
def execRdIrqStatus (s : State) : Result := .next (s.answer s.irqStatusWord)

/-- RD_CLOCK: one half of the sample clock (R459). -/
def execRdClock (k : BitVec 1) (s : State) : Result :=
  .next (s.answer (if k = 0#1 then lo s.sig.clock else hi s.sig.clock))

/-! ## Configuration and parameters -/

/-- RD_CFG (R460). -/
def execRdCfg (k : BitVec 4) (s : State) : Result := .next (s.completeRead (s.cfg.read k))

/-- WR_CFG: run-locked; an accepted write clears CONFIGURED (R461, 20_memory.md R109). -/
def execWrCfg (k : BitVec 4) (d : Word) (s : State) : Result :=
  match s.cfg.write k d with
  | none => .next (s.malformed true)
  | some g =>
    if s.run then .next (s.raise .cfgLocked).quiet
    else .next { s with cfg := g, configured := false }.quiet

/-- RD_TCFG (R462). -/
def execRdTcfg (x : BitVec 2) (k : BitVec 3) (s : State) : Result :=
  .next (s.completeRead ((Tech.ofCode x).bind fun y => (s.tcfg.get y).read k))

/-- The technologies' ProtocolStatus with element k of selector x written; `none` for a selector
that names no register (30_encoding.md R145). -/
def writeTcfg (g : PerTech TechCfg) (x : BitVec 2) (k : BitVec 3) (d : Word) :
    Option (PerTech TechCfg) :=
  (Tech.ofCode x).bind fun y => ((g.get y).write k d).map fun z => g.set y z

/-- WR_TCFG: run-locked; an accepted write clears CONFIGURED (R463, 20_memory.md R109). -/
def execWrTcfg (x : BitVec 2) (k : BitVec 3) (d : Word) (s : State) : Result :=
  match writeTcfg s.tcfg x k d with
  | none => .next (s.malformed true)
  | some g =>
    if s.run then .next (s.raise .cfgLocked).quiet
    else .next { s with tcfg := g, configured := false }.quiet

/-- RD_PARAM (R464). -/
def execRdParam (k : BitVec 2) (s : State) : Result := .next (s.answer (paramWord s.params k))

/-! ## Commands -/

/-- CMD_RESERVED: sets ERR.CMD and nothing else, whatever its code (R470). -/
def execCmdReserved (_ : Word) (s : State) : Result := .next (s.raise .cmd).quiet

/-- CMD_RESET: the full reset (R471). -/
def execCmdReset (s : State) : Result := .next s.fullReset.quiet

/-- CMD_START: refused before a successful CMD_CONFIGURE (R472). -/
def execCmdStart (s : State) : Result :=
  if !s.configured then .next (s.raise .cmd).quiet else .next { s with run := true }.quiet

/-- CMD_STOP (R473). -/
def execCmdStop (s : State) : Result := .next { s with run := false }.quiet

/-- CMD_RESET_CAPTURE: refused while running (R474). -/
def execCmdResetCapture (s : State) : Result :=
  if s.run then .next (s.raise .cmd).quiet else .next s.captureReset.quiet

/-- CMD_OUT_REWIND (R475). -/
def execCmdOutRewind (s : State) : Result := .next { s with rptr := 0#16 }.quiet

/-- `0.0 ≤ v ≤ 1.0` in IEEE comparisons: a NaN fails, -0.0 passes (R476). -/
def inUnit (v : F32) : Bool := f32ge v f32zero && f32ge f32one v

/-- Finite and not negative (R476). -/
def finiteNonneg (v : F32) : Bool := isfinite v && f32ge v f32zero

/-- The frame size of every technology is within 1 .. BUF_CAP (R476). -/
def frameSizesLegal (p : Params) (g : PerTech TechCfg) : Bool :=
  Tech.all.all fun x =>
    decide (1 ≤ (g.get x).maxFrameSize.toNat) && decide ((g.get x).maxFrameSize.toNat ≤ p.bufCap)

/-- The legality of the configuration at CMD_CONFIGURE (R476), but for the bank. -/
def configLegal (p : Params) (g : CondCfg) (t : PerTech TechCfg) : Bool :=
  inUnit g.alphaAvgLive && inUnit g.alphaDevLive && inUnit g.alphaAvgSil && inUnit g.alphaDevSil
    && inUnit g.alphaEdgeFast && inUnit g.alphaEdgeSlow && inUnit g.hystFactor
    && finiteNonneg g.thrK && finiteNonneg g.minDepth
    && decide (1 ≤ g.sampleRate.toNat) && frameSizesLegal p t

/-- CMD_CONFIGURE: check the configuration, compute the bank, reset the capture (R476). -/
def execCmdConfigure (s : State) : Result :=
  let bank := bankOf s.params s.cfg
  if s.run then .next (s.raise .cmd).quiet
  else if !(configLegal s.params s.cfg s.tcfg && someActive bank) then
    .next (s.raise .config).quiet
  else .next ({ s with bank := bank, configured := true }.captureReset).quiet

/-- CMD_OUT_POP: remove the head record (R477). -/
def execCmdOutPop (s : State) : Result :=
  match s.queue with
  | [] => .next (s.raise .out).quiet
  | _ :: rest => .next { s with queue := rest, rptr := 0#16 }.quiet

/-! ## Debug view and history port -/

/-- RD_DBG (R481). -/
def execRdDbg (k : BitVec 4) (s : State) : Result := .next (s.completeRead (s.dbgWord k))

/-- RD_HIST_CHAN (R482). -/
def execRdHistChan (s : State) : Result := .next (s.answer (field s.histChan 0))

/-- WR_HIST_CHAN (R483). -/
def execWrHistChan (d : Word) (s : State) : Result :=
  .next { s with histChan := d.extractLsb' 0 2 }.quiet

/-- RD_HIST_DATA (R484). -/
def execRdHistData (s : State) : Result := .next (s.answer s.histWord)

/-- RD_HIST_INDEX: all 32 bits as written (R485). -/
def execRdHistIndex (s : State) : Result := .next (s.answer s.histIndex)

/-- WR_HIST_INDEX (R486). -/
def execWrHistIndex (d : Word) (s : State) : Result := .next { s with histIndex := d }.quiet

/-! ## Output queue -/

/-- A read of an output register that has nothing to return: ERR.OUT and 0 (R500, R501). -/
def State.outEmpty (s : State) : State := (s.raise .out).answer 0#32

/-- RD_OUT: one field word of the head record (R500). -/
def execRdOut (k : BitVec 4) (s : State) : Result :=
  if 8 < k.toNat then .next (s.malformed false)
  else
    match s.queue with
    | [] => .next s.outEmpty
    | r :: _ => .next (s.completeRead (r.word s.rptr k))

/-- RD_OUT_DATA: the next byte of the head record (R501). -/
def execRdOutData (s : State) : Result :=
  match s.queue with
  | [] => .next s.outEmpty
  | r :: _ =>
    match r.bytes[s.rptr.toNat]? with
    | none => .next s.outEmpty
    | some v => .next ({ s with rptr := s.rptr + 1#16 }.answer (field v 0))

end Sys2Proof.Machine
end

