-- ==== Sys2Proof/Machine/SymbolCorrelator.lean ====
section
/-! DEFINITION. The symbol correlator bank: correlation functions, the per-candidate state machine and
lock arbitration (42_symbol_correlator.md), and RD_SS. -/

namespace Sys2Proof.Machine

/-- A symbol, a value passed within one tick (10_state.md R39): it covers the clocks (START, END]. -/
structure Symbol where
  pat : Pattern
  start : Clock
  stop : Clock
  next : Word
  cand : Row
deriving DecidableEq, Repr

/-- The mode of an evaluation (R281). -/
inductive EvalMode
  | acquire | track
deriving DecidableEq, Repr

/-- The result of an evaluation (R281). -/
structure Evaluation where
  valid : Bool
  pat : Pattern
  strength : F32
  s0 : F32
  s1 : F32
deriving DecidableEq, Repr

/-- What one correlator step hands to the later phases of its tick: a lock request (R293), the
symbols it appends to the delivery list (R297), and whether it lost sync (R298). -/
structure RowOut where
  lockreq : Option Symbol
  deliver : List Symbol
  eof : Bool
deriving DecidableEq, Repr

/-- Nothing handed on. -/
def RowOut.quiet : RowOut := ⟨none, [], false⟩

/-! ## Correlation functions -/

/-- `deep(k)`, the HDEEP entry of clock k (40_signal_conditioner.md R220). -/
def State.deep (s : State) (k : Clock) : F32 := Memory.read s.hist.hdeep (ringIndex s.params k)

/-- The fold of `deepsum` from clock `k` on, over `n` clocks, oldest first (R220). -/
def State.deepsumFrom (s : State) : Nat → Clock → F32 → F32
  | 0, _, acc => acc
  | n + 1, k, acc => State.deepsumFrom s n (k + 1#64) (f32add acc (f32abs (s.deep k)))

/-- `deepsum(k0, n)` (R220). -/
def State.deepsum (s : State) (k0 : Clock) (n : Nat) : F32 := s.deepsumFrom n k0 f32zero

/-- The HALF function, for MILLER and MANCHESTER (R282). -/
def State.evalHalf (s : State) (b : BankRow) (t : Clock) (thr : F32) : Evaluation :=
  let h := b.h.toNat
  let s0 := s.deepsum (t - BitVec.ofNat 64 (2 * h) + 1#64) h
  let s1 := s.deepsum (t - BitVec.ofNat 64 h + 1#64) h
  let strength := f32abs (f32sub s0 s1)
  { valid := f32ge strength (f32mul thr (f32ofNat h)) && f32gt strength f32zero
    pat := if f32gt s0 s1 then .first else .second
    strength := strength
    s0 := s0
    s1 := s1 }

/-- The NRZ function (R283). -/
def State.evalNrz (s : State) (b : BankRow) (t : Clock) (thr : F32) (mode : EvalMode) :
    Evaluation :=
  let p := b.p.toNat
  let s0 := s.deepsum (t - BitVec.ofNat 64 p + 1#64) p
  let s1 := f32mul thr (f32ofNat p)
  let modulated := f32ge s0 s1 && f32gt s0 f32zero
  { valid := match mode with
      | .acquire => modulated
      | .track => true
    pat := if modulated then .nrzZero else .nrzOne
    strength := s0
    s0 := s0
    s1 := s1 }

/-- The slot sums o[0..3] of the PPM4 function (R284). -/
structure SlotSums where
  o0 : F32
  o1 : F32
  o2 : F32
  o3 : F32
deriving DecidableEq, Repr

/-- o[j]. -/
def SlotSums.get (o : SlotSums) (j : BitVec 2) : F32 :=
  if j = 0#2 then o.o0 else if j = 1#2 then o.o1 else if j = 2#2 then o.o2 else o.o3

/-- The sum of slot j, over the (2j+1)-th eighth of the window (R284). -/
def State.slotSum (s : State) (b : BankRow) (t : Clock) (j : Nat) : F32 :=
  let e := b.e.toNat
  s.deepsum (t - BitVec.ofNat 64 (8 * e) + 1#64 + BitVec.ofNat 64 ((2 * j + 1) * e)) e

/-- `best` of R284: the j with o[j] > o[i] for i < j and o[j] ≥ o[i] for i > j. No j has that where a
slot sum is a NaN: then the slot is a free value (log 2). -/
def SlotSums.best (o : SlotSums) : BitVec 2 :=
  if f32ge o.o0 o.o1 && f32ge o.o0 o.o2 && f32ge o.o0 o.o3 then 0#2
  else if f32gt o.o1 o.o0 && f32ge o.o1 o.o2 && f32ge o.o1 o.o3 then 1#2
  else if f32gt o.o2 o.o0 && f32gt o.o2 o.o1 && f32ge o.o2 o.o3 then 2#2
  else if f32gt o.o3 o.o0 && f32gt o.o3 o.o1 && f32gt o.o3 o.o2 then 3#2
  else Config.ppmBest o.o0 o.o1 o.o2 o.o3

/-- The greater of two values that are not NaN. -/
def f32max (a b : F32) : F32 := if f32gt b a then b else a

/-- The greatest of three values; a free value where one is a NaN (log 2). -/
def greatest3 (a b c : F32) : F32 :=
  if isNaN a || isNaN b || isNaN c then Config.ppmSecond a b c else f32max (f32max a b) c

/-- `second` of R284: the greatest o[i] over i ≠ best. -/
def SlotSums.second (o : SlotSums) (best : BitVec 2) : F32 :=
  if best = 0#2 then greatest3 o.o1 o.o2 o.o3
  else if best = 1#2 then greatest3 o.o0 o.o2 o.o3
  else if best = 2#2 then greatest3 o.o0 o.o1 o.o3
  else greatest3 o.o0 o.o1 o.o2

/-- The PPM4 function (R284). -/
def State.evalPpm4 (s : State) (b : BankRow) (t : Clock) (thr : F32) : Evaluation :=
  let o : SlotSums := ⟨s.slotSum b t 0, s.slotSum b t 1, s.slotSum b t 2, s.slotSum b t 3⟩
  let best := o.best
  let s0 := o.get best
  let s1 := o.second best
  let strength := f32sub s0 s1
  { valid := f32ge strength (f32mul thr (f32ofNat b.e.toNat)) && f32gt strength f32zero
    pat := Pattern.ppm best
    strength := strength
    s0 := s0
    s1 := s1 }

/-- `eval(c, t, thr, mode)`, but for its writes of CORR0 and CORR1 (R281). -/
def State.eval (s : State) (c : Row) (t : Clock) (thr : F32) (mode : EvalMode) : Evaluation :=
  let b := s.bank.get c
  match c.coding with
  | .miller => s.evalHalf b t thr
  | .manchester => s.evalHalf b t thr
  | .nrz => s.evalNrz b t thr mode
  | .ppm4 => s.evalPpm4 b t thr

/-- An evaluation writes CORR0 and CORR1 (R281). -/
def SearchState.withCorr (ss : SearchState) (r : Evaluation) : SearchState :=
  { ss with corr0 := r.s0, corr1 := r.s1 }

/-! ## IDLE and SEARCHING -/

/-- `guard(c)` (R287): the guard deadline of the row's technology and direction. -/
def State.guard (s : State) (c : Row) : Clock :=
  match c.dir with
  | .poll => (s.tim.get c.tech).guardPoll
  | .listen => (s.tim.get c.tech).guardListen

/-- The trigger condition of R287, on this tick's values. -/
def State.triggers (s : State) (c : Row) (lockedAny : Bool) : Bool :=
  let b := s.bank.get c
  b.active && !lockedAny && decide ((s.guard c).toNat ≤ s.sig.clock.toNat)
    && decide (b.p.toNat ≤ s.sig.clock.toNat) && f32gt (f32abs s.sig.depth) s.sig.threshold

/-- The IDLE step (R287). -/
def State.idleStep (s : State) (c : Row) (lockedAny : Bool) (ss : SearchState) : SearchState :=
  if s.triggers c lockedAny then
    { ss with
      stage := .searching
      start := s.sig.clock
      stop := s.sig.clock + (s.bank.get c).p.setWidth 64
      thresh := s.sig.threshold
      found := false
      peakValue := f32zero
      peakTime := s.sig.clock
      peakPat := .none
      pulseWidth := 1#32
      pulseOpen := true }
  else ss

/-- `better_peak` (R288): among equal strengths, the HALF codings keep the latest. -/
def betterPeak (coding : Coding) (v peak : F32) : Bool :=
  match coding with
  | .miller => f32gt v peak || f32eq v peak
  | .manchester => f32gt v peak || f32eq v peak
  | .nrz => f32gt v peak
  | .ppm4 => f32gt v peak

/-- The measurement of the trigger pulse (R288). -/
def State.pulseStep (s : State) (ss : SearchState) : SearchState :=
  if ss.pulseOpen then
    (if f32gt (f32abs s.sig.depth) ss.thresh then { ss with pulseWidth := satinc ss.pulseWidth }
     else { ss with pulseOpen := false })
  else ss

/-- The peak kept by a search after an evaluation (R288). -/
def SearchState.keepPeak (ss : SearchState) (coding : Coding) (t : Clock) (r : Evaluation) :
    SearchState :=
  if r.valid && (!ss.found || betterPeak coding r.strength ss.peakValue) then
    { ss with found := true, peakValue := r.strength, peakTime := t, peakPat := r.pat }
  else ss

/-- `search_decide` (R289). -/
def SearchState.searchDecide (ss : SearchState) (b : BankRow) : SearchState :=
  if ss.found then
    { ss with
      stage := .synchronizing
      sym1Pat := ss.peakPat
      sym1Start := ss.peakTime - b.p.setWidth 64
      sym1End := ss.peakTime
      symEnd := ss.peakTime
      expFx := ss.peakTime * 256#64 + b.pfx
      bestFound := false
      miss := 0#2
      hold := false }
  else SearchState.reset

/-- The SEARCHING step (R288, R289). -/
def State.searchStep (s : State) (c : Row) (ss : SearchState) : SearchState :=
  let t := s.sig.clock
  let ss := s.pulseStep ss
  let r := s.eval c t ss.thresh .acquire
  let ss := (ss.withCorr r).keepPeak c.coding t r
  if t = ss.stop then ss.searchDecide (s.bank.get c) else ss

/-! ## Tracking -/

/-- The distance of two clock values in unbounded integers. -/
def clockDist (a b : Nat) : Nat := (a - b) + (b - a)

/-- The best evaluation kept by a tracking window around X (R290). -/
def SearchState.keepBest (ss : SearchState) (x : Nat) (t : Clock) (r : Evaluation) : SearchState :=
  if r.valid && (!ss.bestFound || f32gt r.strength ss.bestValue
      || (f32eq r.strength ss.bestValue
          && decide (clockDist t.toNat x < clockDist ss.bestTime.toNat x))) then
    { ss with bestFound := true, bestTime := t, bestValue := r.strength, bestPat := r.pat }
  else ss

/-- `decide(c)` (R291): whether a symbol was found, the symbol, and the state that expects the next
one. `x` is the expected end. -/
def SearchState.windowDecide (ss : SearchState) (c : Row) (b : BankRow) (x : Nat) :
    SearchState × Bool × Symbol :=
  let endT := if ss.bestFound then ss.bestTime else BitVec.ofNat 64 x
  let pat := if ss.bestFound then ss.bestPat else .none
  let fx := if ss.bestFound && decide (ss.bestTime.toNat ≠ x) then ss.bestTime * 256#64 else ss.expFx
  let ss' : SearchState :=
    { ss with
      expFx := fx + b.pfx
      symEnd := endT
      bestFound := false
      bestTime := 0#64
      bestValue := f32zero
      bestPat := .none }
  (ss', ss.bestFound,
    { pat := pat
      start := ss.symEnd
      stop := endT
      next := BitVec.ofNat 32 ss'.xp - endT.setWidth 32
      cand := c })

/-- `track(c)` (R290): `none` while waiting, else the window decision. -/
def State.track (s : State) (c : Row) (mode : EvalMode) (ss : SearchState) :
    SearchState × Option (Bool × Symbol) :=
  let b := s.bank.get c
  let t := s.sig.clock
  let x := ss.xp
  let tau := b.tau.toNat
  if t.toNat + tau < x then (ss, none)
  else
    let r := s.eval c t ss.thresh mode
    let ss := (ss.withCorr r).keepBest x t r
    if t.toNat = x + tau then
      let d := ss.windowDecide c b x
      (d.1, some d.2)
    else (ss, none)

/-- The SYNCHRONIZING step (R293). -/
def State.syncStep (s : State) (c : Row) (ss : SearchState) : SearchState × RowOut :=
  match s.track c .acquire ss with
  | (ss', none) => (ss', .quiet)
  | (ss', some (true, sym2)) => (ss', { RowOut.quiet with lockreq := some sym2 })
  | (_, some (false, _)) => (SearchState.reset, .quiet)

/-- The held NONE symbol (R297). -/
def SearchState.heldSymbol (ss : SearchState) (c : Row) : Symbol :=
  ⟨.none, ss.holdStart, ss.holdEnd, ss.holdNext, c⟩

/-- A found symbol in LOCKED: the held NONE, if any, is delivered before it (R297). -/
def SearchState.lockedFound (ss : SearchState) (c : Row) (sym : Symbol) : SearchState × RowOut :=
  ({ ss with hold := false, miss := 0#2 },
    { RowOut.quiet with deliver := (if ss.hold then [ss.heldSymbol c] else []) ++ [sym] })

/-- A missed period in LOCKED: the first is held, the second is the sync loss (R297, R298). -/
def SearchState.lockedMissed (ss : SearchState) (sym : Symbol) : SearchState × RowOut :=
  if ss.miss + 1#2 = 1#2 then
    ({ ss with
       miss := ss.miss + 1#2
       hold := true
       holdStart := sym.start
       holdEnd := sym.stop
       holdNext := sym.next }, .quiet)
  else (SearchState.reset, { RowOut.quiet with eof := true })

/-- The LOCKED step (R297). -/
def State.lockedStep (s : State) (c : Row) (ss : SearchState) : SearchState × RowOut :=
  match s.track c .track ss with
  | (ss', none) => (ss', .quiet)
  | (ss', some (true, sym)) => ss'.lockedFound c sym
  | (ss', some (false, sym)) => ss'.lockedMissed sym

/-! ## Tick phases 4 and 5 -/

/-- The correlator step of one candidate, dispatched on its stage (R286). -/
def State.rowStep (s : State) (lockedAny : Bool) (c : Row) : SearchState × RowOut :=
  let ss := s.ss.get c
  match ss.stage with
  | .idle => (s.idleStep c lockedAny ss, .quiet)
  | .searching => (s.searchStep c ss, .quiet)
  | .synchronizing => s.syncStep c ss
  | .locked => s.lockedStep c ss

/-- Some candidate is LOCKED (R287, R136). -/
def State.lockedAny (s : State) : Bool := Row.all.any s.isLocked

/-- Tick phase 4 (R200, R286): the candidates share nothing but the values of this tick, so each
steps from the state before the phase. -/
def State.correlators (s : State) : State × PerRow RowOut :=
  let out := PerRow.build (s.rowStep s.lockedAny)
  ({ s with ss := PerRow.build fun c => (out.get c).1 }, PerRow.build fun c => (out.get c).2)

/-- The symbols of a phase's steps in row order. -/
def delivered (out : PerRow RowOut) : List Symbol := Row.all.flatMap fun c => (out.get c).deliver

/-- `eof_pending` after phase 4 (R298). -/
def eofPending (out : PerRow RowOut) : Option Row := Row.all.find? fun c => (out.get c).eof

/-- The lock requests of phase 4 in row order (R293). -/
def lockRequests (out : PerRow RowOut) : List (Row × Symbol) :=
  Row.all.filterMap fun c => (out.get c).lockreq.map fun sym => (c, sym)

/-- `score(c)`, the search peak per summed sample (R295). -/
def State.score (s : State) (c : Row) : F32 :=
  f32div (s.ss.get c).peakValue (f32ofNat (s.bank.get c).l.toNat)

/-- The winner among requests in row order: the greatest score, the lowest row among equals (R295). -/
def State.winner (s : State) : Row × Symbol → List (Row × Symbol) → Row × Symbol
  | best, [] => best
  | best, r :: rest =>
    State.winner s (if f32gt (s.score r.1) (s.score best.1) then r else best) rest

/-- The first symbol of a detection, emitted at its lock (R294). -/
def SearchState.firstSymbol (ss : SearchState) (b : BankRow) (c : Row) : Symbol :=
  ⟨ss.sym1Pat, ss.sym1Start, ss.sym1End, b.p, c⟩

/-- The winner becomes LOCKED and every other candidate is cleared (R295). -/
def State.lockRow (s : State) (w : Row) : State :=
  { s with
    ss := PerRow.build fun c =>
      if c = w then { s.ss.get w with stage := .locked, miss := 0#2, hold := false }
      else SearchState.reset }

/-! ## RD_SS -/

/-- RD_SS: read one word of a candidate's SearchState (R340). -/
def execRdSs (c k : BitVec 4) (s : State) : Result :=
  .next (s.completeRead ((Row.ofCode c).bind fun r => (s.ss.get r).word k))

end Sys2Proof.Machine
end

