-- ==== Sys2Proof/Machine/StreamDecoder.lean ====
section
/-! DEFINITION. The stream decoder: symbols to bits, bits to bytes, parity and framing
(43_stream_decoder.md). -/

namespace Sys2Proof.Machine

/-- The decoder's answer (R350). -/
inductive Answer
  | cont | complete | abandon
deriving DecidableEq, Repr

/-- What the decoder reads besides the stream state: the frame's row and the limits. -/
structure DecoderEnv where
  row : Row
  bufCap : Nat
  maxFrame : Word
  idleLimit : Word
deriving DecidableEq, Repr

/-- The byte limit of a frame (R362). -/
def DecoderEnv.limit (g : DecoderEnv) : Nat := min g.bufCap g.maxFrame.toNat

/-- The stream state at a frame start (R351). -/
def StreamState.frameStart (framing : Framing) : StreamState :=
  match framing with
  | .parityOdd => { StreamState.reset with phase := .sofStrip }
  | .plain => { StreamState.reset with phase := .sofStrip }
  | .startStop => { StreamState.reset with phase := .bSofZeros }

/-- The symbol-to-bit map: the bits in reception order and whether the symbol is a coding error
(R354). -/
def symbolBits (coding : Coding) (pol : Bool) (pat : Pattern) : List Bool × Bool :=
  match coding, pat with
  | .miller, .second => ([true], false)
  | .miller, .first => ([false], false)
  | .miller, .none => ([false], false)
  | .manchester, .first => ([pol], false)
  | .manchester, .second => ([!pol], false)
  | .manchester, .none => ([false], true)
  | .nrz, .nrzZero => ([false], false)
  | .nrz, .nrzOne => ([true], false)
  | .ppm4, .ppm0 => ([false, false], false)
  | .ppm4, .ppm1 => ([true, false], false)
  | .ppm4, .ppm2 => ([false, true], false)
  | .ppm4, .ppm3 => ([true, true], false)
  | .ppm4, .none => ([false, false], true)
  | _, _ => ([false], true)

/-- Storing a byte (R362). Beyond BUF_CAP there is no entry to write (log 7). -/
def StreamState.store (t : StreamState) (g : DecoderEnv) (v : Byte) : StreamState × Answer :=
  if t.bytes.toNat = g.limit then (t, .abandon)
  else
    ({ t with
       buf := if t.bytes.toNat < g.bufCap then Memory.write t.buf t.bytes.toNat v else t.buf
       bytes := t.bytes + 1#16 }, .cont)

/-- The partial byte with bit b at place BITCNT, and one bit more (R357, R361). -/
def StreamState.addBit (t : StreamState) (b : Bool) : StreamState :=
  { t with
    data := t.data ||| ((BitVec.ofBool b).setWidth 8 <<< t.bitcnt.toNat)
    bitcnt := t.bitcnt + 1#4 }

/-- The number of one bits of a byte (00_scope.md R9). -/
def popcount (v : Byte) : Nat := (List.range 8).countP v.getLsbD

/-- The odd parity bit a byte expects: 1 - (popcount mod 2) (R358). -/
def expectedParity (v : Byte) : Bool := decide (popcount v % 2 = 0)

/-- A byte is stored and the accumulator cleared (R357, R358). -/
def StreamState.storeAndClear (t : StreamState) (g : DecoderEnv) : StreamState × Answer :=
  let r := t.store g t.data
  ({ r.1 with data := 0#8, bitcnt := 0#4 }, r.2)

/-- The parity bit (R358): the byte is kept either way. -/
def StreamState.parityBit (t : StreamState) (g : DecoderEnv) (b : Bool) : StreamState × Answer :=
  StreamState.storeAndClear { t with parErr := t.parErr || (b != expectedParity t.data) } g

/-- One bit of a PARITY_ODD frame (R357, R358). -/
def StreamState.bitParityOdd (t : StreamState) (g : DecoderEnv) (b : Bool) :
    StreamState × Answer :=
  if t.bitcnt = 8#4 then t.parityBit g b else (t.addBit b, .cont)

/-- One bit of a PLAIN frame (R357). -/
def StreamState.bitPlain (t : StreamState) (g : DecoderEnv) (b : Bool) : StreamState × Answer :=
  let t := t.addBit b
  if t.bitcnt = 8#4 then t.storeAndClear g else (t, .cont)

/-- One bit of a START_STOP character (R361). -/
def StreamState.charBit (t : StreamState) (g : DecoderEnv) (b : Bool) : StreamState × Answer :=
  if t.bitcnt.toNat < 8 then (t.addBit b, .cont)
  else if !b && t.data = 0#8 then (t, .complete)
  else
    let r := StreamState.store { t with parErr := t.parErr || !b } g t.data
    ({ r.1 with data := 0#8, bitcnt := 0#4, run := 0#32, phase := .bWaitStart }, r.2)

/-- A run of equal bits goes on; one longer than B_IDLE_LIMIT ends the frame (R360). -/
def StreamState.runOn (t : StreamState) (g : DecoderEnv) : StreamState × Answer :=
  let run := satinc t.run
  ({ t with run := run }, if g.idleLimit.toNat < run.toNat then .complete else .cont)

/-- One bit of a START_STOP frame (R360, R361). SOF_STRIP and DATA are no phases of this framing
(R351; log 7). -/
def StreamState.bitStartStop (t : StreamState) (g : DecoderEnv) (b : Bool) :
    StreamState × Answer :=
  match t.phase with
  | .bSofZeros =>
    if b then ({ t with phase := .bSofOnes, run := 1#32 }, .cont) else t.runOn g
  | .bSofOnes =>
    if b then t.runOn g else ({ t with phase := .bChar, data := 0#8, bitcnt := 0#4 }, .cont)
  | .bWaitStart =>
    if b then t.runOn g else ({ t with phase := .bChar, data := 0#8, bitcnt := 0#4 }, .cont)
  | .bChar => t.charBit g b
  | .sofStrip => (t, .cont)
  | .data => (t, .cont)

/-- `bit(b)`, by the framing of the row (R357, R360). -/
def StreamState.bit (t : StreamState) (g : DecoderEnv) (b : Bool) : StreamState × Answer :=
  match g.row.framing with
  | .parityOdd => t.bitParityOdd g b
  | .plain => t.bitPlain g b
  | .startStop => t.bitStartStop g b

/-- The bits of a symbol in order; an answer other than CONTINUE drops the rest (R353). -/
def StreamState.bits (t : StreamState) (g : DecoderEnv) : List Bool → StreamState × Answer
  | [] => (t, .cont)
  | b :: rest =>
    match t.bit g b with
    | (t', .cont) => StreamState.bits t' g rest
    | (t', .complete) => (t', .complete)
    | (t', .abandon) => (t', .abandon)

/-- `accumulate(sym)` (R353). -/
def StreamState.accumulate (t : StreamState) (g : DecoderEnv) (sym : Symbol) :
    StreamState × Answer :=
  if t.phase = .sofStrip then ({ t with phase := .data, prevPat := sym.pat }, .cont)
  else
    let m := symbolBits g.row.coding g.row.pol sym.pat
    let r := StreamState.bits { t with parErr := t.parErr || m.2 } g m.1
    ({ r.1 with prevPat := sym.pat }, r.2)

/-- The bits of a final partial byte: one pending bit, or an eighth, is the end-of-communication
logic 0 and is dropped (R364). -/
def StreamState.flushBits (t : StreamState) : BitVec 4 :=
  let k := if t.phase = .sofStrip then 0#4 else t.bitcnt
  if k = 1#4 || k = 8#4 then k - 1#4 else k

/-- The flush of a PARITY_ODD frame (R364). -/
def StreamState.flushParityOdd (t : StreamState) (g : DecoderEnv) : StreamState × Answer :=
  let k := t.flushBits
  if 1 ≤ k.toNat then
    StreamState.store { t with lastbits := k } g (t.data &&& ((1#8 <<< k.toNat) - 1#8))
  else ({ t with lastbits := 8#4 }, .cont)

/-- `flush()` (R364). -/
def StreamState.flush (t : StreamState) (g : DecoderEnv) : StreamState × Answer :=
  match g.row.framing with
  | .parityOdd => t.flushParityOdd g
  | .startStop => ({ t with lastbits := 8#4 }, .cont)
  | .plain => ({ t with lastbits := 8#4 }, .cont)

end Sys2Proof.Machine
end

