-- ==== Sys2Proof/Machine/FrameAssembler.lean ====
section
/-! DEFINITION. The frame assembler: frame boundaries, guard and waiting deadlines, output records
(44_frame_assembler.md), and RD_TSTAT and RD_ASM. -/

namespace Sys2Proof.Machine

/-- `clear ST; clear FS` (10_state.md R40, R41). -/
def State.clearFrame (s : State) : State :=
  { s with st := StreamState.reset, fs := FrameState.reset }

/-- `clear SS[FS.F_CAND]` (R401); with no frame there is no row to clear (log 7). -/
def State.clearFrameRow (s : State) : State :=
  match s.fs.cand with
  | some c => { s with ss := s.ss.set c SearchState.reset }
  | none => s

/-- What the decoder reads for the frame of row `c` (43_stream_decoder.md R360, R362). -/
def State.decoderEnv (s : State) (c : Row) : DecoderEnv :=
  { row := c
    bufCap := s.params.bufCap
    maxFrame := (s.tcfg.get c.tech).maxFrameSize
    idleLimit := s.cfg.bIdleLimit }

/-- `frame_start(w)` (R400). -/
def State.frameStart (s : State) (w : Row) : State :=
  { s with
    fs :=
      { asmStage := .accumulating
        cand := some w
        tech := w.tech
        dir := w.dir
        rate := w.rate
        frameStart := (s.ss.get w).sym1Start
        lastEnd := (s.ss.get w).sym1Start }
    st := StreamState.frameStart w.framing }

/-- The bytes of the frame, BUF[0 .. LEN-1] (R403). -/
def StreamState.frameBytes (t : StreamState) : List Byte :=
  (List.range t.bytes.toNat).map (Memory.read t.buf)

/-- The FRAME record of the frame in progress, with the last command held before it (R403, R411).
CRC_ERR is 0: the block computes no CRC (R404). -/
def State.frameRecord (s : State) : Record :=
  let m := s.tim.get s.fs.tech
  { kind := .frame
    tech := s.fs.tech
    dir := s.fs.dir
    cand := s.fs.cand
    rate := s.fs.rate
    parErr := s.st.parErr
    crcErr := false
    lastbits := s.st.lastbits
    bytes := s.st.frameBytes
    t0 := s.fs.frameStart
    t1 := s.fs.lastEnd
    cmd := m.lastCmd
    cmdValid := m.lastCmdValid }

/-- The ABANDONED record of the frame in progress at clock t (R414). -/
def State.abandonedRecord (s : State) (t : Clock) : Record :=
  let m := s.tim.get s.fs.tech
  { kind := .abandoned
    tech := s.fs.tech
    dir := s.fs.dir
    cand := s.fs.cand
    rate := s.fs.rate
    parErr := false
    crcErr := false
    lastbits := 0#4
    bytes := []
    t0 := s.fs.frameStart
    t1 := t
    cmd := m.lastCmd
    cmdValid := m.lastCmdValid }

/-- The TIMEOUT record of technology x at clock t (R410). -/
def State.timeoutRecord (s : State) (x : Tech) (t : Clock) : Record :=
  let m := s.tim.get x
  { kind := .timeout
    tech := x
    dir := .listen
    cand := none
    rate := 0#16
    parErr := false
    crcErr := false
    lastbits := 0#4
    bytes := []
    t0 := m.waitEnd
    t1 := t
    cmd := m.lastCmd
    cmdValid := m.lastCmdValid }

/-- The timing state after a poll frame (R405, R411). -/
def Timing.pollDone (m : Timing) (g : TechCfg) (fs : FrameState) (firstByte : Byte) : Timing :=
  let armed := g.frameWaitingTime ≠ 0#32
  { guardPoll := fs.frameStart + g.requestGuardTime.setWidth 64
    guardListen := fs.lastEnd + g.frameGuardTime.setWidth 64
    waitEnd := if armed then fs.lastEnd + g.frameWaitingTime.setWidth 64 else m.waitEnd
    expect := decide armed
    lastCmd := firstByte
    lastCmdValid := true }

/-- `poll_done(x)` (R405). -/
def State.pollDone (s : State) (x : Tech) : State :=
  { s with
    tim := s.tim.set x
      ((s.tim.get x).pollDone (s.tcfg.get x) s.fs (Memory.read s.st.buf 0)) }

/-- The response of x is no longer expected (R406, R409, R414). -/
def State.unexpect (s : State) (x : Tech) : State :=
  { s with tim := s.tim.set x { s.tim.get x with expect := false } }

/-- `listen_done(x)` (R406). -/
def State.listenDone (s : State) (x : Tech) : State := s.unexpect x

/-- `complete()` (R403). -/
def State.complete (s : State) : State :=
  let x := s.fs.tech
  let s1 := s.push s.frameRecord
  let s2 := match s.fs.dir with
    | .poll => s1.pollDone x
    | .listen => s1.listenDone x
  s2.clearFrame

/-- `abandon()` at clock t (R414). -/
def State.abandon (s : State) (t : Clock) : State :=
  let x := s.fs.tech
  let s1 := s.push (s.abandonedRecord t)
  let s2 := match s.fs.dir with
    | .poll => s1
    | .listen => s1.unexpect x
  s2.clearFrame

/-- `end_frame()` at clock t (R402); with no frame there is nothing to flush (log 7). -/
def State.endFrame (s : State) (t : Clock) : State :=
  match s.fs.cand with
  | none => s.clearFrame
  | some c =>
    let r := s.st.flush (s.decoderEnv c)
    let s1 : State := { s with st := r.1 }
    match r.2 with
    | .abandon => s1.abandon t
    | .cont => if 1 ≤ r.1.bytes.toNat then s1.complete else s1.clearFrame
    | .complete => if 1 ≤ r.1.bytes.toNat then s1.complete else s1.clearFrame

/-- Delivery of one symbol: LAST_END, then the decoder (R401). -/
def State.deliverOne (s : State) (c : Row) (sym : Symbol) : State × Answer :=
  let r := s.st.accumulate (s.decoderEnv c) sym
  ({ s with st := r.1, fs := { s.fs with lastEnd := sym.stop } }, r.2)

/-- Symbol delivery (tick phase 6, R401): the state and the `eof_pending` that phase 7 sees. With no
frame no symbol is delivered (log 7). -/
def State.deliver (s : State) (eof : Option Row) : List Symbol → State × Option Row
  | [] => (s, eof)
  | sym :: rest =>
    match s.fs.cand with
    | none => (s, eof)
    | some c =>
      match s.deliverOne c sym with
      | (s', .cont) => State.deliver s' eof rest
      | (s', .complete) => (s'.clearFrameRow.endFrame s'.sig.clock, none)
      | (s', .abandon) => (s'.clearFrameRow.abandon s'.sig.clock, none)

/-- Tick phase 7 (R402). -/
def State.correlatorEof (s : State) (eof : Option Row) : State :=
  if eof.isSome && decide (s.fs.asmStage = .accumulating) then s.endFrame s.sig.clock else s

/-- Every row of technology x is IDLE (R409). -/
def State.techIdle (s : State) (x : Tech) : Bool :=
  Row.all.all fun c => decide (c.tech ≠ x) || decide ((s.ss.get c).stage = .idle)

/-- The timeout condition of technology x (R409). -/
def State.timedOut (s : State) (x : Tech) : Bool :=
  (s.tim.get x).expect && decide ((s.tim.get x).waitEnd.toNat ≤ s.sig.clock.toNat)
    && !(decide (s.fs.asmStage = .accumulating) && decide (s.fs.tech = x)) && s.techIdle x

/-- The timeout check of technology x (R409). -/
def State.timeoutCheck (s : State) (x : Tech) : State :=
  if s.timedOut x then (s.push (s.timeoutRecord x s.sig.clock)).unexpect x else s

/-- The start-up guard of every technology (R408). -/
def State.startupGuard (s : State) : State :=
  { s with
    tim := PerTech.build fun x =>
      { s.tim.get x with
        guardPoll := (s.tcfg.get x).startupGuardTime.setWidth 64
        guardListen := (s.tcfg.get x).startupGuardTime.setWidth 64 } }

/-- RD_TSTAT: read one word of a technology's timing state (R420). -/
def execRdTstat (x : BitVec 2) (k : BitVec 3) (s : State) : Result :=
  .next (s.completeRead ((Tech.ofCode x).bind fun y => (s.tim.get y).word k))

/-- RD_ASM: read one word of the stream and frame state (R421). -/
def execRdAsm (k : BitVec 3) (s : State) : Result := .next (s.answer (s.asmWord k))

end Sys2Proof.Machine
end

