-- ==== Sys2Proof/Machine/SignalConditioner.lean ====
section
/-! DEFINITION. The signal conditioner, the tick and the three sample instructions
(40_signal_conditioner.md). -/

namespace Sys2Proof.Machine

/-! ## The conditioner (tick phase 2) -/

/-- The hysteresis test (R208). -/
def isLive (a0 hyst m : F32) : Bool := f32gt m (f32mul a0 hyst)

/-- One exponential average: `old + alpha * (x - old)` (R209, R212). -/
def expAverage (alpha old x : F32) : F32 := f32add old (f32mul alpha (f32sub x old))

/-- The mean/deviation update with one weight pair (R209); the deviation is averaged towards |d|. -/
def SignalState.update (g : SignalState) (alphaA alphaD m : F32) : SignalState :=
  { g with
    average := expAverage alphaA g.average m
    deviation := expAverage alphaD g.deviation (f32abs (f32sub m g.average)) }

/-- Weight-pair selection and the silence counter (R210, R211). -/
def SignalState.envelope (g : SignalState) (cfg : CondCfg) (m : F32) : SignalState :=
  if isLive g.average cfg.hystFactor m then
    SignalState.update { g with silence := 0#32 } cfg.alphaAvgLive cfg.alphaDevLive m
  else
    let count := satinc g.silence
    let g := { g with silence := count }
    if cfg.silenceLimit.toNat < count.toNat then g.update cfg.alphaAvgSil cfg.alphaDevSil m else g

/-- The edge averagers (R212). -/
def SignalState.edges (g : SignalState) (cfg : CondCfg) (m : F32) : SignalState :=
  { g with
    edgeFast := expAverage cfg.alphaEdgeFast g.edgeFast m
    edgeSlow := expAverage cfg.alphaEdgeSlow g.edgeSlow m }

/-- The edge indicator (R213). -/
def SignalState.edge (g : SignalState) : F32 := f32sub g.edgeFast g.edgeSlow

/-- The modulation depth of a sample against the average (R214). -/
def depthOf (a1 m : F32) : F32 :=
  if f32gt a1 f32zero then f32div (f32sub a1 m) a1 else f32zero

/-- The search threshold (R215). -/
def thresholdOf (cfg : CondCfg) (a1 v1 : F32) : F32 :=
  if f32gt a1 f32zero then fmaxfloor (f32mul cfg.thrK (f32div v1 a1)) cfg.minDepth
  else cfg.minDepth

/-- The signal state after the conditioner (R206 to R215); the clock does not move here. -/
def SignalState.condition (g : SignalState) (cfg : CondCfg) (m : F32) : SignalState :=
  let g := ({ g with value := m }.envelope cfg m).edges cfg m
  { g with depth := depthOf g.average m, threshold := thresholdOf cfg g.average g.deviation }

/-- The history writes of one tick, all at the entry of its clock (R216 to R219, R221). -/
def Histories.record (h : Histories) (j : Nat) (g : SignalState) : Histories :=
  { hdata := Memory.write h.hdata j g.value
    hdev := Memory.write h.hdev j g.deviation
    hedge := Memory.write h.hedge j g.edge
    hdeep := Memory.write h.hdeep j g.depth }

/-- Tick phase 2: the conditioner with magnitude m (R206 to R221). -/
def State.conditioner (s : State) (m : F32) : State :=
  let g := s.sig.condition s.cfg m
  { s with sig := g, hist := s.hist.record (ringIndex s.params s.sig.clock) g }

/-! ## The tick -/

/-- Tick phase 1: the start-up guard, at clock 0 only (R200, R408). -/
def State.startupPhase (s : State) : State := if s.sig.clock = 0#64 then s.startupGuard else s

/-- Tick phase 3: the timeout checks for A, B and V in this order (R200, R409). -/
def State.timeouts (s : State) : State :=
  ((s.timeoutCheck .a).timeoutCheck .b).timeoutCheck .v

/-- Tick phase 5: lock arbitration (R295). The state and the delivery list with the symbols of the
lock (R294) after those of phase 4. -/
def State.arbitrate (s : State) (out : PerRow RowOut) : State × List Symbol :=
  match lockRequests out with
  | [] => (s, delivered out)
  | r :: rest =>
    let w := s.winner r rest
    (((s.lockRow w.1).frameStart w.1),
      delivered out ++ [(s.ss.get w.1).firstSymbol (s.bank.get w.1) w.1, w.2])

/-- Tick phase 8: the clock advances by one, modulo 2^64 (R222). -/
def State.advanceClock (s : State) : State :=
  { s with sig := { s.sig with clock := s.sig.clock + 1#64 } }

/-- Tick phases 1 to 3: start-up guard, conditioner, timeouts (R200). -/
def State.tickFront (s : State) (m : F32) : State := (s.startupPhase.conditioner m).timeouts

/-- Tick phases 4 to 7: correlators, arbitration, delivery, correlator end-of-frame (R200). -/
def State.tickBack (s : State) : State :=
  let ph4 := s.correlators
  let ph5 := ph4.1.arbitrate ph4.2
  let ph6 := ph5.1.deliver (eofPending ph4.2) ph5.2
  ph6.1.correlatorEof ph6.2

/-- The tick of an accepted sample of magnitude m (R200). -/
def State.tick (s : State) (m : F32) : State := (s.tickFront m).tickBack.advanceClock

/-! ## Sample instructions -/

/-- The magnitude of an IQ pair (R203, R206). -/
def iqMagnitude (i q : F32) : F32 := f32sqrt (f32add (f32mul i i) (f32mul q q))

/-- WR_SAMPLE_REAL: write a real sample and perform a tick (R201, R205). -/
def execWrSampleReal (x : Word) (s : State) : Result :=
  if !s.ready then .next (s.raise .notReady).quiet
  else if !isfinite x then .next (s.raise .nonfinite).quiet
  else .next (s.tick (f32abs x)).quiet

/-- WR_SAMPLE_I: latch the in-phase component (R202). -/
def execWrSampleI (i : Word) (s : State) : Result :=
  .next { s with iLatch := i, iValid := true }.quiet

/-- WR_SAMPLE_Q: complete an IQ sample and perform a tick (R203, R205). -/
def execWrSampleQ (q : Word) (s : State) : Result :=
  let i := s.iLatch
  let m := iqMagnitude i q
  let s1 : State := { s with iValid := false }
  if !s.ready then .next (s1.raise .notReady).quiet
  else if !s.iValid then .next (s1.raise .iqSeq).quiet
  else if !(isfinite i && isfinite q && isfinite m) then .next (s1.raise .nonfinite).quiet
  else .next (s1.tick m).quiet

end Sys2Proof.Machine
end

