-- ==== Sys2Proof/Machine/Dispatch.lean ====
section
/-! DEFINITION. One arm per instruction: each calls its meaning. -/

namespace Sys2Proof.Machine

def exec (i : Instr) (s : State) : Host.Outcome State Fault Refusal :=
  match i with
  | .rdId => Sys2Proof.Machine.execRdId s
  | .rdVersion => Sys2Proof.Machine.execRdVersion s
  | .cmdReset => Sys2Proof.Machine.execCmdReset s
  | .cmdConfigure => Sys2Proof.Machine.execCmdConfigure s
  | .cmdStart => Sys2Proof.Machine.execCmdStart s
  | .cmdStop => Sys2Proof.Machine.execCmdStop s
  | .cmdResetCapture => Sys2Proof.Machine.execCmdResetCapture s
  | .cmdOutPop => Sys2Proof.Machine.execCmdOutPop s
  | .cmdOutRewind => Sys2Proof.Machine.execCmdOutRewind s
  | .cmdReserved d => Sys2Proof.Machine.execCmdReserved d s
  | .rdStatus => Sys2Proof.Machine.execRdStatus s
  | .rdErr => Sys2Proof.Machine.execRdErr s
  | .wrErr d => Sys2Proof.Machine.execWrErr d s
  | .rdIrqEn => Sys2Proof.Machine.execRdIrqEn s
  | .wrIrqEn d => Sys2Proof.Machine.execWrIrqEn d s
  | .rdIrqStatus => Sys2Proof.Machine.execRdIrqStatus s
  | .wrSampleReal d => Sys2Proof.Machine.execWrSampleReal d s
  | .wrSampleI d => Sys2Proof.Machine.execWrSampleI d s
  | .wrSampleQ d => Sys2Proof.Machine.execWrSampleQ d s
  | .rdClock k => Sys2Proof.Machine.execRdClock k s
  | .rdCfg k => Sys2Proof.Machine.execRdCfg k s
  | .wrCfg k d => Sys2Proof.Machine.execWrCfg k d s
  | .rdDbg k => Sys2Proof.Machine.execRdDbg k s
  | .rdHistChan => Sys2Proof.Machine.execRdHistChan s
  | .wrHistChan d => Sys2Proof.Machine.execWrHistChan d s
  | .rdHistIndex => Sys2Proof.Machine.execRdHistIndex s
  | .wrHistIndex d => Sys2Proof.Machine.execWrHistIndex d s
  | .rdHistData => Sys2Proof.Machine.execRdHistData s
  | .rdParam k => Sys2Proof.Machine.execRdParam k s
  | .rdTcfg x k => Sys2Proof.Machine.execRdTcfg x k s
  | .wrTcfg x k d => Sys2Proof.Machine.execWrTcfg x k d s
  | .rdTstat x k => Sys2Proof.Machine.execRdTstat x k s
  | .rdCand c k => Sys2Proof.Machine.execRdCand c k s
  | .rdSs c k => Sys2Proof.Machine.execRdSs c k s
  | .rdAsm k => Sys2Proof.Machine.execRdAsm k s
  | .rdOut k => Sys2Proof.Machine.execRdOut k s
  | .rdOutData => Sys2Proof.Machine.execRdOutData s

end Sys2Proof.Machine
end

