-- ==== Sys2Proof/Machine/Inputs.lean ====
section
/-! DEFINITION. How what comes from outside reaches the step: the next input, and the placing of a
transaction word where the step takes its next one (20_memory.md R107; log 3). -/

namespace Sys2Proof.Machine

/-- The transaction word of an opcode-table row's bits: one 64-bit word, bits above `nbits` 0 (30_encoding.md
R130). -/
def tableTxn (nbits w : Nat) : Txn := BitVec.ofNat 64 (w % 2 ^ nbits)

/-- The state in which `i` is the next input. -/
def State.offer (s : State) (i : HostInput) : State := { s with inputs := i :: s.inputs }

end Sys2Proof.Machine
end

