-- ==== Sys2Proof/Machine/Step.lean ====
section
/-! DEFINITION. One step of the machine: the next input from outside, in whole. -/

namespace Sys2Proof.Machine

/-- What one transaction word does: the decoded instruction's meaning, or the malformed transaction
(30_encoding.md R132, 20_memory.md R104). -/
def stepTxn (w : Txn) (s : State) : Host.Outcome State Fault Refusal :=
  match decode w with
  | .ok i => exec i s
  | .error _ => .next (s.malformed (txnWrite w))

/-- One step: the oldest input is taken and has its whole effect (20_memory.md R107). The reset input
acts as CMD_RESET does (70_reset_and_hazards.md R580; log 11). With no input the block waits
(00_scope.md R2, 70_reset_and_hazards.md R583). -/
def step (s : State) : Host.Outcome State Fault Refusal :=
  match s.takeInput with
  | none => .next s
  | some (.txn w, s') => stepTxn w s'
  | some (.reset, s') => .next s'.fullReset

/-- The state with this transaction as the next input (log 3). -/
def State.withFetchWord (s : State) (nbits w : Nat) : State := s.offer (.txn (tableTxn nbits w))

end Sys2Proof.Machine
end

