-- ==== Sys2Proof/Safety.lean ====
section
/-! DEFINITION. The terms claims are stated in: which offsets name a register, and the invariants of a
safe run. The block has no traps (60_exceptions.md R537): a run is safe when these invariants hold in
each of its states. -/

namespace Sys2Proof.Machine

/-- The byte offsets from `first` to `last`, multiples of 4. -/
def inBlock (first last off : Nat) : Bool := decide (first ≤ off) && decide (off ≤ last)

/-- The offsets (multiples of 4) that name a register allowing the direction: the tables of
30_encoding.md R135 and R139 to R150, written as byte offsets. -/
def mapped (write : Bool) (off : Nat) : Bool :=
  decide (off % 4 = 0) &&
  (decide (off ∈ [0x010, 0x014, 0x0C0, 0x0C4])
    || inBlock 0x040 0x070 off
    || (inBlock 0x100 0x15C off && decide (off % 0x20 ≤ 0x10))
    || (if write then decide (off ∈ [0x008, 0x020, 0x024, 0x028])
        else
          decide (off ∈ [0x000, 0x004, 0x00C, 0x018, 0x030, 0x034, 0x0C8, 0x940])
            || inBlock 0x080 0x0A0 off
            || inBlock 0x0E0 0x0EC off
            || (inBlock 0x180 0x1DC off && decide (off % 0x20 ≤ 0x18))
            || inBlock 0x200 0x35C off
            || (inBlock 0x400 0x6BC off && decide (off % 0x40 ≤ 0x38))
            || inBlock 0x800 0x81C off
            || inBlock 0x900 0x920 off))

/-- "When one is LOCKED, every other candidate is IDLE" (42_symbol_correlator.md R296); so at most one
candidate is LOCKED. -/
def State.Exclusive (s : State) : Prop :=
  ∀ c d : Row, (s.ss.get c).stage = .locked → d ≠ c → (s.ss.get d).stage = .idle

/-- The frame in progress is the LOCKED candidate's (44_frame_assembler.md R400, R402): F_CAND is the
LOCKED row, ASM_STAGE is ACCUMULATING iff there is one, and the frame carries the row's ROM fields. -/
def State.FrameMatches (s : State) : Prop :=
  (∀ c : Row, s.fs.cand = some c ↔ (s.ss.get c).stage = .locked)
    ∧ (s.fs.asmStage = .accumulating ↔ s.fs.cand.isSome = true)
    ∧ (∀ c : Row, s.fs.cand = some c → s.fs.tech = c.tech ∧ s.fs.dir = c.dir ∧ s.fs.rate = c.rate)

/-- Between frames the stream and frame state are clear (44_frame_assembler.md R421). -/
def State.BetweenFrames (s : State) : Prop :=
  s.fs.asmStage = .waitingStart → s.fs = FrameState.reset ∧ s.st = StreamState.reset

/-- A candidate that is IDLE holds no partial state (70_reset_and_hazards.md R582). -/
def State.IdleClear (s : State) : Prop :=
  ∀ c : Row, (s.ss.get c).stage = .idle → s.ss.get c = SearchState.reset

/-- The queue never holds more than OUTQ_DEPTH records (44_frame_assembler.md R413). -/
def State.QueueWithin (s : State) : Prop := s.queue.length ≤ s.params.outqDepth

/-- RPTR points into the head record, or is 0 with an empty queue (10_state.md R43,
45_host_interface.md R475, R501). -/
def State.RptrWithin (s : State) : Prop :=
  match s.queue with
  | [] => s.rptr = 0#16
  | r :: _ => s.rptr.toNat ≤ r.bytes.length

/-- The storages are in canonical form and hold no entry beyond their size (10_state.md R36, R40). -/
def State.StoragesWf (s : State) : Prop :=
  (∀ chan : BitVec 2, Memory.wf (s.hist.channel chan) = true
      ∧ Memory.within s.params.histSize (s.hist.channel chan) = true)
    ∧ Memory.wf s.st.buf = true ∧ Memory.within s.params.bufCap s.st.buf = true

/-- A frame holds at most min(BUF_CAP, MAX_FRAME_SIZE) bytes (43_stream_decoder.md R363), as long as
the configuration it runs under stands; no record holds more than BUF_CAP. -/
def State.BytesWithin (s : State) : Prop :=
  (s.configured = true → ∀ c : Row, s.fs.cand = some c →
      s.st.bytes.toNat ≤ min s.params.bufCap (s.tcfg.get c.tech).maxFrameSize.toNat)
    ∧ ∀ r ∈ s.queue, r.bytes.length ≤ s.params.bufCap

/-- The block runs only with a legal configuration, whose bank is the one in use (20_memory.md R109,
45_host_interface.md R472, R476). -/
def State.ConfigInUse (s : State) : Prop :=
  (s.run = true → s.configured = true)
    ∧ (s.configured = true →
        s.bank = bankOf s.params s.cfg ∧ configLegal s.params s.cfg s.tcfg = true
          ∧ someActive s.bank = true)

/-- A state of a safe run: all of the above. -/
def State.Safe (s : State) : Prop :=
  s.Exclusive ∧ s.FrameMatches ∧ s.BetweenFrames ∧ s.IdleClear ∧ s.QueueWithin ∧ s.RptrWithin
    ∧ s.StoragesWf ∧ s.BytesWithin ∧ s.ConfigInUse

/-! ## Terms of the statements -/

/-- A read of this offset, whatever its DATA (30_encoding.md R131), is the instruction `i`. -/
def ReadsAs (off : BitVec 12) (i : Instr) : Prop :=
  ∀ d : Word, decode (mkTxn false off d) = .ok i

/-- A write of DATA to this offset is the instruction `f DATA`. -/
def WritesAs (off : BitVec 12) (f : Word → Instr) : Prop :=
  ∀ d : Word, decode (mkTxn true off d) = .ok (f d)

/-- The offset 4 k after `base` (30_encoding.md R139 to R150). -/
def wordAt {n : Nat} (base : BitVec 12) (k : BitVec n) : BitVec 12 := base + 4#12 * k.setWidth 12

/-- Everything `capture_reset()` sets holds its reset value (70_reset_and_hazards.md R581). -/
def State.CaptureClear (t : State) : Prop :=
  t.sig = ⟨0#64, 0#32, 0#32, 0#32, 0#32, 0#32, 0#32, 0#32, 0#32⟩
    ∧ (∀ (chan : BitVec 2) (a : Nat), Memory.read (t.hist.channel chan) a = 0#32)
    ∧ (∀ c : Row, t.ss.get c =
        ⟨.idle, 0#64, 0#64, 0#32, false, 0#32, 0#64, .none, 0#32, false, .none, 0#64, 0#64, 0#64,
          0#64, false, 0#64, 0#32, .none, 0#2, false, 0#64, 0#64, 0#32, 0#32, 0#32⟩)
    ∧ t.st = ⟨.sofStrip, 0#8, 0#4, 0#32, 0#16, [], false, .none, 0#4⟩
    ∧ t.fs = ⟨.waitingStart, none, .a, .poll, 0#16, 0#64, 0#64⟩
    ∧ (∀ x : Tech, t.tim.get x = ⟨0#64, 0#64, 0#64, false, 0#8, false⟩)
    ∧ t.queue = [] ∧ t.rptr = 0#16 ∧ t.iLatch = 0#32 ∧ t.iValid = false

/-- Every element holds its reset value, STATUS reads 0x00000F00 and the interrupt output is low
(70_reset_and_hazards.md R580). -/
def State.ResetValues (t : State) : Prop :=
  t.run = false ∧ t.configured = false ∧ t.err = 0x00#8 ∧ t.irqEn = 0b00#2
    ∧ t.histChan = 0#2 ∧ t.histIndex = 0#32
    ∧ t.cfg =
        ⟨0x3D800000#32, 0x3D800000#32, 0x3E800000#32, 0x3E800000#32, 0x3F000000#32,
          0x3E000000#32, 0x3F733333#32, 32#32, 0x40800000#32, 0x3D4CCCCD#32, 10000000#32,
          0x7FF#11, 16#32⟩
    ∧ (∀ x : Tech, t.tcfg.get x = ⟨256#32, 0#32, 0#32, 0#32, 0#32⟩)
    ∧ (∀ c : Row, t.bank.get c =
        ⟨0#64, 0#32, 0#32, 0#32, 0#32, 0#32, 0#32, 0#32, false, false, 0#32⟩)
    ∧ t.CaptureClear
    ∧ exec .rdStatus t = .next { t with response := some 0x00000F00#32 } ∧ t.irq = false

/-- The configuration CMD_CONFIGURE accepts (45_host_interface.md R476), but for the bank. -/
def State.LegalConfig (s : State) : Prop :=
  (∀ v ∈ [s.cfg.alphaAvgLive, s.cfg.alphaDevLive, s.cfg.alphaAvgSil, s.cfg.alphaDevSil,
        s.cfg.alphaEdgeFast, s.cfg.alphaEdgeSlow, s.cfg.hystFactor],
      f32ge v 0x00000000#32 = true ∧ f32ge 0x3F800000#32 v = true)
    ∧ isfinite s.cfg.thrK = true ∧ f32ge s.cfg.thrK 0x00000000#32 = true
    ∧ isfinite s.cfg.minDepth = true ∧ f32ge s.cfg.minDepth 0x00000000#32 = true
    ∧ 1 ≤ s.cfg.sampleRate.toNat
    ∧ ∀ x : Tech, 1 ≤ (s.tcfg.get x).maxFrameSize.toNat
        ∧ (s.tcfg.get x).maxFrameSize.toNat ≤ s.params.bufCap

/-- The average and the deviation after one update with a weight pair (40_signal_conditioner.md
R209). -/
def AveragesBy (alphaA alphaD m : F32) (g g' : SignalState) : Prop :=
  g'.average = f32add g.average (f32mul alphaA (f32sub m g.average))
    ∧ g'.deviation =
        f32add g.deviation (f32mul alphaD (f32sub (f32abs (f32sub m g.average)) g.deviation))

/-- The signal state after an accepted sample of magnitude `m` (40_signal_conditioner.md R206 to R215,
R222). -/
def Conditions (cfg : CondCfg) (m : F32) (g g' : SignalState) : Prop :=
  g'.clock = g.clock + 1#64
    ∧ g'.value = m
    ∧ (f32gt m (f32mul g.average cfg.hystFactor) = true →
        g'.silence = 0#32 ∧ AveragesBy cfg.alphaAvgLive cfg.alphaDevLive m g g')
    ∧ (f32gt m (f32mul g.average cfg.hystFactor) = false →
        g'.silence.toNat = min (g.silence.toNat + 1) (2 ^ 32 - 1)
          ∧ (cfg.silenceLimit.toNat < g'.silence.toNat →
              AveragesBy cfg.alphaAvgSil cfg.alphaDevSil m g g')
          ∧ (g'.silence.toNat ≤ cfg.silenceLimit.toNat →
              g'.average = g.average ∧ g'.deviation = g.deviation))
    ∧ g'.edgeFast = f32add g.edgeFast (f32mul cfg.alphaEdgeFast (f32sub m g.edgeFast))
    ∧ g'.edgeSlow = f32add g.edgeSlow (f32mul cfg.alphaEdgeSlow (f32sub m g.edgeSlow))
    ∧ g'.depth =
        (if f32gt g'.average 0x00000000#32 then f32div (f32sub g'.average m) g'.average
          else 0x00000000#32)
    ∧ g'.threshold =
        (if f32gt g'.average 0x00000000#32 then
            fmaxfloor (f32mul cfg.thrK (f32div g'.deviation g'.average)) cfg.minDepth
          else cfg.minDepth)

/-- The histories after a tick: the entry of the tick's clock holds the sample's values, and every other
entry is as it was (20_memory.md R113, 40_signal_conditioner.md R216 to R219). -/
def HistoriesAdvance (s t : State) : Prop :=
  ∀ (chan : BitVec 2) (a : Nat),
    Memory.read (t.hist.channel chan) a =
      if a = s.sig.clock.toNat % s.params.histSize then
        (if chan = 0#2 then t.sig.value
          else if chan = 1#2 then t.sig.deviation
          else if chan = 2#2 then f32sub t.sig.edgeFast t.sig.edgeSlow
          else t.sig.depth)
      else Memory.read (s.hist.channel chan) a

/-- What no tick changes: the host's registers but I_VALID, the configuration, the bank and the read
pointer (40_signal_conditioner.md R200, R201; 44_frame_assembler.md R413). -/
def TickKeeps (s t : State) : Prop :=
  t.params = s.params ∧ t.run = s.run ∧ t.configured = s.configured ∧ t.err = s.err
    ∧ t.irqEn = s.irqEn ∧ t.iLatch = s.iLatch ∧ t.histChan = s.histChan
    ∧ t.histIndex = s.histIndex ∧ t.cfg = s.cfg ∧ t.tcfg = s.tcfg ∧ t.bank = s.bank
    ∧ t.rptr = s.rptr ∧ t.inputs = s.inputs

/-- `t`, where it is finite, is a binary32 value nearest to the exact value `num / den` (in units of
2^-149), and between two nearest ones the one with an even last bit; it is infinite exactly where the
exact value is beyond the largest finite value by half a unit in its last place or more; and it has the
sign of an exact value that is not 0, infinite or rounded to 0 as it may be (00_scope.md R11). -/
def NearestTo (t : F32) (num : Int) (den : Nat) : Prop :=
  (isfinite t = true ↔ num.natAbs < (2 ^ 25 - 1) * 2 ^ 252 * den)
    ∧ isNaN t = false
    ∧ (num ≠ 0 → f32sign t = decide (num < 0))
    ∧ (isfinite t = true → ∀ c : F32, isfinite c = true →
        (f32units t * den - num).natAbs ≤ (f32units c * den - num).natAbs
          ∧ ((f32units t * den - num).natAbs = (f32units c * den - num).natAbs →
              f32units t = f32units c ∨ f32frac t % 2 = 0))

/-- `t` is a binary32 value nearest to the square root of `num` (both in units of 2^-149), and between
two nearest ones the one with an even last bit: for every value `c` the midpoint of `t` and `c` is on
`c`'s side of the root, a comparison of squares (00_scope.md R11). -/
def NearestRoot (t : F32) (num : Nat) : Prop :=
  isfinite t = true ∧ f32sign t = false
    ∧ ∀ c : F32, isfinite c = true → f32sign c = false →
        (f32units t < f32units c → 4 * (num : Int) ≤ (f32units t + f32units c) ^ 2)
          ∧ (f32units c < f32units t → (f32units t + f32units c) ^ 2 ≤ 4 * (num : Int))
          ∧ (f32units t ≠ f32units c → (f32units t + f32units c) ^ 2 = 4 * (num : Int) →
              f32frac t % 2 = 0)

/-- The sample write `i` is accepted in the state `s`, with the magnitude `m` (40_signal_conditioner.md
R204 to R206). -/
def State.Accepts (s : State) (i : Instr) (m : F32) : Prop :=
  s.run = true ∧ s.configured = true ∧ s.queue.length + 4 ≤ s.params.outqDepth
    ∧ ((∃ x : F32, i = .wrSampleReal x ∧ isfinite x = true ∧ m = x &&& 0x7FFFFFFF#32)
        ∨ ∃ q : F32, i = .wrSampleQ q ∧ s.iValid = true ∧ isfinite s.iLatch = true
            ∧ isfinite q = true ∧ isfinite m = true
            ∧ m = f32sqrt (f32add (f32mul s.iLatch s.iLatch) (f32mul q q)))

/-- CMD_CONFIGURE succeeds in the state `s` (45_host_interface.md R476). -/
def State.Configures (s : State) : Prop :=
  s.run = false ∧ s.LegalConfig ∧ ∃ c : Row, (bankRow s.params s.cfg c).active = true

/-- The codings whose symbols are compared half against half (42_symbol_correlator.md R282). -/
def HalfCoding (coding : Coding) : Prop := coding = .miller ∨ coding = .manchester

end Sys2Proof.Machine
end

