-- ==== Sys2Proof/Certificates/Slice0/Obligations.lean ====
section
/-! DEFINITION. The statements for the provers. Each docstring names the rules of spec/ it rests on. A
statement about an instruction says the whole next state: a record update names every field that
changes, so its frame is every other field. -/

section

open Sys2Proof Sys2Proof.Machine

/-! ## Encoding -/

/-- Decoding the encoding of any instruction gives it back (30_encoding.md R130 to R150). -/
def Obligations.DecodeOfEncode : Prop :=
  ∀ i : Instr, i.wellFormed = true → decode (encode i) = .ok i

/-- A decoded instruction is well-formed, its direction and offset are those of the word, and a write
keeps the whole word; only a read's DATA is lost (30_encoding.md R131, R132). -/
def Obligations.EncodeOfDecode : Prop :=
  ∀ (w : Txn) (i : Instr), decode w = .ok i →
    i.wellFormed = true
      ∧ encode i &&& 0xFFFFFFFF00000000#64 = w &&& 0xFFFFFFFF00000000#64
      ∧ (w.getLsbD 63 = true → encode i = w)

/-- A word decodes to an instruction exactly where its reserved bits are 0 and its offset names a
register that allows the direction, as the tables of 30_encoding.md R135 to R150 list the offsets. -/
def Obligations.MappedTransactionsDecode : Prop :=
  ∀ w : Txn, (∃ i : Instr, decode w = .ok i ∧ i.isWrite = w.getLsbD 63) ↔
    (w.extractLsb' 44 19 = 0#19
      ∧ mapped (w.getLsbD 63) (w.extractLsb' 32 12).toNat = true)

/-- Words that the spec's worked examples and tables write out (45_host_interface.md R451, R452, R463,
R470, R471; 30_encoding.md R135, R147 to R150). -/
def Obligations.TableWordsDecode : Prop :=
  decode 0x0000000000000000#64 = .ok .rdId
    ∧ decode 0x0000000400000000#64 = .ok .rdVersion
    ∧ decode 0x8000000800000001#64 = .ok .cmdReset
    ∧ decode 0x8000000800000008#64 = .ok (.cmdReserved 8#32)
    ∧ decode 0x8000002040600000#64 = .ok (.wrSampleReal 0x40600000#32)
    ∧ decode 0x8000010800000064#64 = .ok (.wrTcfg 0#2 2#3 100#32)
    ∧ decode 0x000002C400000000#64 = .ok (.rdCand 6#4 1#3)
    ∧ decode 0x0000058000000000#64 = .ok (.rdSs 6#4 0#4)
    ∧ decode 0x0000019000000000#64 = .ok (.rdTstat 0#2 4#3)
    ∧ decode 0x0000080000000000#64 = .ok (.rdAsm 0#3)
    ∧ decode 0x0000094000000000#64 = .ok .rdOutData
    ∧ decode 0x0000095000000000#64 = .error .unmapped

/-! ## The step -/

/-- The oldest input, a word that decodes, is taken and its instruction has its whole effect before the
next (20_memory.md R105, R107). That the host's words wait in a list is the model's choice (log 3). -/
def Obligations.StepRunsDecodedTransaction : Prop :=
  ∀ (s : State) (w : Txn) (rest : List HostInput) (i : Instr),
    s.inputs = .txn w :: rest → decode w = .ok i → step s = exec i { s with inputs := rest }

/-- A malformed transaction sets ERR.BUS and changes nothing else, and a malformed read returns 0
(20_memory.md R104). -/
def Obligations.MalformedTransaction : Prop :=
  ∀ (s : State) (w : Txn) (rest : List HostInput), s.inputs = .txn w :: rest →
    (w.extractLsb' 44 19 ≠ 0#19 ∨ mapped (w.getLsbD 63) (w.extractLsb' 32 12).toNat = false) →
    step s = .next
      { s with
        inputs := rest
        err := s.err ||| 0x08#8
        response := if w.getLsbD 63 then none else some 0#32 }

/-- The block has no traps: every step answers a next state, whatever the state (60_exceptions.md
R537). With no input it waits, unchanged; that this is a step is the model's choice (log 3). -/
def Obligations.EveryStepCompletes : Prop :=
  (∀ s : State, ∃ t, step s = .next t) ∧ ∀ s : State, s.inputs = [] → step s = .next s

/-- CMD_RESET and the reset input, in every state, leave every element at the reset value of
70_reset_and_hazards.md R580, and the state the machine starts in holds the same; STATUS then reads
0x00000F00 and the interrupt output is low. The synthesis parameters stay; the waiting inputs are the
host's (log 3), and that the reset input comes as one of them is the model's choice (log 11). -/
def Obligations.FullReset : Prop :=
  (∀ d : Word, decode (mkTxn true 0x008#12 d) = .ok .cmdReset ↔ d = 1#32)
    ∧ (∀ s : State, ∃ t : State, exec .cmdReset s = .next t
        ∧ t.ResetValues ∧ t.params = s.params ∧ t.inputs = s.inputs)
    ∧ (∀ (s : State) (rest : List HostInput), s.inputs = .reset :: rest →
        ∃ t : State, step s = .next t ∧ t.ResetValues ∧ t.params = s.params ∧ t.inputs = rest)
    ∧ State.reset.ResetValues ∧ State.reset.params.histSize = 1024
    ∧ State.reset.params.bufCap = 512 ∧ State.reset.params.outqDepth = 8

/-- The state after reset meets every invariant stated below. -/
def Obligations.ResetIsSafe : Prop := State.reset.Safe

/-! ## Reads -/

/-- RD_ID, RD_VERSION and RD_CLOCK (45_host_interface.md R451, R452, R459). -/
def Obligations.IdVersionClockReads : Prop :=
  (ReadsAs 0x000#12 .rdId ∧ ReadsAs 0x004#12 .rdVersion
      ∧ ∀ k : BitVec 1, ReadsAs (wordAt 0x030#12 k) (.rdClock k))
    ∧ ∀ s : State,
        exec .rdId s = .next { s with response := some 0x4E464344#32 }
          ∧ exec .rdVersion s = .next { s with response := some 0x00000001#32 }
          ∧ exec (.rdClock 0#1) s = .next { s with response := some (s.sig.clock.extractLsb' 0 32) }
          ∧ exec (.rdClock 1#1) s = .next { s with response := some (s.sig.clock.extractLsb' 32 32) }

/-- RD_STATUS, field by field (45_host_interface.md R453, 30_encoding.md R136, READY as
40_signal_conditioner.md R204). LOCKED_CAND is stated where at most one candidate is LOCKED
(42_symbol_correlator.md R296); the spec has no other state. -/
def Obligations.StatusRead : Prop :=
  ReadsAs 0x00C#12 .rdStatus
    ∧ ∀ s : State, ∃ v : Word,
        exec .rdStatus s = .next { s with response := some v }
          ∧ v.getLsbD 0 = s.run
          ∧ v.getLsbD 1 = s.configured
          ∧ v.getLsbD 2 =
              (s.run && s.configured && decide (s.queue.length + 4 ≤ s.params.outqDepth))
          ∧ v.getLsbD 3 = decide (0 < s.queue.length)
          ∧ (v.getLsbD 4 = true ↔ ∃ c : Row, (s.ss.get c).stage = .locked)
          ∧ (v.getLsbD 5 = true ↔ s.fs.asmStage = .accumulating)
          ∧ v.getLsbD 6 = s.iValid
          ∧ v.getLsbD 7 = false
          ∧ (∀ c : Row, (s.ss.get c).stage = .locked →
              (∀ d : Row, (s.ss.get d).stage = .locked → d = c) → v.extractLsb' 8 4 = c.code)
          ∧ ((∀ c : Row, (s.ss.get c).stage ≠ .locked) → v.extractLsb' 8 4 = 0xF#4)
          ∧ v.extractLsb' 12 4 = 0#4
          ∧ v.extractLsb' 16 8 = BitVec.ofNat 8 s.queue.length
          ∧ v.extractLsb' 24 8 = 0#8

/-- RD_ERR, RD_IRQ_EN and RD_IRQ_STATUS, whose bit 2 is the interrupt output (45_host_interface.md
R454, R456, R458; 60_exceptions.md R533). -/
def Obligations.ErrAndInterruptReads : Prop :=
  (ReadsAs 0x010#12 .rdErr ∧ ReadsAs 0x014#12 .rdIrqEn ∧ ReadsAs 0x018#12 .rdIrqStatus)
    ∧ ∀ s : State,
        exec .rdErr s = .next { s with response := some (s.err.setWidth 32) }
          ∧ exec .rdIrqEn s = .next { s with response := some (s.irqEn.setWidth 32) }
          ∧ (s.irq = true ↔
              (0 < s.queue.length ∧ s.irqEn.getLsbD 0 = true)
                ∨ (s.err ≠ 0#8 ∧ s.irqEn.getLsbD 1 = true))
          ∧ ∃ v : Word,
              exec .rdIrqStatus s = .next { s with response := some v }
                ∧ v.getLsbD 0 = (decide (0 < s.queue.length) && s.irqEn.getLsbD 0)
                ∧ v.getLsbD 1 = (decide (s.err ≠ 0#8) && s.irqEn.getLsbD 1)
                ∧ v.getLsbD 2 = s.irq
                ∧ v.extractLsb' 3 29 = 0#29

/-- RD_CFG, RD_TCFG and RD_PARAM, element by element (45_host_interface.md R460, R462, R464). -/
def Obligations.ConfigurationReads : Prop :=
  ((∀ k : BitVec 4, k.toNat ≤ 12 → ReadsAs (wordAt 0x040#12 k) (.rdCfg k))
      ∧ (∀ (x : Tech) (k : BitVec 3), k.toNat ≤ 4 →
          ReadsAs (wordAt (0x100#12 + 0x20#12 * x.code.setWidth 12) k) (.rdTcfg x.code k))
      ∧ ∀ k : BitVec 2, ReadsAs (wordAt 0x0E0#12 k) (.rdParam k))
    ∧ (∀ s : State,
        exec (.rdCfg 0#4) s = .next { s with response := some s.cfg.alphaAvgLive }
          ∧ exec (.rdCfg 1#4) s = .next { s with response := some s.cfg.alphaDevLive }
          ∧ exec (.rdCfg 2#4) s = .next { s with response := some s.cfg.alphaAvgSil }
          ∧ exec (.rdCfg 3#4) s = .next { s with response := some s.cfg.alphaDevSil }
          ∧ exec (.rdCfg 4#4) s = .next { s with response := some s.cfg.alphaEdgeFast }
          ∧ exec (.rdCfg 5#4) s = .next { s with response := some s.cfg.alphaEdgeSlow }
          ∧ exec (.rdCfg 6#4) s = .next { s with response := some s.cfg.hystFactor }
          ∧ exec (.rdCfg 7#4) s = .next { s with response := some s.cfg.silenceLimit }
          ∧ exec (.rdCfg 8#4) s = .next { s with response := some s.cfg.thrK }
          ∧ exec (.rdCfg 9#4) s = .next { s with response := some s.cfg.minDepth }
          ∧ exec (.rdCfg 10#4) s = .next { s with response := some s.cfg.sampleRate }
          ∧ exec (.rdCfg 11#4) s =
              .next { s with response := some (s.cfg.candEnable.setWidth 32) }
          ∧ exec (.rdCfg 12#4) s = .next { s with response := some s.cfg.bIdleLimit })
    ∧ (∀ (s : State) (x : Tech),
        exec (.rdTcfg x.code 0#3) s =
            .next { s with response := some (s.tcfg.get x).maxFrameSize }
          ∧ exec (.rdTcfg x.code 1#3) s =
              .next { s with response := some (s.tcfg.get x).frameGuardTime }
          ∧ exec (.rdTcfg x.code 2#3) s =
              .next { s with response := some (s.tcfg.get x).frameWaitingTime }
          ∧ exec (.rdTcfg x.code 3#3) s =
              .next { s with response := some (s.tcfg.get x).startupGuardTime }
          ∧ exec (.rdTcfg x.code 4#3) s =
              .next { s with response := some (s.tcfg.get x).requestGuardTime })
    ∧ ∀ s : State,
        exec (.rdParam 0#2) s =
            .next { s with response := some (BitVec.ofNat 32 s.params.histSize) }
          ∧ exec (.rdParam 1#2) s =
              .next { s with response := some (BitVec.ofNat 32 s.params.bufCap) }
          ∧ exec (.rdParam 2#2) s =
              .next { s with response := some (BitVec.ofNat 32 s.params.outqDepth) }
          ∧ exec (.rdParam 3#2) s = .next { s with response := some 11#32 }

/-- RD_DBG and the history port: RD_HIST_CHAN, RD_HIST_INDEX, RD_HIST_DATA (45_host_interface.md R481,
R482, R484, R485). -/
def Obligations.DebugAndHistoryReads : Prop :=
  ((∀ k : BitVec 4, k.toNat ≤ 8 → ReadsAs (wordAt 0x080#12 k) (.rdDbg k))
      ∧ ReadsAs 0x0C0#12 .rdHistChan ∧ ReadsAs 0x0C4#12 .rdHistIndex
      ∧ ReadsAs 0x0C8#12 .rdHistData)
    ∧ ∀ s : State,
        exec (.rdDbg 0#4) s = .next { s with response := some s.sig.value }
          ∧ exec (.rdDbg 1#4) s = .next { s with response := some s.sig.average }
          ∧ exec (.rdDbg 2#4) s = .next { s with response := some s.sig.deviation }
          ∧ exec (.rdDbg 3#4) s = .next { s with response := some s.sig.edgeFast }
          ∧ exec (.rdDbg 4#4) s = .next { s with response := some s.sig.edgeSlow }
          ∧ exec (.rdDbg 5#4) s = .next { s with response := some s.sig.depth }
          ∧ exec (.rdDbg 6#4) s = .next { s with response := some s.sig.threshold }
          ∧ exec (.rdDbg 7#4) s = .next { s with response := some s.sig.silence }
          ∧ exec (.rdDbg 8#4) s = .next { s with response := some s.iLatch }
          ∧ exec .rdHistChan s = .next { s with response := some (s.histChan.setWidth 32) }
          ∧ exec .rdHistIndex s = .next { s with response := some s.histIndex }
          ∧ ∃ v : F32,
              exec .rdHistData s = .next { s with response := some v }
                ∧ (s.histChan = 0#2 →
                    v = Memory.read s.hist.hdata (s.histIndex.toNat % s.params.histSize))
                ∧ (s.histChan = 1#2 →
                    v = Memory.read s.hist.hdev (s.histIndex.toNat % s.params.histSize))
                ∧ (s.histChan = 2#2 →
                    v = Memory.read s.hist.hedge (s.histIndex.toNat % s.params.histSize))
                ∧ (s.histChan = 3#2 →
                    v = Memory.read s.hist.hdeep (s.histIndex.toNat % s.params.histSize))

/-- RD_CAND, word by word (41_candidate_bank.md R258). -/
def Obligations.CandidateReads : Prop :=
  (∀ (c : Row) (k : BitVec 3),
      ReadsAs (wordAt (0x200#12 + 0x20#12 * c.code.setWidth 12) k) (.rdCand c.code k))
    ∧ (∀ (c : BitVec 4) (k : BitVec 3) (d : Word), 10 < c.toNat →
        decode (mkTxn false (wordAt (0x200#12 + 0x20#12 * c.setWidth 12) k) d) = .error .unmapped)
    ∧ ∀ (s : State) (c : Row),
        exec (.rdCand c.code 0#3) s =
            .next { s with
              response := some <|
                (c.tech.code.setWidth 32 ||| c.dir.code.setWidth 32 <<< 2
                  ||| c.coding.code.setWidth 32 <<< 4 ||| (BitVec.ofBool c.pol).setWidth 32 <<< 6
                  ||| c.framing.code.setWidth 32 <<< 8
                  ||| (BitVec.ofBool (s.bank.get c).valid).setWidth 32 <<< 12
                  ||| (BitVec.ofBool (s.bank.get c).active).setWidth 32 <<< 13
                  ||| c.rate.setWidth 32 <<< 16) }
          ∧ exec (.rdCand c.code 1#3) s = .next { s with response := some (s.bank.get c).p }
          ∧ exec (.rdCand c.code 2#3) s =
              .next { s with response := some ((s.bank.get c).pfx.extractLsb' 0 32) }
          ∧ exec (.rdCand c.code 3#3) s = .next { s with response := some (s.bank.get c).h }
          ∧ exec (.rdCand c.code 4#3) s = .next { s with response := some (s.bank.get c).q }
          ∧ exec (.rdCand c.code 5#3) s = .next { s with response := some (s.bank.get c).e }
          ∧ exec (.rdCand c.code 6#3) s = .next { s with response := some (s.bank.get c).tau }
          ∧ exec (.rdCand c.code 7#3) s = .next { s with response := some (s.bank.get c).weight }

/-- RD_SS, word by word (42_symbol_correlator.md R340). -/
def Obligations.SearchStateReads : Prop :=
  (∀ (c : Row) (k : BitVec 4), k.toNat ≤ 14 →
      ReadsAs (wordAt (0x400#12 + 0x40#12 * c.code.setWidth 12) k) (.rdSs c.code k))
    ∧ (∀ (c k : BitVec 4) (d : Word), 10 < c.toNat ∨ k = 15#4 →
        decode (mkTxn false (wordAt (0x400#12 + 0x40#12 * c.setWidth 12) k) d) = .error .unmapped)
    ∧ ∀ (s : State) (c : Row), let e := s.ss.get c
        exec (.rdSs c.code 0#4) s =
            .next { s with
              response := some <|
                (e.stage.code.setWidth 32 ||| e.miss.setWidth 32 <<< 2
                  ||| (BitVec.ofBool e.found).setWidth 32 <<< 4
                  ||| (BitVec.ofBool e.pulseOpen).setWidth 32 <<< 5
                  ||| (BitVec.ofBool e.bestFound).setWidth 32 <<< 6
                  ||| (BitVec.ofBool e.hold).setWidth 32 <<< 7
                  ||| e.peakPat.code.setWidth 32 <<< 8 ||| e.bestPat.code.setWidth 32 <<< 12
                  ||| e.sym1Pat.code.setWidth 32 <<< 16) }
          ∧ exec (.rdSs c.code 1#4) s = .next { s with response := some (e.start.extractLsb' 0 32) }
          ∧ exec (.rdSs c.code 2#4) s = .next { s with response := some (e.stop.extractLsb' 0 32) }
          ∧ exec (.rdSs c.code 3#4) s =
              .next { s with response := some (e.peakTime.extractLsb' 0 32) }
          ∧ exec (.rdSs c.code 4#4) s = .next { s with response := some e.peakValue }
          ∧ exec (.rdSs c.code 5#4) s = .next { s with response := some e.pulseWidth }
          ∧ exec (.rdSs c.code 6#4) s = .next { s with response := some e.thresh }
          ∧ exec (.rdSs c.code 7#4) s =
              .next { s with response := some (BitVec.ofNat 32 ((e.expFx.toNat + 128) / 256)) }
          ∧ exec (.rdSs c.code 8#4) s = .next { s with response := some (e.expFx.extractLsb' 0 32) }
          ∧ exec (.rdSs c.code 9#4) s = .next { s with response := some (e.expFx.extractLsb' 32 32) }
          ∧ exec (.rdSs c.code 10#4) s =
              .next { s with response := some (e.bestTime.extractLsb' 0 32) }
          ∧ exec (.rdSs c.code 11#4) s = .next { s with response := some e.bestValue }
          ∧ exec (.rdSs c.code 12#4) s = .next { s with response := some e.corr0 }
          ∧ exec (.rdSs c.code 13#4) s = .next { s with response := some e.corr1 }
          ∧ exec (.rdSs c.code 14#4) s =
              .next { s with response := some (e.symEnd.extractLsb' 0 32) }

/-- RD_TSTAT, word by word (44_frame_assembler.md R420). -/
def Obligations.TimingReads : Prop :=
  (∀ (x : Tech) (k : BitVec 3), k.toNat ≤ 6 →
      ReadsAs (wordAt (0x180#12 + 0x20#12 * x.code.setWidth 12) k) (.rdTstat x.code k))
    ∧ (∀ (x : BitVec 2) (k : BitVec 3) (d : Word), x = 3#2 ∨ k = 7#3 →
        decode (mkTxn false (wordAt (0x180#12 + 0x20#12 * x.setWidth 12) k) d) = .error .unmapped)
    ∧ ∀ (s : State) (x : Tech), let m := s.tim.get x
        exec (.rdTstat x.code 0#3) s = .next { s with response := some (m.guardPoll.extractLsb' 0 32) }
          ∧ exec (.rdTstat x.code 1#3) s =
              .next { s with response := some (m.guardPoll.extractLsb' 32 32) }
          ∧ exec (.rdTstat x.code 2#3) s =
              .next { s with response := some (m.waitEnd.extractLsb' 0 32) }
          ∧ exec (.rdTstat x.code 3#3) s =
              .next { s with response := some (m.waitEnd.extractLsb' 32 32) }
          ∧ exec (.rdTstat x.code 4#3) s =
              .next { s with
                response := some <|
                  (m.lastCmd.setWidth 32 ||| (BitVec.ofBool m.lastCmdValid).setWidth 32 <<< 8
                    ||| (BitVec.ofBool m.expect).setWidth 32 <<< 9) }
          ∧ exec (.rdTstat x.code 5#3) s =
              .next { s with response := some (m.guardListen.extractLsb' 0 32) }
          ∧ exec (.rdTstat x.code 6#3) s =
              .next { s with response := some (m.guardListen.extractLsb' 32 32) }

/-- RD_ASM, word by word (44_frame_assembler.md R421); F_CAND reads 0xF with no frame. -/
def Obligations.StreamAndFrameReads : Prop :=
  (∀ k : BitVec 3, ReadsAs (wordAt 0x800#12 k) (.rdAsm k))
    ∧ (∀ (s : State) (cand : BitVec 4),
        ((∀ c : Row, s.fs.cand = some c → cand = c.code) ∧ (s.fs.cand = none → cand = 0xF#4)) →
        exec (.rdAsm 0#3) s =
          .next { s with
            response := some <|
              (s.fs.asmStage.code.setWidth 32 ||| s.fs.tech.code.setWidth 32 <<< 4
                ||| s.fs.dir.code.setWidth 32 <<< 6 ||| cand.setWidth 32 <<< 8
                ||| s.fs.rate.setWidth 32 <<< 16) })
    ∧ ∀ s : State,
        exec (.rdAsm 1#3) s =
            .next { s with
              response := some <|
                (s.st.phase.code.setWidth 32 ||| s.st.bitcnt.setWidth 32 <<< 4
                  ||| s.st.data.setWidth 32 <<< 8 ||| (BitVec.ofBool s.st.parErr).setWidth 32 <<< 16
                  ||| s.st.prevPat.code.setWidth 32 <<< 20 ||| s.st.lastbits.setWidth 32 <<< 24) }
          ∧ exec (.rdAsm 2#3) s = .next { s with response := some (s.st.bytes.setWidth 32) }
          ∧ exec (.rdAsm 3#3) s = .next { s with response := some s.st.run }
          ∧ exec (.rdAsm 4#3) s =
              .next { s with response := some (s.fs.frameStart.extractLsb' 0 32) }
          ∧ exec (.rdAsm 5#3) s =
              .next { s with response := some (s.fs.frameStart.extractLsb' 32 32) }
          ∧ exec (.rdAsm 6#3) s = .next { s with response := some (s.fs.lastEnd.extractLsb' 0 32) }
          ∧ exec (.rdAsm 7#3) s = .next { s with response := some (s.fs.lastEnd.extractLsb' 32 32) }

/-- RD_OUT: with an empty queue ERR.OUT and 0, else the word of the head record; CAND reads 0xF in a
record without a row (45_host_interface.md R500). -/
def Obligations.OutputReads : Prop :=
  (∀ k : BitVec 4, k.toNat ≤ 8 → ReadsAs (wordAt 0x900#12 k) (.rdOut k))
    ∧ (∀ (s : State) (k : BitVec 4), k.toNat ≤ 8 → s.queue = [] →
        exec (.rdOut k) s =
          .next { s with err := s.err ||| 0x40#8, response := some 0x00000000#32 })
    ∧ ∀ (s : State) (r : Record) (rest : List Record) (cand : BitVec 4), s.queue = r :: rest →
        ((∀ c : Row, r.cand = some c → cand = c.code) ∧ (r.cand = none → cand = 0xF#4)) →
        exec (.rdOut 0#4) s =
            .next { s with
              response := some <|
                (r.kind.code.setWidth 32 ||| r.tech.code.setWidth 32 <<< 2
                  ||| r.dir.code.setWidth 32 <<< 4 ||| cand.setWidth 32 <<< 8
                  ||| (BitVec.ofBool r.parErr).setWidth 32 <<< 12
                  ||| (BitVec.ofBool r.crcErr).setWidth 32 <<< 13
                  ||| r.lastbits.setWidth 32 <<< 16) }
          ∧ exec (.rdOut 1#4) s =
              .next { s with response := some ((BitVec.ofNat 16 r.bytes.length).setWidth 32) }
          ∧ exec (.rdOut 2#4) s = .next { s with response := some (r.t0.extractLsb' 0 32) }
          ∧ exec (.rdOut 3#4) s = .next { s with response := some (r.t0.extractLsb' 32 32) }
          ∧ exec (.rdOut 4#4) s = .next { s with response := some (r.t1.extractLsb' 0 32) }
          ∧ exec (.rdOut 5#4) s = .next { s with response := some (r.t1.extractLsb' 32 32) }
          ∧ exec (.rdOut 6#4) s =
              .next { s with
                response := some <|
                  (r.cmd.setWidth 32 ||| (BitVec.ofBool r.cmdValid).setWidth 32 <<< 8) }
          ∧ exec (.rdOut 7#4) s = .next { s with response := some (r.rate.setWidth 32) }
          ∧ exec (.rdOut 8#4) s = .next { s with response := some (s.rptr.setWidth 32) }

/-- RD_OUT_DATA: the byte at RPTR, which advances; ERR.OUT and 0 with an empty queue or past the last
byte (45_host_interface.md R501). -/
def Obligations.OutputDataRead : Prop :=
  ReadsAs 0x940#12 .rdOutData
    ∧ (∀ s : State, s.queue = [] →
        exec .rdOutData s =
          .next { s with err := s.err ||| 0x40#8, response := some 0x00000000#32 })
    ∧ (∀ (s : State) (r : Record) (rest : List Record), s.queue = r :: rest →
        r.bytes.length ≤ s.rptr.toNat →
        exec .rdOutData s =
          .next { s with err := s.err ||| 0x40#8, response := some 0x00000000#32 })
    ∧ ∀ (s : State) (r : Record) (rest : List Record) (h : s.rptr.toNat < r.bytes.length),
        s.queue = r :: rest →
        exec .rdOutData s =
          .next { s with
            rptr := s.rptr + 1#16
            response := some ((r.bytes[s.rptr.toNat]'h).setWidth 32) }

/-! ## Register writes -/

/-- WR_ERR clears the bits written as 1 and no other; WR_IRQ_EN, WR_HIST_CHAN and WR_HIST_INDEX keep
DATA's bits of the register's width (45_host_interface.md R455, R457, R483, R486). -/
def Obligations.HostRegisterWrites : Prop :=
  (WritesAs 0x010#12 .wrErr ∧ WritesAs 0x014#12 .wrIrqEn ∧ WritesAs 0x0C0#12 .wrHistChan
      ∧ WritesAs 0x0C4#12 .wrHistIndex)
    ∧ ∀ (s : State) (d : Word),
        (∃ e : BitVec 8,
            exec (.wrErr d) s = .next { s with err := e, response := none }
              ∧ ∀ j : Nat, j < 8 → e.getLsbD j = (s.err.getLsbD j && !d.getLsbD j))
          ∧ exec (.wrIrqEn d) s = .next { s with irqEn := d.extractLsb' 0 2, response := none }
          ∧ exec (.wrHistChan d) s = .next { s with histChan := d.extractLsb' 0 2, response := none }
          ∧ exec (.wrHistIndex d) s = .next { s with histIndex := d, response := none }

/-- WR_CFG: refused while running; else element k takes DATA, CAND_ENABLE its low 11 bits, and
CONFIGURED is cleared (45_host_interface.md R461, 20_memory.md R109). -/
def Obligations.ConfigurationWrite : Prop :=
  (∀ k : BitVec 4, k.toNat ≤ 12 → WritesAs (wordAt 0x040#12 k) (.wrCfg k))
    ∧ (∀ (s : State) (k : BitVec 4) (d : Word), k.toNat ≤ 12 → s.run = true →
        exec (.wrCfg k d) s = .next { s with err := s.err ||| 0x10#8, response := none })
    ∧ ∀ (s : State) (d : Word), s.run = false →
        let written := fun g : CondCfg =>
          (.next { s with cfg := g, configured := false, response := none } : Result)
        exec (.wrCfg 0#4 d) s = written { s.cfg with alphaAvgLive := d }
          ∧ exec (.wrCfg 1#4 d) s = written { s.cfg with alphaDevLive := d }
          ∧ exec (.wrCfg 2#4 d) s = written { s.cfg with alphaAvgSil := d }
          ∧ exec (.wrCfg 3#4 d) s = written { s.cfg with alphaDevSil := d }
          ∧ exec (.wrCfg 4#4 d) s = written { s.cfg with alphaEdgeFast := d }
          ∧ exec (.wrCfg 5#4 d) s = written { s.cfg with alphaEdgeSlow := d }
          ∧ exec (.wrCfg 6#4 d) s = written { s.cfg with hystFactor := d }
          ∧ exec (.wrCfg 7#4 d) s = written { s.cfg with silenceLimit := d }
          ∧ exec (.wrCfg 8#4 d) s = written { s.cfg with thrK := d }
          ∧ exec (.wrCfg 9#4 d) s = written { s.cfg with minDepth := d }
          ∧ exec (.wrCfg 10#4 d) s = written { s.cfg with sampleRate := d }
          ∧ exec (.wrCfg 11#4 d) s = written { s.cfg with candEnable := d.extractLsb' 0 11 }
          ∧ exec (.wrCfg 12#4 d) s = written { s.cfg with bIdleLimit := d }

/-- WR_TCFG: refused while running; else element k of technology x takes DATA and CONFIGURED is
cleared (45_host_interface.md R463, 20_memory.md R109). -/
def Obligations.ProtocolWrite : Prop :=
  (∀ (x : Tech) (k : BitVec 3), k.toNat ≤ 4 →
      WritesAs (wordAt (0x100#12 + 0x20#12 * x.code.setWidth 12) k) (.wrTcfg x.code k))
    ∧ (∀ (s : State) (x : Tech) (k : BitVec 3) (d : Word), k.toNat ≤ 4 → s.run = true →
        exec (.wrTcfg x.code k d) s = .next { s with err := s.err ||| 0x10#8, response := none })
    ∧ ∀ (s : State) (x : Tech) (d : Word), s.run = false →
        let written := fun g : TechCfg =>
          (.next { s with tcfg := s.tcfg.set x g, configured := false, response := none } : Result)
        exec (.wrTcfg x.code 0#3 d) s = written { s.tcfg.get x with maxFrameSize := d }
          ∧ exec (.wrTcfg x.code 1#3 d) s = written { s.tcfg.get x with frameGuardTime := d }
          ∧ exec (.wrTcfg x.code 2#3 d) s = written { s.tcfg.get x with frameWaitingTime := d }
          ∧ exec (.wrTcfg x.code 3#3 d) s = written { s.tcfg.get x with startupGuardTime := d }
          ∧ exec (.wrTcfg x.code 4#3 d) s = written { s.tcfg.get x with requestGuardTime := d }

/-! ## Commands -/

/-- CMD_RESERVED, CMD_START, CMD_STOP and CMD_OUT_REWIND (45_host_interface.md R470, R472, R473,
R475). -/
def Obligations.SimpleCommands : Prop :=
  (∀ d : Word, d ∉ [1#32, 2#32, 3#32, 4#32, 5#32, 6#32, 7#32] →
      decode (mkTxn true 0x008#12 d) = .ok (.cmdReserved d))
    ∧ decode (mkTxn true 0x008#12 3#32) = .ok .cmdStart
    ∧ decode (mkTxn true 0x008#12 4#32) = .ok .cmdStop
    ∧ decode (mkTxn true 0x008#12 7#32) = .ok .cmdOutRewind
    ∧ ∀ (s : State) (d : Word),
        exec (.cmdReserved d) s = .next { s with err := s.err ||| 0x04#8, response := none }
          ∧ (s.configured = false →
              exec .cmdStart s = .next { s with err := s.err ||| 0x04#8, response := none })
          ∧ (s.configured = true →
              exec .cmdStart s = .next { s with run := true, response := none })
          ∧ exec .cmdStop s = .next { s with run := false, response := none }
          ∧ exec .cmdOutRewind s = .next { s with rptr := 0#16, response := none }

/-- CMD_RESET_CAPTURE: refused while running; else everything of the capture is reset and the rest is
kept (45_host_interface.md R474, 70_reset_and_hazards.md R581). -/
def Obligations.CaptureReset : Prop :=
  decode (mkTxn true 0x008#12 5#32) = .ok .cmdResetCapture
    ∧ (∀ s : State, s.run = true →
        exec .cmdResetCapture s = .next { s with err := s.err ||| 0x04#8, response := none })
    ∧ ∀ s : State, s.run = false →
        ∃ t : State, exec .cmdResetCapture s = .next t ∧ t.CaptureClear
          ∧ t.run = false ∧ t.configured = s.configured ∧ t.err = s.err ∧ t.irqEn = s.irqEn
          ∧ t.histChan = s.histChan ∧ t.histIndex = s.histIndex ∧ t.cfg = s.cfg
          ∧ t.tcfg = s.tcfg ∧ t.bank = s.bank ∧ t.params = s.params ∧ t.inputs = s.inputs
          ∧ t.response = none

/-- CMD_CONFIGURE: refused while running; refused for an illegal configuration or when no row would be
active; else the bank is computed, CONFIGURED is set and the capture is reset
(45_host_interface.md R476). -/
def Obligations.Configure : Prop :=
  decode (mkTxn true 0x008#12 2#32) = .ok .cmdConfigure
    ∧ (∀ s : State, s.run = true →
        exec .cmdConfigure s = .next { s with err := s.err ||| 0x04#8, response := none })
    ∧ (∀ s : State, s.run = false →
        ¬(s.LegalConfig ∧ ∃ c : Row, (bankRow s.params s.cfg c).active = true) →
        exec .cmdConfigure s = .next { s with err := s.err ||| 0x20#8, response := none })
    ∧ ∀ s : State, s.run = false → s.LegalConfig →
        (∃ c : Row, (bankRow s.params s.cfg c).active = true) →
        ∃ t : State, exec .cmdConfigure s = .next t ∧ t.CaptureClear
          ∧ (∀ c : Row, t.bank.get c = bankRow s.params s.cfg c) ∧ t.configured = true
          ∧ t.run = false ∧ t.err = s.err ∧ t.irqEn = s.irqEn
          ∧ t.histChan = s.histChan ∧ t.histIndex = s.histIndex ∧ t.cfg = s.cfg
          ∧ t.tcfg = s.tcfg ∧ t.params = s.params ∧ t.inputs = s.inputs ∧ t.response = none

/-- CMD_OUT_POP: ERR.OUT with an empty queue; else the head record leaves and RPTR is 0
(45_host_interface.md R477). -/
def Obligations.OutPop : Prop :=
  decode (mkTxn true 0x008#12 6#32) = .ok .cmdOutPop
    ∧ (∀ s : State, s.queue = [] →
        exec .cmdOutPop s = .next { s with err := s.err ||| 0x40#8, response := none })
    ∧ ∀ (s : State) (r : Record) (rest : List Record), s.queue = r :: rest →
        exec .cmdOutPop s = .next { s with queue := rest, rptr := 0#16, response := none }

/-! ## The candidate bank -/

/-- The candidate ROM, row by row: c, TECH, DIR, CODING, POL, FRAMING, N, RATE (41_candidate_bank.md
R251). -/
def Obligations.CandidateRom : Prop :=
  Row.all.map (fun c => (c.code, c.tech, c.dir, c.coding)) =
      [(0#4, .a, .poll, .miller), (1#4, .b, .poll, .nrz), (2#4, .a, .poll, .miller),
        (3#4, .b, .poll, .nrz), (4#4, .a, .poll, .miller), (5#4, .b, .poll, .nrz),
        (6#4, .a, .poll, .miller), (7#4, .b, .poll, .nrz), (8#4, .a, .listen, .manchester),
        (9#4, .v, .poll, .ppm4), (10#4, .v, .listen, .manchester)]
    ∧ Row.all.map (fun c => (c.pol, c.framing, c.n, c.rate.toNat)) =
      [(false, .parityOdd, 16, 848), (false, .startStop, 16, 848), (false, .parityOdd, 32, 424),
        (false, .startStop, 32, 424), (false, .parityOdd, 64, 212), (false, .startStop, 64, 212),
        (false, .parityOdd, 128, 106), (false, .startStop, 128, 106), (true, .parityOdd, 128, 106),
        (false, .plain, 1024, 26), (false, .plain, 512, 26)]
    ∧ [Tech.a, .b, .v].map Tech.code = [0#2, 1#2, 2#2]
    ∧ [Dir.poll, .listen].map Dir.code = [0#1, 1#1]
    ∧ [Coding.miller, .manchester, .nrz, .ppm4].map Coding.code = [0#2, 1#2, 2#2, 3#2]
    ∧ [Framing.parityOdd, .startStop, .plain].map Framing.code = [0#2, 1#2, 2#2]

/-- The computed fields of every row, as exact integers that their registers hold without loss
(41_candidate_bank.md R253 to R257). -/
def Obligations.BankArithmetic : Prop :=
  ∀ (params : Params) (cfg : CondCfg) (c : Row),
    let b := bankRow params cfg c
    let pfx := (256 * cfg.sampleRate.toNat * c.n + 6780000) / 13560000
    let p := (pfx + 128) / 256
    b.pfx.toNat = pfx ∧ b.p.toNat = p ∧ b.h.toNat = p / 2 ∧ b.q.toNat = p / 4
      ∧ b.e.toNat = p / 8
      ∧ b.tau.toNat =
          (match c.coding with
            | .miller => 0 | .manchester => p / 8 | .nrz => 0 | .ppm4 => p / 8 / 4)
      ∧ b.w.toNat =
          (match c.coding with
            | .miller => 2 * (p / 2) | .manchester => 2 * (p / 2) | .nrz => p | .ppm4 => 8 * (p / 8))
      ∧ b.l.toNat =
          (match c.coding with
            | .miller => p / 2 | .manchester => p / 2 | .nrz => p | .ppm4 => p / 8)
      ∧ (b.valid = true ↔ 8 ≤ p ∧ p ≤ params.histSize)
      ∧ b.active = (b.valid && cfg.candEnable.getLsbD c.code.toNat)
      ∧ b.weight = (if b.valid then f32div 0x3F800000#32 (f32ofNat p) else 0x00000000#32)
      ∧ b.w.toNat ≤ p

/-! ## Samples -/

/-- WR_SAMPLE_I latches, in every state and with every pattern (40_signal_conditioner.md R202). -/
def Obligations.SampleLatch : Prop :=
  WritesAs 0x024#12 .wrSampleI
    ∧ ∀ (s : State) (i : F32),
        exec (.wrSampleI i) s = .next { s with iLatch := i, iValid := true, response := none }

/-- The samples that are dropped, and the one ERR bit each sets (40_signal_conditioner.md R205, the
order of its checks; WR_SAMPLE_Q clears I_VALID whatever follows, R203). -/
def Obligations.DroppedSamples : Prop :=
  ∀ s : State,
    let ready := s.run = true ∧ s.configured = true ∧ s.queue.length + 4 ≤ s.params.outqDepth
    let magnitude := fun q : F32 => f32sqrt (f32add (f32mul s.iLatch s.iLatch) (f32mul q q))
    (∀ x : F32, ¬ready →
        exec (.wrSampleReal x) s = .next { s with err := s.err ||| 0x01#8, response := none })
      ∧ (∀ x : F32, ready → isfinite x = false →
          exec (.wrSampleReal x) s = .next { s with err := s.err ||| 0x02#8, response := none })
      ∧ (∀ q : F32, ¬ready →
          exec (.wrSampleQ q) s =
            .next { s with err := s.err ||| 0x01#8, iValid := false, response := none })
      ∧ (∀ q : F32, ready → s.iValid = false →
          exec (.wrSampleQ q) s =
            .next { s with err := s.err ||| 0x80#8, iValid := false, response := none })
      ∧ (∀ q : F32, ready → s.iValid = true →
          (isfinite s.iLatch = false ∨ isfinite q = false ∨ isfinite (magnitude q) = false) →
          exec (.wrSampleQ q) s =
            .next { s with err := s.err ||| 0x02#8, iValid := false, response := none })

/-- An accepted WR_SAMPLE_REAL performs a tick with m = |x| and nothing else: the next state is that of
`State.tick`, and of it the conditioner's registers, the four histories and the clock, and what no tick
changes, are said here (40_signal_conditioner.md R200, R201, R205 to R222). The tick's other phases are
those StartupGuard lists. The histories are stated for storages in canonical form, as
StorageInvariantKept keeps them. -/
def Obligations.RealSample : Prop :=
  WritesAs 0x020#12 .wrSampleReal
    ∧ ∀ (s : State) (x : F32),
        s.run = true → s.configured = true → s.queue.length + 4 ≤ s.params.outqDepth →
        isfinite x = true →
        ∃ t : State, exec (.wrSampleReal x) s = .next t
          ∧ t = { s.tick (x &&& 0x7FFFFFFF#32) with response := none }
          ∧ Conditions s.cfg (x &&& 0x7FFFFFFF#32) s.sig t.sig
          ∧ (s.StoragesWf → HistoriesAdvance s t)
          ∧ TickKeeps s t ∧ t.iValid = s.iValid ∧ t.response = none

/-- An accepted WR_SAMPLE_Q performs a tick with m = sqrt(i·i + q·q), i the latched component, and
clears I_VALID, and nothing else: the next state is that of `State.tick`, whose conditioner, histories
and clock are said here as for a real sample (40_signal_conditioner.md R200, R203, R205 to R222). -/
def Obligations.IqSample : Prop :=
  WritesAs 0x028#12 .wrSampleQ
    ∧ ∀ (s : State) (q m : F32),
        s.run = true → s.configured = true → s.queue.length + 4 ≤ s.params.outqDepth →
        s.iValid = true → isfinite s.iLatch = true → isfinite q = true →
        m = f32sqrt (f32add (f32mul s.iLatch s.iLatch) (f32mul q q)) → isfinite m = true →
        ∃ t : State, exec (.wrSampleQ q) s = .next t
          ∧ t = { ({ s with iValid := false } : State).tick m with response := none }
          ∧ Conditions s.cfg m s.sig t.sig
          ∧ (s.StoragesWf → HistoriesAdvance s t)
          ∧ TickKeeps s t ∧ t.iValid = false ∧ t.response = none

/-- The tick's phases in order, each on the state the one before it leaves (40_signal_conditioner.md
R200): start-up guard, conditioner, the timeout checks of A, B and V, correlators, lock arbitration,
delivery, correlator end of frame, clock. And the start-up guard: at clock 0, and then only, the first
phases set both guards of every technology to its STARTUP_GUARD_TIME (44_frame_assembler.md R408). -/
def Obligations.StartupGuard : Prop :=
  (∀ (s : State) (m : F32),
      let p2 := s.startupPhase.conditioner m
      let p3 := ((p2.timeoutCheck .a).timeoutCheck .b).timeoutCheck .v
      let p4 := p3.correlators
      let p5 := p4.1.arbitrate p4.2
      let p6 := p5.1.deliver (eofPending p4.2) p5.2
      let p7 := p6.1.correlatorEof p6.2
      s.tickFront m = p3
        ∧ s.tick m = { p7 with sig := { p7.sig with clock := p7.sig.clock + 1#64 } })
    ∧ ∀ (s : State) (m : F32) (x : Tech),
        (s.sig.clock = 0#64 →
            ((s.tickFront m).tim.get x).guardPoll =
                (s.tcfg.get x).startupGuardTime.setWidth 64
              ∧ ((s.tickFront m).tim.get x).guardListen =
                (s.tcfg.get x).startupGuardTime.setWidth 64)
          ∧ (s.sig.clock ≠ 0#64 →
            ((s.tickFront m).tim.get x).guardPoll = (s.tim.get x).guardPoll
              ∧ ((s.tickFront m).tim.get x).guardListen = (s.tim.get x).guardListen)

/-! ## Floating point -/

/-- The comparisons order finite values by value, are false with a NaN, and put the infinities at the
ends; fmaxfloor gives its second operand for a NaN (00_scope.md R12). That the infinities lie beyond
every finite value is IEEE 754's order, which the spec names without restating (log 15). -/
def Obligations.FloatOrder : Prop :=
  ∀ a b : F32,
    (isfinite a = true → isfinite b = true →
        (f32gt a b = true ↔ f32units b < f32units a)
          ∧ (f32ge a b = true ↔ f32units b ≤ f32units a)
          ∧ (f32eq a b = true ↔ f32units a = f32units b))
      ∧ (isNaN a = true ∨ isNaN b = true →
          f32gt a b = false ∧ f32ge a b = false ∧ f32eq a b = false)
      ∧ (isfinite a = true → f32gt 0x7F800000#32 a = true ∧ f32gt a 0xFF800000#32 = true)
      ∧ (isNaN a = true → fmaxfloor a b = b)
      ∧ (f32gt a b = true → fmaxfloor a b = a)

/-- Sums, differences, products, quotients, conversions and square roots are correctly rounded to
nearest, ties to even, subnormals included, with the sign of the exact value (00_scope.md R11). -/
def Obligations.FloatRounding : Prop :=
  (∀ a b : F32, isfinite a = true → isfinite b = true →
      NearestTo (f32add a b) (f32units a + f32units b) 1
        ∧ NearestTo (f32sub a b) (f32units a - f32units b) 1
        ∧ NearestTo (f32mul a b) (f32units a * f32units b) (2 ^ 149)
        ∧ (f32units b ≠ 0 →
            NearestTo (f32div a b) (f32units a * 2 ^ 149 * (f32units b).sign)
              (f32units b).natAbs))
    ∧ (∀ n : Nat, NearestTo (f32ofNat n) ((n : Int) * 2 ^ 149) 1)
    ∧ ∀ a : F32, isfinite a = true →
        (0 < f32units a → NearestRoot (f32sqrt a) ((f32units a).natAbs * 2 ^ 149))
          ∧ (f32units a = 0 → f32units (f32sqrt a) = 0)

/-! ## The symbol correlators -/

/-- `deepsum` folds |deep| from the oldest clock to the newest, and the entry of a clock is the clock
modulo HIST_SIZE, always inside the history (40_signal_conditioner.md R220). -/
def Obligations.DeepsumFold : Prop :=
  (∀ (s : State) (k0 : Clock) (n : Nat),
      s.deepsum k0 n =
        (List.range n).foldl
          (fun acc j => f32add acc (s.deep (k0 + BitVec.ofNat 64 j) &&& 0x7FFFFFFF#32))
          0x00000000#32)
    ∧ ∀ (s : State) (k : Clock),
        s.deep k = Memory.read s.hist.hdeep (k.toNat % s.params.histSize)
          ∧ k.toNat % s.params.histSize < s.params.histSize

/-- The evaluation of each coding: its sums s0 and s1, strength, pattern and validity
(42_symbol_correlator.md R282 to R284); the slot of PPM4 is stated where no slot sum is a NaN, since
R284 gives none otherwise (log 2). From these: a valid evaluation has a strength that is a number above
0, but for NRZ in TRACK mode, where every evaluation is valid (R283, R285). -/
def Obligations.ValidStrengthIsPositive : Prop :=
  ∀ (s : State) (c : Row) (t : Clock) (thr : F32) (mode : EvalMode),
    let b := s.bank.get c
    let r := s.eval c t thr mode
    let reaches := fun level : F32 => f32ge r.strength level && f32gt r.strength 0x00000000#32
    let slot := fun j : Nat =>
      s.deepsum (t - BitVec.ofNat 64 (8 * b.e.toNat) + 1#64
        + BitVec.ofNat 64 ((2 * j + 1) * b.e.toNat)) b.e.toNat
    (HalfCoding c.coding →
        r.s0 = s.deepsum (t - BitVec.ofNat 64 (2 * b.h.toNat) + 1#64) b.h.toNat
          ∧ r.s1 = s.deepsum (t - BitVec.ofNat 64 b.h.toNat + 1#64) b.h.toNat
          ∧ r.strength = f32sub r.s0 r.s1 &&& 0x7FFFFFFF#32
          ∧ r.valid = reaches (f32mul thr (f32ofNat b.h.toNat))
          ∧ r.pat = if f32gt r.s0 r.s1 then .first else .second)
      ∧ (c.coding = .nrz →
          let modulated := f32ge r.s0 r.s1 && f32gt r.s0 0x00000000#32
          r.s0 = s.deepsum (t - BitVec.ofNat 64 b.p.toNat + 1#64) b.p.toNat
            ∧ r.s1 = f32mul thr (f32ofNat b.p.toNat)
            ∧ r.strength = r.s0
            ∧ r.valid = (decide (mode = .track) || modulated)
            ∧ r.pat = if modulated then .nrzZero else .nrzOne)
      ∧ (c.coding = .ppm4 →
          r.strength = f32sub r.s0 r.s1
            ∧ r.valid = reaches (f32mul thr (f32ofNat b.e.toNat))
            ∧ ((∀ j : Nat, j < 4 → isNaN (slot j) = false) →
                ∃ best : Nat, best < 4
                  ∧ (∀ j : Nat, j < best → f32gt (slot best) (slot j) = true)
                  ∧ (∀ j : Nat, best < j → j < 4 → f32ge (slot best) (slot j) = true)
                  ∧ r.pat = Pattern.ppm (BitVec.ofNat 2 best) ∧ r.pat.code.toNat = 8 + best
                  ∧ r.s0 = slot best
                  ∧ (∃ j : Nat, j < 4 ∧ j ≠ best ∧ r.s1 = slot j)
                  ∧ ∀ j : Nat, j < 4 → j ≠ best → f32ge r.s1 (slot j) = true))
      ∧ (c.coding ≠ .nrz ∨ mode = .acquire → r.valid = true →
          isNaN r.strength = false ∧ f32gt r.strength 0x00000000#32 = true)
      ∧ (c.coding = .nrz → mode = .track → r.valid = true)

/-- A candidate that is IDLE: whether a tick starts a search of it. It starts exactly where the row is
active, no candidate is LOCKED, the guard of its technology and direction has passed, a whole period of
samples exists, and |depth| exceeds the threshold, both of this tick (42_symbol_correlator.md R287,
44_frame_assembler.md R407, R408). That the search survives the tick is stated where no candidate is
SYNCHRONIZING, so that no lock clears it (R295). -/
def Obligations.IdleTrigger : Prop :=
  ∀ (s : State) (m : F32) (c : Row), (s.ss.get c).stage = .idle →
    let t := s.tick m
    let guard : Clock :=
      if s.sig.clock = 0#64 then (s.tcfg.get c.tech).startupGuardTime.setWidth 64
      else match c.dir with
        | .poll => (s.tim.get c.tech).guardPoll
        | .listen => (s.tim.get c.tech).guardListen
    let trigger :=
      (s.bank.get c).active = true
        ∧ (∀ d : Row, (s.ss.get d).stage ≠ .locked)
        ∧ guard.toNat ≤ s.sig.clock.toNat
        ∧ (s.bank.get c).p.toNat ≤ s.sig.clock.toNat
        ∧ f32gt (t.sig.depth &&& 0x7FFFFFFF#32) t.sig.threshold = true
    (¬trigger → (t.ss.get c).stage = .idle)
      ∧ (trigger → (∀ d : Row, (s.ss.get d).stage ≠ .synchronizing) →
          t.ss.get c =
            { s.ss.get c with
              stage := .searching
              start := s.sig.clock
              stop := s.sig.clock + (s.bank.get c).p.setWidth 64
              thresh := t.sig.threshold
              found := false
              peakValue := 0x00000000#32
              peakTime := s.sig.clock
              peakPat := .none
              pulseWidth := 1#32
              pulseOpen := true })

/-- The SEARCHING step (42_symbol_correlator.md R288): PULSE_WIDTH counts, saturating, while the trigger
pulse lasts; the evaluation of the tick is written to CORR0 and CORR1 and kept as the peak where it is
better; at t = END, and then only, the search decides. Over the evaluations of a search the peak is the
valid one of greatest strength, the latest among equals for the HALF codings and the earliest for the
others. The decision: without a peak the state is cleared; with one the candidate synchronizes on the
symbol that ended at the peak (R289). -/
def Obligations.SearchDecision : Prop :=
  (∀ (s : State) (c : Row) (ss : SearchState),
      let t := s.sig.clock
      let r := s.eval c t ss.thresh .acquire
      let open' := ss.pulseOpen && f32gt (s.sig.depth &&& 0x7FFFFFFF#32) ss.thresh
      let kept :=
        SearchState.keepPeak
          { ss with
            pulseWidth :=
              if open' then BitVec.ofNat 32 (min (ss.pulseWidth.toNat + 1) (2 ^ 32 - 1))
              else ss.pulseWidth
            pulseOpen := open'
            corr0 := r.s0
            corr1 := r.s1 } c.coding t r
      (t = ss.stop → s.searchStep c ss = kept.searchDecide (s.bank.get c))
        ∧ (t ≠ ss.stop → s.searchStep c ss = kept))
    ∧ (∀ (ss : SearchState) (coding : Coding) (t : Clock) (r : Evaluation),
        let better :=
          r.valid = true
            ∧ (ss.found = false ∨ f32gt r.strength ss.peakValue = true
                ∨ (HalfCoding coding ∧ f32eq r.strength ss.peakValue = true))
        (better →
            ss.keepPeak coding t r =
              { ss with
                found := true
                peakValue := r.strength
                peakTime := t
                peakPat := r.pat })
          ∧ (¬better → ss.keepPeak coding t r = ss))
    ∧ (∀ (ss : SearchState) (coding : Coding) (evals : List (Clock × Evaluation)),
        ss.found = false → (∀ p ∈ evals, p.2.valid = true → isNaN p.2.strength = false) →
        let final := evals.foldl (fun e p => e.keepPeak coding p.1 p.2) ss
        ((∀ p ∈ evals, p.2.valid = false) → final = ss)
          ∧ ((∃ p ∈ evals, p.2.valid = true) →
              ∃ (before after : List (Clock × Evaluation)) (t : Clock) (r : Evaluation),
                evals = before ++ (t, r) :: after ∧ r.valid = true
                  ∧ final =
                      { ss with
                        found := true
                        peakValue := r.strength
                        peakTime := t
                        peakPat := r.pat }
                  ∧ (∀ p ∈ evals, p.2.valid = true → f32ge r.strength p.2.strength = true)
                  ∧ (HalfCoding coding → ∀ p ∈ after, p.2.valid = true →
                      f32gt r.strength p.2.strength = true)
                  ∧ (¬HalfCoding coding → ∀ p ∈ before, p.2.valid = true →
                      f32gt r.strength p.2.strength = true)))
    ∧ ∀ (ss : SearchState) (b : BankRow),
        (ss.found = false → ss.searchDecide b = SearchState.reset)
          ∧ (ss.found = true →
              ss.searchDecide b =
                { ss with
                  stage := .synchronizing
                  sym1Pat := ss.peakPat
                  sym1Start := ss.peakTime - b.p.setWidth 64
                  sym1End := ss.peakTime
                  symEnd := ss.peakTime
                  expFx := ss.peakTime * 256#64 + b.pfx
                  bestFound := false
                  miss := 0#2
                  hold := false })

/-- The tracking window (42_symbol_correlator.md R290): before X - TAU a candidate waits; from there on
it evaluates, writes CORR0 and CORR1 and keeps the best, and at X + TAU, and then only, it decides. Over
the evaluations of a window the best is the valid one of greatest strength, among equals the one closest
to X, then the earlier. The decision: the symbol starts where the last one ended, so symbols tile the
clock axis; one found at the expected end keeps the fractional expected time, one found elsewhere
re-anchors it (R291, R292). Where the expected end does not fit the clock's 64 bits, the end of a missed
symbol is it modulo 2^64 (log 6). -/
def Obligations.WindowDecision : Prop :=
  (∀ (s : State) (c : Row) (mode : EvalMode) (ss : SearchState),
      let t := s.sig.clock
      let b := s.bank.get c
      let x := (ss.expFx.toNat + 128) / 256
      let r := s.eval c t ss.thresh mode
      let kept := SearchState.keepBest { ss with corr0 := r.s0, corr1 := r.s1 } x t r
      (t.toNat + b.tau.toNat < x → s.track c mode ss = (ss, none))
        ∧ (x ≤ t.toNat + b.tau.toNat → t.toNat ≠ x + b.tau.toNat →
            s.track c mode ss = (kept, none))
        ∧ (t.toNat = x + b.tau.toNat →
            s.track c mode ss =
              ((kept.windowDecide c b x).1, some (kept.windowDecide c b x).2)))
    ∧ (∀ (ss : SearchState) (x : Nat) (t : Clock) (r : Evaluation),
        let off := fun k : Clock => ((k.toNat : Int) - x).natAbs
        let better :=
          r.valid = true
            ∧ (ss.bestFound = false ∨ f32gt r.strength ss.bestValue = true
                ∨ (f32eq r.strength ss.bestValue = true ∧ off t < off ss.bestTime))
        (better →
            ss.keepBest x t r =
              { ss with
                bestFound := true
                bestTime := t
                bestValue := r.strength
                bestPat := r.pat })
          ∧ (¬better → ss.keepBest x t r = ss))
    ∧ (∀ (ss : SearchState) (x : Nat) (evals : List (Clock × Evaluation)),
        ss.bestFound = false → (∀ p ∈ evals, p.2.valid = true → isNaN p.2.strength = false) →
        let off := fun k : Clock => ((k.toNat : Int) - x).natAbs
        let final := evals.foldl (fun e p => e.keepBest x p.1 p.2) ss
        ((∀ p ∈ evals, p.2.valid = false) → final = ss)
          ∧ ((∃ p ∈ evals, p.2.valid = true) →
              ∃ (before after : List (Clock × Evaluation)) (t : Clock) (r : Evaluation),
                evals = before ++ (t, r) :: after ∧ r.valid = true
                  ∧ final =
                      { ss with
                        bestFound := true
                        bestTime := t
                        bestValue := r.strength
                        bestPat := r.pat }
                  ∧ (∀ p ∈ evals, p.2.valid = true → f32ge r.strength p.2.strength = true)
                  ∧ (∀ p ∈ before, p.2.valid = true → f32eq p.2.strength r.strength = true →
                      off t < off p.1)
                  ∧ ∀ p ∈ after, p.2.valid = true → f32eq p.2.strength r.strength = true →
                      off t ≤ off p.1))
    ∧ ∀ (ss : SearchState) (c : Row) (b : BankRow) (x : Nat),
        let r := ss.windowDecide c b x
        r.2.1 = ss.bestFound
          ∧ r.2.2.start = ss.symEnd ∧ r.1.symEnd = r.2.2.stop ∧ r.2.2.cand = c
          ∧ (ss.bestFound = true → r.2.2.pat = ss.bestPat ∧ r.2.2.stop = ss.bestTime)
          ∧ (ss.bestFound = false → r.2.2.pat = .none ∧ r.2.2.stop = BitVec.ofNat 64 x)
          ∧ (ss.bestFound = true → ss.bestTime.toNat ≠ x →
              r.1.expFx = ss.bestTime * 256#64 + b.pfx)
          ∧ (ss.bestFound = false ∨ ss.bestTime.toNat = x → r.1.expFx = ss.expFx + b.pfx)
          ∧ r.2.2.next =
              BitVec.ofNat 32 ((r.1.expFx.toNat + 128) / 256) - r.2.2.stop.setWidth 32
          ∧ r.1 = { ss with
              expFx := r.1.expFx
              symEnd := r.1.symEnd
              bestFound := false
              bestTime := 0#64
              bestValue := 0x00000000#32
              bestPat := .none }

/-- Phase 4 of the tick: each candidate runs the step of the stage it has when the phase begins
(42_symbol_correlator.md R286), and only the search states change. The SYNCHRONIZING and LOCKED steps on
the outcome of their window, which WindowDecision gives: a found symbol is the lock request of a
SYNCHRONIZING candidate, a missed one clears it (R293); in LOCKED a found symbol is delivered after the
held one, the first miss is held, the second in a row loses sync, clears the candidate and makes it
eof_pending (R297, R298). -/
def Obligations.LockedTracking : Prop :=
  (∀ (s : State) (c : Row),
      let ss := s.ss.get c
      let after := (s.correlators.1.ss.get c, s.correlators.2.get c)
      s.correlators.1 = { s with ss := s.correlators.1.ss }
        ∧ (s.lockedAny = true ↔ ∃ d : Row, (s.ss.get d).stage = .locked)
        ∧ (ss.stage = .idle → after = (s.idleStep c s.lockedAny ss, ⟨none, [], false⟩))
        ∧ (ss.stage = .searching → after = (s.searchStep c ss, ⟨none, [], false⟩))
        ∧ (ss.stage = .synchronizing → after = s.syncStep c ss)
        ∧ (ss.stage = .locked → after = s.lockedStep c ss))
    ∧ (∀ (s : State) (c : Row) (mode : EvalMode) (ss : SearchState),
        (s.track c mode ss).1.stage = ss.stage)
    ∧ (∀ (s : State) (c : Row) (ss ss' : SearchState),
        (s.track c .acquire ss = (ss', none) → s.syncStep c ss = (ss', ⟨none, [], false⟩))
          ∧ ∀ sym2 : Symbol,
              (s.track c .acquire ss = (ss', some (true, sym2)) →
                  s.syncStep c ss = (ss', ⟨some sym2, [], false⟩))
                ∧ (s.track c .acquire ss = (ss', some (false, sym2)) →
                  s.syncStep c ss = (SearchState.reset, ⟨none, [], false⟩)))
    ∧ (∀ (s : State) (c : Row) (ss ss' : SearchState),
        (s.track c .track ss = (ss', none) → s.lockedStep c ss = (ss', ⟨none, [], false⟩))
          ∧ (∀ sym : Symbol, s.track c .track ss = (ss', some (true, sym)) →
              s.lockedStep c ss =
                ({ ss' with hold := false, miss := 0#2 },
                  ⟨none,
                    if ss'.hold then
                      [⟨.none, ss'.holdStart, ss'.holdEnd, ss'.holdNext, c⟩, sym]
                    else [sym],
                    false⟩))
          ∧ (∀ sym : Symbol, s.track c .track ss = (ss', some (false, sym)) → ss'.miss = 0#2 →
              s.lockedStep c ss =
                ({ ss' with
                    miss := 1#2
                    hold := true
                    holdStart := sym.start
                    holdEnd := sym.stop
                    holdNext := sym.next },
                  ⟨none, [], false⟩))
          ∧ (∀ sym : Symbol, s.track c .track ss = (ss', some (false, sym)) → ss'.miss ≠ 0#2 →
              s.lockedStep c ss = (SearchState.reset, ⟨none, [], true⟩)))
    ∧ ∀ out : PerRow RowOut,
        ((∀ c : Row, (out.get c).eof = false) → eofPending out = none)
          ∧ ∀ c : Row, (out.get c).eof = true → (∀ d : Row, (out.get d).eof = true → d = c) →
              eofPending out = some c

/-- Lock arbitration: with no request nothing happens; else the requesting candidate with the greatest
score, the lowest among equals, becomes LOCKED, every other is cleared, its frame starts, and its two
symbols are delivered after those of phase 4 (42_symbol_correlator.md R294, R295;
44_frame_assembler.md R400). Score comparisons are IEEE ones, false with a NaN (log 7). -/
def Obligations.LockArbitration : Prop :=
  ∀ (s : State) (out : PerRow RowOut),
    let deliver4 := Row.all.flatMap fun c => (out.get c).deliver
    let score := fun c : Row => f32div (s.ss.get c).peakValue (f32ofNat (s.bank.get c).l.toNat)
    ((∀ c : Row, (out.get c).lockreq = none) → s.arbitrate out = (s, deliver4))
      ∧ ((∃ c : Row, (out.get c).lockreq ≠ none) →
          ∃ (w : Row) (sym2 : Symbol), (out.get w).lockreq = some sym2
            ∧ (∀ c : Row, (out.get c).lockreq ≠ none → f32gt (score c) (score w) = false)
            ∧ (∀ c : Row, (out.get c).lockreq ≠ none → f32eq (score c) (score w) = true →
                w.code.toNat ≤ c.code.toNat)
            ∧ (s.arbitrate out).2 =
                deliver4 ++
                  [⟨(s.ss.get w).sym1Pat, (s.ss.get w).sym1Start, (s.ss.get w).sym1End,
                    (s.bank.get w).p, w⟩, sym2]
            ∧ (s.arbitrate out).1 =
                { s with
                  ss := (s.arbitrate out).1.ss
                  fs :=
                    ⟨.accumulating, some w, w.tech, w.dir, w.rate, (s.ss.get w).sym1Start,
                      (s.ss.get w).sym1Start⟩
                  st :=
                    { StreamState.reset with
                      phase := if w.framing = .startStop then .bSofZeros else .sofStrip } }
            ∧ (s.arbitrate out).1.ss.get w =
                { s.ss.get w with stage := .locked, miss := 0#2, hold := false }
            ∧ ∀ c : Row, c ≠ w → (s.arbitrate out).1.ss.get c = SearchState.reset)

/-! ## The stream decoder -/

/-- A symbol handed to the decoder: the first of a frame with a start-of-frame symbol yields no bit;
else a coding error sets PAR_ERR and the symbol's bits are processed; in each case PREV_PAT becomes its
pattern (43_stream_decoder.md R352, R353, R354, R356, R359). -/
def Obligations.SymbolProcessing : Prop :=
  (∀ (t : StreamState) (g : DecoderEnv) (sym : Symbol),
      (t.accumulate g sym).1.prevPat = sym.pat
        ∧ (t.phase = .sofStrip →
            t.accumulate g sym = ({ t with phase := .data, prevPat := sym.pat }, .cont))
        ∧ (t.phase ≠ .sofStrip →
            let e := symbolBits g.row.coding g.row.pol sym.pat
            let r := StreamState.bits { t with parErr := t.parErr || e.2 } g e.1
            t.accumulate g sym = ({ r.1 with prevPat := sym.pat }, r.2)))
    ∧ (∀ pol : Bool,
        symbolBits .miller pol .second = ([true], false)
          ∧ symbolBits .miller pol .first = ([false], false)
          ∧ symbolBits .miller pol .none = ([false], false)
          ∧ symbolBits .manchester pol .first = ([pol], false)
          ∧ symbolBits .manchester pol .second = ([!pol], false)
          ∧ symbolBits .manchester pol .none = ([false], true)
          ∧ symbolBits .nrz pol .nrzZero = ([false], false)
          ∧ symbolBits .nrz pol .nrzOne = ([true], false)
          ∧ symbolBits .ppm4 pol .none = ([false, false], true)
          ∧ ∀ j : BitVec 2, symbolBits .ppm4 pol (Pattern.ppm j) =
              ([j.getLsbD 0, j.getLsbD 1], false))
    ∧ ∀ (coding : Coding) (pol : Bool) (pat : Pattern),
        (coding, pat) ∉
            [(.miller, .second), (.miller, .first), (.miller, .none), (.manchester, .first),
              (.manchester, .second), (.manchester, .none), (.nrz, .nrzZero), (.nrz, .nrzOne),
              (.ppm4, .none), (.ppm4, .ppm0), (.ppm4, .ppm1), (.ppm4, .ppm2), (.ppm4, .ppm3)] →
          symbolBits coding pol pat = ([false], true)

/-- Storing a byte: at the limit min(BUF_CAP, MAX_FRAME_SIZE) the frame is abandoned and the byte is not
stored; below it the byte is stored at BYTES (43_stream_decoder.md R362). -/
def Obligations.ByteLimit : Prop :=
  ∀ (t : StreamState) (g : DecoderEnv) (v : Byte),
    (t.bytes.toNat = min g.bufCap g.maxFrame.toNat → t.store g v = (t, .abandon))
      ∧ (t.bytes.toNat < min g.bufCap g.maxFrame.toNat →
          t.store g v =
            ({ t with buf := Memory.write t.buf t.bytes.toNat v, bytes := t.bytes + 1#16 }, .cont))

/-- A PLAIN byte and a PARITY_ODD character from an empty accumulator: the first bit received is bit 0
of the byte stored, and the nine bits of a character set PAR_ERR exactly where they hold an even number
of ones; the byte is stored either way (43_stream_decoder.md R357, R358). -/
def Obligations.ByteAssembly : Prop :=
  ∀ (t : StreamState) (g : DecoderEnv) (b0 b1 b2 b3 b4 b5 b6 b7 : Bool),
    t.bitcnt = 0#4 → t.data = 0#8 → t.bytes.toNat < min g.bufCap g.maxFrame.toNat →
    ∃ v : Byte,
      [v.getLsbD 0, v.getLsbD 1, v.getLsbD 2, v.getLsbD 3, v.getLsbD 4, v.getLsbD 5, v.getLsbD 6,
          v.getLsbD 7] = [b0, b1, b2, b3, b4, b5, b6, b7]
        ∧ (g.row.framing = .plain →
            t.bits g [b0, b1, b2, b3, b4, b5, b6, b7] =
              ({ t with
                  buf := Memory.write t.buf t.bytes.toNat v
                  bytes := t.bytes + 1#16 }, .cont))
        ∧ (g.row.framing = .parityOdd → ∀ p : Bool,
            t.bits g [b0, b1, b2, b3, b4, b5, b6, b7, p] =
              ({ t with
                  parErr := t.parErr ||
                    decide ([b0, b1, b2, b3, b4, b5, b6, b7, p].count true % 2 = 0)
                  buf := Memory.write t.buf t.bytes.toNat v
                  bytes := t.bytes + 1#16 }, .cont))

/-- START_STOP frames: the start-of-frame, the waits between characters and their limit, and a whole
character of a start bit's eight data bits and a stop bit: it is stored, a stop bit 0 is a framing
error, and ten zeros end the frame (43_stream_decoder.md R360, R361). -/
def Obligations.StartStopFraming : Prop :=
  ∀ (t : StreamState) (g : DecoderEnv), g.row.framing = .startStop →
    let run := if t.run = 0xFFFFFFFF#32 then t.run else t.run + 1#32
    let counted : StreamState × Answer :=
      ({ t with run := run }, if g.idleLimit.toNat < run.toNat then .complete else .cont)
    (t.phase = .bSofZeros →
        t.bit g false = counted
          ∧ t.bit g true = ({ t with phase := .bSofOnes, run := 1#32 }, .cont))
      ∧ (t.phase = .bSofOnes ∨ t.phase = .bWaitStart →
          t.bit g true = counted
            ∧ t.bit g false = ({ t with phase := .bChar, data := 0#8, bitcnt := 0#4 }, .cont))
      ∧ (t.phase = .bChar → t.bitcnt = 0#4 → t.data = 0#8 →
          t.bytes.toNat < min g.bufCap g.maxFrame.toNat →
          ∀ b0 b1 b2 b3 b4 b5 b6 b7 stop : Bool, ∃ v : Byte,
            [v.getLsbD 0, v.getLsbD 1, v.getLsbD 2, v.getLsbD 3, v.getLsbD 4, v.getLsbD 5,
                v.getLsbD 6, v.getLsbD 7] = [b0, b1, b2, b3, b4, b5, b6, b7]
              ∧ (stop = false ∧ v = 0#8 →
                  (t.bits g [b0, b1, b2, b3, b4, b5, b6, b7, stop]).2 = .complete
                    ∧ (t.bits g [b0, b1, b2, b3, b4, b5, b6, b7, stop]).1.bytes = t.bytes)
              ∧ (stop = true ∨ v ≠ 0#8 →
                  t.bits g [b0, b1, b2, b3, b4, b5, b6, b7, stop] =
                    ({ t with
                        phase := .bWaitStart
                        run := 0#32
                        parErr := t.parErr || !stop
                        buf := Memory.write t.buf t.bytes.toNat v
                        bytes := t.bytes + 1#16 }, .cont)))

/-- The flush: a PARITY_ODD frame ends with a partial byte of its pending bits, but for one pending bit
or the eighth, which is dropped; the other framings discard what is pending (43_stream_decoder.md
R364). -/
def Obligations.Flush : Prop :=
  ∀ (t : StreamState) (g : DecoderEnv),
    let pending := if t.phase = .sofStrip then 0#4 else t.bitcnt
    let k := if pending = 1#4 ∨ pending = 8#4 then pending - 1#4 else pending
    (g.row.framing = .parityOdd → 1 ≤ k.toNat →
        t.flush g =
          StreamState.store { t with lastbits := k } g (t.data &&& ((1#8 <<< k.toNat) - 1#8)))
      ∧ (g.row.framing ≠ .parityOdd ∨ k = 0#4 → t.flush g = ({ t with lastbits := 8#4 }, .cont))

/-! ## The frame assembler -/

/-- Delivery, the end of a frame, and what completes or abandons it. Each symbol of the delivery list
sets LAST_END and goes to the decoder; an answer COMPLETE or ABANDON clears the row, drops the rest of
the list and the pending end, and ends or abandons the frame (44_frame_assembler.md R401). A pending end
left over ends the frame in phase 7; the end flushes the decoder, then abandons, completes with at least
one byte, or is silent (R402). Completion and abandonment: the record pushed, what a poll frame sets of
its technology's timing, what a listen frame clears, and the cleared stream and frame state (R403, R405,
R406, R411, R414). What happens with no frame in progress is the model's choice (log 7) and is not
stated. -/
def Obligations.FrameEnds : Prop :=
  (∀ (s : State) (eof : Option Row), s.deliver eof [] = (s, eof))
    ∧ (∀ (s : State) (eof : Option Row) (c : Row) (sym : Symbol) (rest : List Symbol),
        s.fs.cand = some c →
        let a := s.st.accumulate
          ⟨c, s.params.bufCap, (s.tcfg.get c.tech).maxFrameSize, s.cfg.bIdleLimit⟩ sym
        let s1 : State := { s with st := a.1, fs := { s.fs with lastEnd := sym.stop } }
        let s2 : State := { s1 with ss := s.ss.set c SearchState.reset }
        (a.2 = .cont → s.deliver eof (sym :: rest) = s1.deliver eof rest)
          ∧ (a.2 = .complete → s.deliver eof (sym :: rest) = (s2.endFrame s.sig.clock, none))
          ∧ (a.2 = .abandon → s.deliver eof (sym :: rest) = (s2.abandon s.sig.clock, none)))
    ∧ (∀ (s : State) (eof : Option Row),
        (eof ≠ none → s.fs.asmStage = .accumulating →
            s.correlatorEof eof = s.endFrame s.sig.clock)
          ∧ (eof = none ∨ s.fs.asmStage ≠ .accumulating → s.correlatorEof eof = s))
    ∧ (∀ (s : State) (t : Clock) (c : Row), s.fs.cand = some c →
        let f := s.st.flush
          ⟨c, s.params.bufCap, (s.tcfg.get c.tech).maxFrameSize, s.cfg.bIdleLimit⟩
        let s1 : State := { s with st := f.1 }
        (f.2 = .abandon → s.endFrame t = s1.abandon t)
          ∧ (f.2 ≠ .abandon → 1 ≤ f.1.bytes.toNat → s.endFrame t = s1.complete)
          ∧ (f.2 ≠ .abandon → f.1.bytes = 0#16 →
              s.endFrame t = { s with st := StreamState.reset, fs := FrameState.reset }))
    ∧ (∀ s : State,
      let x := s.fs.tech
      let m := s.tim.get x
      s.complete =
        { s with
          queue := s.queue ++
            [{ kind := .frame, tech := x, dir := s.fs.dir, cand := s.fs.cand, rate := s.fs.rate
               parErr := s.st.parErr, crcErr := false, lastbits := s.st.lastbits
               bytes := (List.range s.st.bytes.toNat).map fun j => Memory.read s.st.buf j
               t0 := s.fs.frameStart, t1 := s.fs.lastEnd, cmd := m.lastCmd
               cmdValid := m.lastCmdValid }]
          tim := s.tim.set x
            (match s.fs.dir with
              | .poll =>
                { guardPoll := s.fs.frameStart + (s.tcfg.get x).requestGuardTime.setWidth 64
                  guardListen := s.fs.lastEnd + (s.tcfg.get x).frameGuardTime.setWidth 64
                  waitEnd :=
                    if (s.tcfg.get x).frameWaitingTime = 0#32 then m.waitEnd
                    else s.fs.lastEnd + (s.tcfg.get x).frameWaitingTime.setWidth 64
                  expect := decide ((s.tcfg.get x).frameWaitingTime ≠ 0#32)
                  lastCmd := Memory.read s.st.buf 0
                  lastCmdValid := true }
              | .listen => { m with expect := false })
          st := StreamState.reset
          fs := FrameState.reset })
    ∧ ∀ (s : State) (t : Clock),
        let x := s.fs.tech
        let m := s.tim.get x
        s.abandon t =
          { s with
            queue := s.queue ++
              [{ kind := .abandoned, tech := x, dir := s.fs.dir, cand := s.fs.cand
                 rate := s.fs.rate, parErr := false, crcErr := false, lastbits := 0#4, bytes := []
                 t0 := s.fs.frameStart, t1 := t, cmd := m.lastCmd, cmdValid := m.lastCmdValid }]
            tim := s.tim.set x
              (match s.fs.dir with
                | .poll => m
                | .listen => { m with expect := false })
            st := StreamState.reset
            fs := FrameState.reset }

/-- The timeout check of a technology and its record (44_frame_assembler.md R409, R410). -/
def Obligations.TimeoutCheck : Prop :=
  ∀ (s : State) (x : Tech),
    let m := s.tim.get x
    let timedOut :=
      m.expect = true ∧ m.waitEnd.toNat ≤ s.sig.clock.toNat
        ∧ ¬(s.fs.asmStage = .accumulating ∧ s.fs.tech = x)
        ∧ ∀ c : Row, c.tech = x → (s.ss.get c).stage = .idle
    (timedOut →
        s.timeoutCheck x =
          { s with
            queue := s.queue ++
              [{ kind := .timeout, tech := x, dir := .listen, cand := none, rate := 0#16
                 parErr := false, crcErr := false, lastbits := 0#4, bytes := []
                 t0 := m.waitEnd, t1 := s.sig.clock, cmd := m.lastCmd
                 cmdValid := m.lastCmdValid }]
            tim := s.tim.set x { m with expect := false } })
      ∧ (¬timedOut → s.timeoutCheck x = s)

/-- A tick pushes TIMEOUT records first, at most one of each technology in the order A, B, V, then at
most one FRAME or ABANDONED record: four in all (44_frame_assembler.md R412; 60_exceptions.md R536). -/
def Obligations.RecordsPerTick : Prop :=
  ∀ (s : State) (m : F32), ∃ timeouts ended : List Record,
    (s.tick m).queue = s.queue ++ timeouts ++ ended
      ∧ (∀ r ∈ timeouts, r.kind = .timeout)
      ∧ (timeouts.map (fun r => r.tech)).Sublist [Tech.a, Tech.b, Tech.v]
      ∧ ended.length ≤ 1
      ∧ ∀ r ∈ ended, r.kind = .frame ∨ r.kind = .abandoned

/-- Records leave only from the head by CMD_OUT_POP or all at once by a reset, join only at the tail,
at most four at a time and only by an accepted sample, and never change (45_host_interface.md R502,
44_frame_assembler.md R412). -/
def Obligations.QueueOrder : Prop :=
  ∀ (i : Instr) (s t : State), exec i s = .next t →
    t.queue = s.queue
      ∨ ((∃ m : F32, s.Accepts i m)
          ∧ ∃ new : List Record, t.queue = s.queue ++ new ∧ new.length ≤ 4)
      ∨ (i = .cmdOutPop ∧ ∃ r : Record, s.queue = r :: t.queue)
      ∨ ((i = .cmdReset ∨ (i = .cmdResetCapture ∧ s.run = false)
            ∨ (i = .cmdConfigure ∧ s.Configures))
          ∧ t.queue = [])

/-! ## Rules of the whole machine -/

/-- A set ERR bit stays set until WR_ERR writes a 1 to it or the block is reset (60_exceptions.md
R531). -/
def Obligations.ErrorsAreSticky : Prop :=
  ∀ (i : Instr) (s t : State) (j : Nat), exec i s = .next t →
    s.err.getLsbD j = true → t.err.getLsbD j = false →
    i = .cmdReset ∨ ∃ d : Word, i = .wrErr d ∧ d.getLsbD j = true

/-- One transaction sets at most one ERR bit, and one that sets a bit has no other effect, but that
WR_SAMPLE_Q clears I_VALID and a read returns 0 (60_exceptions.md R532). -/
def Obligations.OneErrorPerTransaction : Prop :=
  ∀ (i : Instr) (s t : State), i.wellFormed = true → exec i s = .next t →
    (∃ j : Nat, s.err.getLsbD j = false ∧ t.err.getLsbD j = true) →
    ∃ j : Nat, j < 8
      ∧ t = { s with
          err := s.err ||| 1#8 <<< j
          iValid := match i with
            | .wrSampleQ _ => false
            | _ => s.iValid
          response := if i.isWrite then none else some 0#32 }

/-- A read changes nothing but the value it returns, except that RD_OUT_DATA advances RPTR and a read of
the output registers that has nothing to return sets ERR.OUT (20_memory.md R106, R131). -/
def Obligations.ReadsHaveNoSideEffects : Prop :=
  ∀ (i : Instr) (s t : State), i.wellFormed = true → i.isWrite = false → exec i s = .next t →
    ∃ v : Word,
      t = { s with response := some v }
        ∨ (i = .rdOutData ∧ t = { s with rptr := s.rptr + 1#16, response := some v })
        ∨ (((∃ k : BitVec 4, i = .rdOut k) ∨ i = .rdOutData)
            ∧ t = { s with err := s.err ||| 0x40#8, response := some 0#32 })

/-- Only the tick of an accepted sample and the commands that reset the capture move the pipeline or the
clock, and only a successful CMD_CONFIGURE or a full reset changes the bank (00_scope.md R2,
41_candidate_bank.md R250, 45_host_interface.md R450). That no instruction changes the waiting inputs is
the model's choice (log 3). -/
def Obligations.PipelineMovesOnlyInTicks : Prop :=
  ∀ (i : Instr) (s t : State), exec i s = .next t →
    ((∃ m : F32, s.Accepts i m)
        ∨ i = .cmdReset ∨ (i = .cmdResetCapture ∧ s.run = false)
        ∨ (i = .cmdConfigure ∧ s.Configures)
        ∨ (t.sig = s.sig ∧ t.hist = s.hist ∧ t.ss = s.ss ∧ t.st = s.st ∧ t.fs = s.fs
            ∧ t.tim = s.tim))
      ∧ (i = .cmdReset ∨ (i = .cmdConfigure ∧ s.Configures) ∨ t.bank = s.bank)
      ∧ t.params = s.params ∧ t.inputs = s.inputs

/-! ## Invariants -/

/-- Every step keeps: at most one candidate LOCKED and every other IDLE then, the frame in progress is
the LOCKED candidate's, ACCUMULATING exactly while one is LOCKED, and IDLE candidates and the state
between frames clear (42_symbol_correlator.md R296; 44_frame_assembler.md R400, R421;
70_reset_and_hazards.md R582). -/
def Obligations.LockInvariantKept : Prop :=
  ∀ s t : State, s.Exclusive → s.FrameMatches → s.BetweenFrames → s.IdleClear → step s = .next t →
    t.Exclusive ∧ t.FrameMatches ∧ t.BetweenFrames ∧ t.IdleClear

/-- Every step keeps: the queue within OUTQ_DEPTH and RPTR within the head record
(44_frame_assembler.md R413; 45_host_interface.md R501). -/
def Obligations.QueueInvariantKept : Prop :=
  ∀ s t : State, s.QueueWithin → s.RptrWithin → step s = .next t → t.QueueWithin ∧ t.RptrWithin

/-- Every step keeps: the histories and the byte buffer in canonical form (log 8) within their sizes,
and the bytes of a frame and of every record within their limits (10_state.md R36, R40;
43_stream_decoder.md R363). -/
def Obligations.StorageInvariantKept : Prop :=
  ∀ s t : State, s.StoragesWf → s.BytesWithin → step s = .next t → t.StoragesWf ∧ t.BytesWithin

/-- Every step keeps: the block runs only while configured, and while configured the bank in use is the
one of a legal configuration register set (20_memory.md R109; 45_host_interface.md R472, R476). -/
def Obligations.ConfigurationInvariantKept : Prop :=
  ∀ s t : State, s.ConfigInUse → step s = .next t → t.ConfigInUse

end
end

