-- ==== Sys2Proof/Laws/State.lean ====
section
/-! SUPPORT. One lemma per field per update of the state, true by rfl, and the laws of the containers
indexed by a technology or a candidate row. -/

namespace Sys2Proof.Machine

-- One theorem after the other: in parallel each would hold a thread and its stack.
set_option Elab.async false

variable {α : Type}

@[simp] theorem PerTech.get_set_same (m : PerTech α) (x : Tech) (y : α) : (m.set x y).get x = y := by
  cases x <;> rfl

theorem PerTech.get_set_other (m : PerTech α) {x z : Tech} (y : α) (h : z ≠ x) :
    (m.set x y).get z = m.get z := by
  cases x <;> cases z <;> first | rfl | exact absurd rfl h

@[simp] theorem PerTech.get_build (f : Tech → α) (x : Tech) : (PerTech.build f).get x = f x := by
  cases x <;> rfl

/-- Two families over the technologies are equal when they agree everywhere. -/
theorem PerTech.ext_get {m m' : PerTech α} (h : ∀ x, m.get x = m'.get x) : m = m' := by
  obtain ⟨a, b, v⟩ := m
  obtain ⟨a', b', v'⟩ := m'
  have ha := h .a
  have hb := h .b
  have hv := h .v
  simp_all [PerTech.get]

@[simp] theorem PerRow.get_set_same (m : PerRow α) (c : Row) (y : α) : (m.set c y).get c = y := by
  cases c <;> rfl

theorem PerRow.get_set_other (m : PerRow α) {c d : Row} (y : α) (h : d ≠ c) :
    (m.set c y).get d = m.get d := by
  cases c <;> cases d <;> first | rfl | exact absurd rfl h

@[simp] theorem PerRow.get_build (f : Row → α) (c : Row) : (PerRow.build f).get c = f c := by
  cases c <;> rfl

/-- Two families over the rows are equal when they agree everywhere. -/
theorem PerRow.ext_get {m m' : PerRow α} (h : ∀ c, m.get c = m'.get c) : m = m' := by
  have h0 := h .aPoll848; have h1 := h .bPoll848; have h2 := h .aPoll424; have h3 := h .bPoll424
  have h4 := h .aPoll212; have h5 := h .bPoll212; have h6 := h .aPoll106; have h7 := h .bPoll106
  have h8 := h .aListen106; have h9 := h .vPoll26; have h10 := h .vListen26
  obtain ⟨_, _, _, _, _, _, _, _, _, _, _⟩ := m
  obtain ⟨_, _, _, _, _, _, _, _, _, _, _⟩ := m'
  simp_all [PerRow.get]

@[simp] theorem Row.mem_all (c : Row) : c ∈ Row.all := by cases c <;> decide

@[simp] theorem Tech.mem_all (x : Tech) : x ∈ Tech.all := by cases x <;> decide

@[simp] theorem Row.ofCode_code (c : Row) : Row.ofCode c.code = some c := by cases c <;> decide

@[simp] theorem Tech.ofCode_code (x : Tech) : Tech.ofCode x.code = some x := by cases x <;> decide

/-- The selectors 0 to 10 name a row, and no other does (30_encoding.md R147). -/
theorem Row.ofCode_isSome (c : BitVec 4) : (Row.ofCode c).isSome = decide (c.toNat ≤ 10) := by
  revert c; decide

/-- The selectors 0 to 2 name a technology (30_encoding.md R145). -/
theorem Tech.ofCode_isSome (x : BitVec 2) : (Tech.ofCode x).isSome = decide (x.toNat ≤ 2) := by
  revert x; decide

variable (s : State)

@[simp] theorem State.answer_params (v : Word) : (s.answer v).params = s.params := rfl
@[simp] theorem State.answer_run (v : Word) : (s.answer v).run = s.run := rfl
@[simp] theorem State.answer_configured (v : Word) : (s.answer v).configured = s.configured := rfl
@[simp] theorem State.answer_err (v : Word) : (s.answer v).err = s.err := rfl
@[simp] theorem State.answer_irqEn (v : Word) : (s.answer v).irqEn = s.irqEn := rfl
@[simp] theorem State.answer_iLatch (v : Word) : (s.answer v).iLatch = s.iLatch := rfl
@[simp] theorem State.answer_iValid (v : Word) : (s.answer v).iValid = s.iValid := rfl
@[simp] theorem State.answer_histChan (v : Word) : (s.answer v).histChan = s.histChan := rfl
@[simp] theorem State.answer_histIndex (v : Word) : (s.answer v).histIndex = s.histIndex := rfl
@[simp] theorem State.answer_cfg (v : Word) : (s.answer v).cfg = s.cfg := rfl
@[simp] theorem State.answer_tcfg (v : Word) : (s.answer v).tcfg = s.tcfg := rfl
@[simp] theorem State.answer_sig (v : Word) : (s.answer v).sig = s.sig := rfl
@[simp] theorem State.answer_hist (v : Word) : (s.answer v).hist = s.hist := rfl
@[simp] theorem State.answer_bank (v : Word) : (s.answer v).bank = s.bank := rfl
@[simp] theorem State.answer_ss (v : Word) : (s.answer v).ss = s.ss := rfl
@[simp] theorem State.answer_st (v : Word) : (s.answer v).st = s.st := rfl
@[simp] theorem State.answer_fs (v : Word) : (s.answer v).fs = s.fs := rfl
@[simp] theorem State.answer_tim (v : Word) : (s.answer v).tim = s.tim := rfl
@[simp] theorem State.answer_queue (v : Word) : (s.answer v).queue = s.queue := rfl
@[simp] theorem State.answer_rptr (v : Word) : (s.answer v).rptr = s.rptr := rfl
@[simp] theorem State.answer_inputs (v : Word) : (s.answer v).inputs = s.inputs := rfl
@[simp] theorem State.answer_response (v : Word) : (s.answer v).response = some v := rfl

@[simp] theorem State.quiet_params : s.quiet.params = s.params := rfl
@[simp] theorem State.quiet_run : s.quiet.run = s.run := rfl
@[simp] theorem State.quiet_configured : s.quiet.configured = s.configured := rfl
@[simp] theorem State.quiet_err : s.quiet.err = s.err := rfl
@[simp] theorem State.quiet_irqEn : s.quiet.irqEn = s.irqEn := rfl
@[simp] theorem State.quiet_iLatch : s.quiet.iLatch = s.iLatch := rfl
@[simp] theorem State.quiet_iValid : s.quiet.iValid = s.iValid := rfl
@[simp] theorem State.quiet_histChan : s.quiet.histChan = s.histChan := rfl
@[simp] theorem State.quiet_histIndex : s.quiet.histIndex = s.histIndex := rfl
@[simp] theorem State.quiet_cfg : s.quiet.cfg = s.cfg := rfl
@[simp] theorem State.quiet_tcfg : s.quiet.tcfg = s.tcfg := rfl
@[simp] theorem State.quiet_sig : s.quiet.sig = s.sig := rfl
@[simp] theorem State.quiet_hist : s.quiet.hist = s.hist := rfl
@[simp] theorem State.quiet_bank : s.quiet.bank = s.bank := rfl
@[simp] theorem State.quiet_ss : s.quiet.ss = s.ss := rfl
@[simp] theorem State.quiet_st : s.quiet.st = s.st := rfl
@[simp] theorem State.quiet_fs : s.quiet.fs = s.fs := rfl
@[simp] theorem State.quiet_tim : s.quiet.tim = s.tim := rfl
@[simp] theorem State.quiet_queue : s.quiet.queue = s.queue := rfl
@[simp] theorem State.quiet_rptr : s.quiet.rptr = s.rptr := rfl
@[simp] theorem State.quiet_inputs : s.quiet.inputs = s.inputs := rfl
@[simp] theorem State.quiet_response : s.quiet.response = none := rfl

@[simp] theorem State.raise_params (e : ErrBit) : (s.raise e).params = s.params := rfl
@[simp] theorem State.raise_run (e : ErrBit) : (s.raise e).run = s.run := rfl
@[simp] theorem State.raise_configured (e : ErrBit) : (s.raise e).configured = s.configured := rfl
@[simp] theorem State.raise_err (e : ErrBit) : (s.raise e).err = s.err ||| e.mask := rfl
@[simp] theorem State.raise_irqEn (e : ErrBit) : (s.raise e).irqEn = s.irqEn := rfl
@[simp] theorem State.raise_iLatch (e : ErrBit) : (s.raise e).iLatch = s.iLatch := rfl
@[simp] theorem State.raise_iValid (e : ErrBit) : (s.raise e).iValid = s.iValid := rfl
@[simp] theorem State.raise_histChan (e : ErrBit) : (s.raise e).histChan = s.histChan := rfl
@[simp] theorem State.raise_histIndex (e : ErrBit) : (s.raise e).histIndex = s.histIndex := rfl
@[simp] theorem State.raise_cfg (e : ErrBit) : (s.raise e).cfg = s.cfg := rfl
@[simp] theorem State.raise_tcfg (e : ErrBit) : (s.raise e).tcfg = s.tcfg := rfl
@[simp] theorem State.raise_sig (e : ErrBit) : (s.raise e).sig = s.sig := rfl
@[simp] theorem State.raise_hist (e : ErrBit) : (s.raise e).hist = s.hist := rfl
@[simp] theorem State.raise_bank (e : ErrBit) : (s.raise e).bank = s.bank := rfl
@[simp] theorem State.raise_ss (e : ErrBit) : (s.raise e).ss = s.ss := rfl
@[simp] theorem State.raise_st (e : ErrBit) : (s.raise e).st = s.st := rfl
@[simp] theorem State.raise_fs (e : ErrBit) : (s.raise e).fs = s.fs := rfl
@[simp] theorem State.raise_tim (e : ErrBit) : (s.raise e).tim = s.tim := rfl
@[simp] theorem State.raise_queue (e : ErrBit) : (s.raise e).queue = s.queue := rfl
@[simp] theorem State.raise_rptr (e : ErrBit) : (s.raise e).rptr = s.rptr := rfl
@[simp] theorem State.raise_inputs (e : ErrBit) : (s.raise e).inputs = s.inputs := rfl
@[simp] theorem State.raise_response (e : ErrBit) : (s.raise e).response = s.response := rfl

@[simp] theorem State.push_params (r : Record) : (s.push r).params = s.params := rfl
@[simp] theorem State.push_run (r : Record) : (s.push r).run = s.run := rfl
@[simp] theorem State.push_configured (r : Record) : (s.push r).configured = s.configured := rfl
@[simp] theorem State.push_err (r : Record) : (s.push r).err = s.err := rfl
@[simp] theorem State.push_irqEn (r : Record) : (s.push r).irqEn = s.irqEn := rfl
@[simp] theorem State.push_iLatch (r : Record) : (s.push r).iLatch = s.iLatch := rfl
@[simp] theorem State.push_iValid (r : Record) : (s.push r).iValid = s.iValid := rfl
@[simp] theorem State.push_histChan (r : Record) : (s.push r).histChan = s.histChan := rfl
@[simp] theorem State.push_histIndex (r : Record) : (s.push r).histIndex = s.histIndex := rfl
@[simp] theorem State.push_cfg (r : Record) : (s.push r).cfg = s.cfg := rfl
@[simp] theorem State.push_tcfg (r : Record) : (s.push r).tcfg = s.tcfg := rfl
@[simp] theorem State.push_sig (r : Record) : (s.push r).sig = s.sig := rfl
@[simp] theorem State.push_hist (r : Record) : (s.push r).hist = s.hist := rfl
@[simp] theorem State.push_bank (r : Record) : (s.push r).bank = s.bank := rfl
@[simp] theorem State.push_ss (r : Record) : (s.push r).ss = s.ss := rfl
@[simp] theorem State.push_st (r : Record) : (s.push r).st = s.st := rfl
@[simp] theorem State.push_fs (r : Record) : (s.push r).fs = s.fs := rfl
@[simp] theorem State.push_tim (r : Record) : (s.push r).tim = s.tim := rfl
@[simp] theorem State.push_queue (r : Record) : (s.push r).queue = s.queue ++ [r] := rfl
@[simp] theorem State.push_rptr (r : Record) : (s.push r).rptr = s.rptr := rfl
@[simp] theorem State.push_inputs (r : Record) : (s.push r).inputs = s.inputs := rfl
@[simp] theorem State.push_response (r : Record) : (s.push r).response = s.response := rfl

@[simp] theorem State.captureReset_params : s.captureReset.params = s.params := rfl
@[simp] theorem State.captureReset_run : s.captureReset.run = s.run := rfl
@[simp] theorem State.captureReset_configured : s.captureReset.configured = s.configured := rfl
@[simp] theorem State.captureReset_err : s.captureReset.err = s.err := rfl
@[simp] theorem State.captureReset_irqEn : s.captureReset.irqEn = s.irqEn := rfl
@[simp] theorem State.captureReset_iLatch : s.captureReset.iLatch = 0#32 := rfl
@[simp] theorem State.captureReset_iValid : s.captureReset.iValid = false := rfl
@[simp] theorem State.captureReset_histChan : s.captureReset.histChan = s.histChan := rfl
@[simp] theorem State.captureReset_histIndex : s.captureReset.histIndex = s.histIndex := rfl
@[simp] theorem State.captureReset_cfg : s.captureReset.cfg = s.cfg := rfl
@[simp] theorem State.captureReset_tcfg : s.captureReset.tcfg = s.tcfg := rfl
@[simp] theorem State.captureReset_sig : s.captureReset.sig = SignalState.reset := rfl
@[simp] theorem State.captureReset_hist : s.captureReset.hist = Histories.reset := rfl
@[simp] theorem State.captureReset_bank : s.captureReset.bank = s.bank := rfl
@[simp] theorem State.captureReset_ss :
    s.captureReset.ss =
      PerRow.build fun _ => SearchState.reset := rfl
@[simp] theorem State.captureReset_st : s.captureReset.st = StreamState.reset := rfl
@[simp] theorem State.captureReset_fs : s.captureReset.fs = FrameState.reset := rfl
@[simp] theorem State.captureReset_tim :
    s.captureReset.tim =
      PerTech.build fun _ => Timing.reset := rfl
@[simp] theorem State.captureReset_queue : s.captureReset.queue = [] := rfl
@[simp] theorem State.captureReset_rptr : s.captureReset.rptr = 0#16 := rfl
@[simp] theorem State.captureReset_inputs : s.captureReset.inputs = s.inputs := rfl
@[simp] theorem State.captureReset_response : s.captureReset.response = s.response := rfl

@[simp] theorem State.fullReset_params : s.fullReset.params = s.params := rfl
@[simp] theorem State.fullReset_run : s.fullReset.run = State.reset.run := rfl
@[simp] theorem State.fullReset_configured : s.fullReset.configured = State.reset.configured := rfl
@[simp] theorem State.fullReset_err : s.fullReset.err = State.reset.err := rfl
@[simp] theorem State.fullReset_irqEn : s.fullReset.irqEn = State.reset.irqEn := rfl
@[simp] theorem State.fullReset_iLatch : s.fullReset.iLatch = State.reset.iLatch := rfl
@[simp] theorem State.fullReset_iValid : s.fullReset.iValid = State.reset.iValid := rfl
@[simp] theorem State.fullReset_histChan : s.fullReset.histChan = State.reset.histChan := rfl
@[simp] theorem State.fullReset_histIndex : s.fullReset.histIndex = State.reset.histIndex := rfl
@[simp] theorem State.fullReset_cfg : s.fullReset.cfg = State.reset.cfg := rfl
@[simp] theorem State.fullReset_tcfg : s.fullReset.tcfg = State.reset.tcfg := rfl
@[simp] theorem State.fullReset_sig : s.fullReset.sig = State.reset.sig := rfl
@[simp] theorem State.fullReset_hist : s.fullReset.hist = State.reset.hist := rfl
@[simp] theorem State.fullReset_bank : s.fullReset.bank = State.reset.bank := rfl
@[simp] theorem State.fullReset_ss : s.fullReset.ss = State.reset.ss := rfl
@[simp] theorem State.fullReset_st : s.fullReset.st = State.reset.st := rfl
@[simp] theorem State.fullReset_fs : s.fullReset.fs = State.reset.fs := rfl
@[simp] theorem State.fullReset_tim : s.fullReset.tim = State.reset.tim := rfl
@[simp] theorem State.fullReset_queue : s.fullReset.queue = State.reset.queue := rfl
@[simp] theorem State.fullReset_rptr : s.fullReset.rptr = State.reset.rptr := rfl
@[simp] theorem State.fullReset_inputs : s.fullReset.inputs = s.inputs := rfl
@[simp] theorem State.fullReset_response : s.fullReset.response = State.reset.response := rfl

@[simp] theorem State.outEmpty_params : s.outEmpty.params = s.params := rfl
@[simp] theorem State.outEmpty_run : s.outEmpty.run = s.run := rfl
@[simp] theorem State.outEmpty_configured : s.outEmpty.configured = s.configured := rfl
@[simp] theorem State.outEmpty_err : s.outEmpty.err = s.err ||| ErrBit.mask .out := rfl
@[simp] theorem State.outEmpty_irqEn : s.outEmpty.irqEn = s.irqEn := rfl
@[simp] theorem State.outEmpty_iLatch : s.outEmpty.iLatch = s.iLatch := rfl
@[simp] theorem State.outEmpty_iValid : s.outEmpty.iValid = s.iValid := rfl
@[simp] theorem State.outEmpty_histChan : s.outEmpty.histChan = s.histChan := rfl
@[simp] theorem State.outEmpty_histIndex : s.outEmpty.histIndex = s.histIndex := rfl
@[simp] theorem State.outEmpty_cfg : s.outEmpty.cfg = s.cfg := rfl
@[simp] theorem State.outEmpty_tcfg : s.outEmpty.tcfg = s.tcfg := rfl
@[simp] theorem State.outEmpty_sig : s.outEmpty.sig = s.sig := rfl
@[simp] theorem State.outEmpty_hist : s.outEmpty.hist = s.hist := rfl
@[simp] theorem State.outEmpty_bank : s.outEmpty.bank = s.bank := rfl
@[simp] theorem State.outEmpty_ss : s.outEmpty.ss = s.ss := rfl
@[simp] theorem State.outEmpty_st : s.outEmpty.st = s.st := rfl
@[simp] theorem State.outEmpty_fs : s.outEmpty.fs = s.fs := rfl
@[simp] theorem State.outEmpty_tim : s.outEmpty.tim = s.tim := rfl
@[simp] theorem State.outEmpty_queue : s.outEmpty.queue = s.queue := rfl
@[simp] theorem State.outEmpty_rptr : s.outEmpty.rptr = s.rptr := rfl
@[simp] theorem State.outEmpty_inputs : s.outEmpty.inputs = s.inputs := rfl
@[simp] theorem State.outEmpty_response : s.outEmpty.response = some 0#32 := rfl

@[simp] theorem State.offer_params (i : HostInput) : (s.offer i).params = s.params := rfl
@[simp] theorem State.offer_run (i : HostInput) : (s.offer i).run = s.run := rfl
@[simp] theorem State.offer_configured (i : HostInput) :
    (s.offer i).configured =
      s.configured := rfl
@[simp] theorem State.offer_err (i : HostInput) : (s.offer i).err = s.err := rfl
@[simp] theorem State.offer_irqEn (i : HostInput) : (s.offer i).irqEn = s.irqEn := rfl
@[simp] theorem State.offer_iLatch (i : HostInput) : (s.offer i).iLatch = s.iLatch := rfl
@[simp] theorem State.offer_iValid (i : HostInput) : (s.offer i).iValid = s.iValid := rfl
@[simp] theorem State.offer_histChan (i : HostInput) : (s.offer i).histChan = s.histChan := rfl
@[simp] theorem State.offer_histIndex (i : HostInput) : (s.offer i).histIndex = s.histIndex := rfl
@[simp] theorem State.offer_cfg (i : HostInput) : (s.offer i).cfg = s.cfg := rfl
@[simp] theorem State.offer_tcfg (i : HostInput) : (s.offer i).tcfg = s.tcfg := rfl
@[simp] theorem State.offer_sig (i : HostInput) : (s.offer i).sig = s.sig := rfl
@[simp] theorem State.offer_hist (i : HostInput) : (s.offer i).hist = s.hist := rfl
@[simp] theorem State.offer_bank (i : HostInput) : (s.offer i).bank = s.bank := rfl
@[simp] theorem State.offer_ss (i : HostInput) : (s.offer i).ss = s.ss := rfl
@[simp] theorem State.offer_st (i : HostInput) : (s.offer i).st = s.st := rfl
@[simp] theorem State.offer_fs (i : HostInput) : (s.offer i).fs = s.fs := rfl
@[simp] theorem State.offer_tim (i : HostInput) : (s.offer i).tim = s.tim := rfl
@[simp] theorem State.offer_queue (i : HostInput) : (s.offer i).queue = s.queue := rfl
@[simp] theorem State.offer_rptr (i : HostInput) : (s.offer i).rptr = s.rptr := rfl
@[simp] theorem State.offer_inputs (i : HostInput) : (s.offer i).inputs = i :: s.inputs := rfl
@[simp] theorem State.offer_response (i : HostInput) : (s.offer i).response = s.response := rfl

@[simp] theorem State.clearFrame_params : s.clearFrame.params = s.params := rfl
@[simp] theorem State.clearFrame_run : s.clearFrame.run = s.run := rfl
@[simp] theorem State.clearFrame_configured : s.clearFrame.configured = s.configured := rfl
@[simp] theorem State.clearFrame_err : s.clearFrame.err = s.err := rfl
@[simp] theorem State.clearFrame_irqEn : s.clearFrame.irqEn = s.irqEn := rfl
@[simp] theorem State.clearFrame_iLatch : s.clearFrame.iLatch = s.iLatch := rfl
@[simp] theorem State.clearFrame_iValid : s.clearFrame.iValid = s.iValid := rfl
@[simp] theorem State.clearFrame_histChan : s.clearFrame.histChan = s.histChan := rfl
@[simp] theorem State.clearFrame_histIndex : s.clearFrame.histIndex = s.histIndex := rfl
@[simp] theorem State.clearFrame_cfg : s.clearFrame.cfg = s.cfg := rfl
@[simp] theorem State.clearFrame_tcfg : s.clearFrame.tcfg = s.tcfg := rfl
@[simp] theorem State.clearFrame_sig : s.clearFrame.sig = s.sig := rfl
@[simp] theorem State.clearFrame_hist : s.clearFrame.hist = s.hist := rfl
@[simp] theorem State.clearFrame_bank : s.clearFrame.bank = s.bank := rfl
@[simp] theorem State.clearFrame_ss : s.clearFrame.ss = s.ss := rfl
@[simp] theorem State.clearFrame_st : s.clearFrame.st = StreamState.reset := rfl
@[simp] theorem State.clearFrame_fs : s.clearFrame.fs = FrameState.reset := rfl
@[simp] theorem State.clearFrame_tim : s.clearFrame.tim = s.tim := rfl
@[simp] theorem State.clearFrame_queue : s.clearFrame.queue = s.queue := rfl
@[simp] theorem State.clearFrame_rptr : s.clearFrame.rptr = s.rptr := rfl
@[simp] theorem State.clearFrame_inputs : s.clearFrame.inputs = s.inputs := rfl
@[simp] theorem State.clearFrame_response : s.clearFrame.response = s.response := rfl

@[simp] theorem State.unexpect_params (x : Tech) : (s.unexpect x).params = s.params := rfl
@[simp] theorem State.unexpect_run (x : Tech) : (s.unexpect x).run = s.run := rfl
@[simp] theorem State.unexpect_configured (x : Tech) :
    (s.unexpect x).configured =
      s.configured := rfl
@[simp] theorem State.unexpect_err (x : Tech) : (s.unexpect x).err = s.err := rfl
@[simp] theorem State.unexpect_irqEn (x : Tech) : (s.unexpect x).irqEn = s.irqEn := rfl
@[simp] theorem State.unexpect_iLatch (x : Tech) : (s.unexpect x).iLatch = s.iLatch := rfl
@[simp] theorem State.unexpect_iValid (x : Tech) : (s.unexpect x).iValid = s.iValid := rfl
@[simp] theorem State.unexpect_histChan (x : Tech) : (s.unexpect x).histChan = s.histChan := rfl
@[simp] theorem State.unexpect_histIndex (x : Tech) : (s.unexpect x).histIndex = s.histIndex := rfl
@[simp] theorem State.unexpect_cfg (x : Tech) : (s.unexpect x).cfg = s.cfg := rfl
@[simp] theorem State.unexpect_tcfg (x : Tech) : (s.unexpect x).tcfg = s.tcfg := rfl
@[simp] theorem State.unexpect_sig (x : Tech) : (s.unexpect x).sig = s.sig := rfl
@[simp] theorem State.unexpect_hist (x : Tech) : (s.unexpect x).hist = s.hist := rfl
@[simp] theorem State.unexpect_bank (x : Tech) : (s.unexpect x).bank = s.bank := rfl
@[simp] theorem State.unexpect_ss (x : Tech) : (s.unexpect x).ss = s.ss := rfl
@[simp] theorem State.unexpect_st (x : Tech) : (s.unexpect x).st = s.st := rfl
@[simp] theorem State.unexpect_fs (x : Tech) : (s.unexpect x).fs = s.fs := rfl
@[simp] theorem State.unexpect_tim (x : Tech) :
    (s.unexpect x).tim =
      s.tim.set x { s.tim.get x with expect := false } := rfl
@[simp] theorem State.unexpect_queue (x : Tech) : (s.unexpect x).queue = s.queue := rfl
@[simp] theorem State.unexpect_rptr (x : Tech) : (s.unexpect x).rptr = s.rptr := rfl
@[simp] theorem State.unexpect_inputs (x : Tech) : (s.unexpect x).inputs = s.inputs := rfl
@[simp] theorem State.unexpect_response (x : Tech) : (s.unexpect x).response = s.response := rfl

@[simp] theorem State.pollDone_params (x : Tech) : (s.pollDone x).params = s.params := rfl
@[simp] theorem State.pollDone_run (x : Tech) : (s.pollDone x).run = s.run := rfl
@[simp] theorem State.pollDone_configured (x : Tech) :
    (s.pollDone x).configured =
      s.configured := rfl
@[simp] theorem State.pollDone_err (x : Tech) : (s.pollDone x).err = s.err := rfl
@[simp] theorem State.pollDone_irqEn (x : Tech) : (s.pollDone x).irqEn = s.irqEn := rfl
@[simp] theorem State.pollDone_iLatch (x : Tech) : (s.pollDone x).iLatch = s.iLatch := rfl
@[simp] theorem State.pollDone_iValid (x : Tech) : (s.pollDone x).iValid = s.iValid := rfl
@[simp] theorem State.pollDone_histChan (x : Tech) : (s.pollDone x).histChan = s.histChan := rfl
@[simp] theorem State.pollDone_histIndex (x : Tech) : (s.pollDone x).histIndex = s.histIndex := rfl
@[simp] theorem State.pollDone_cfg (x : Tech) : (s.pollDone x).cfg = s.cfg := rfl
@[simp] theorem State.pollDone_tcfg (x : Tech) : (s.pollDone x).tcfg = s.tcfg := rfl
@[simp] theorem State.pollDone_sig (x : Tech) : (s.pollDone x).sig = s.sig := rfl
@[simp] theorem State.pollDone_hist (x : Tech) : (s.pollDone x).hist = s.hist := rfl
@[simp] theorem State.pollDone_bank (x : Tech) : (s.pollDone x).bank = s.bank := rfl
@[simp] theorem State.pollDone_ss (x : Tech) : (s.pollDone x).ss = s.ss := rfl
@[simp] theorem State.pollDone_st (x : Tech) : (s.pollDone x).st = s.st := rfl
@[simp] theorem State.pollDone_fs (x : Tech) : (s.pollDone x).fs = s.fs := rfl
@[simp] theorem State.pollDone_tim (x : Tech) :
    (s.pollDone x).tim =
      s.tim.set x ((s.tim.get x).pollDone (s.tcfg.get x) s.fs (Memory.read s.st.buf 0)) := rfl
@[simp] theorem State.pollDone_queue (x : Tech) : (s.pollDone x).queue = s.queue := rfl
@[simp] theorem State.pollDone_rptr (x : Tech) : (s.pollDone x).rptr = s.rptr := rfl
@[simp] theorem State.pollDone_inputs (x : Tech) : (s.pollDone x).inputs = s.inputs := rfl
@[simp] theorem State.pollDone_response (x : Tech) : (s.pollDone x).response = s.response := rfl

@[simp] theorem State.lockRow_params (c : Row) : (s.lockRow c).params = s.params := rfl
@[simp] theorem State.lockRow_run (c : Row) : (s.lockRow c).run = s.run := rfl
@[simp] theorem State.lockRow_configured (c : Row) : (s.lockRow c).configured = s.configured := rfl
@[simp] theorem State.lockRow_err (c : Row) : (s.lockRow c).err = s.err := rfl
@[simp] theorem State.lockRow_irqEn (c : Row) : (s.lockRow c).irqEn = s.irqEn := rfl
@[simp] theorem State.lockRow_iLatch (c : Row) : (s.lockRow c).iLatch = s.iLatch := rfl
@[simp] theorem State.lockRow_iValid (c : Row) : (s.lockRow c).iValid = s.iValid := rfl
@[simp] theorem State.lockRow_histChan (c : Row) : (s.lockRow c).histChan = s.histChan := rfl
@[simp] theorem State.lockRow_histIndex (c : Row) : (s.lockRow c).histIndex = s.histIndex := rfl
@[simp] theorem State.lockRow_cfg (c : Row) : (s.lockRow c).cfg = s.cfg := rfl
@[simp] theorem State.lockRow_tcfg (c : Row) : (s.lockRow c).tcfg = s.tcfg := rfl
@[simp] theorem State.lockRow_sig (c : Row) : (s.lockRow c).sig = s.sig := rfl
@[simp] theorem State.lockRow_hist (c : Row) : (s.lockRow c).hist = s.hist := rfl
@[simp] theorem State.lockRow_bank (c : Row) : (s.lockRow c).bank = s.bank := rfl
@[simp] theorem State.lockRow_ss (c : Row) :
    (s.lockRow c).ss =
      PerRow.build fun d => if d = c then { s.ss.get c with stage := .locked, miss := 0#2, hold := false } else SearchState.reset := rfl
@[simp] theorem State.lockRow_st (c : Row) : (s.lockRow c).st = s.st := rfl
@[simp] theorem State.lockRow_fs (c : Row) : (s.lockRow c).fs = s.fs := rfl
@[simp] theorem State.lockRow_tim (c : Row) : (s.lockRow c).tim = s.tim := rfl
@[simp] theorem State.lockRow_queue (c : Row) : (s.lockRow c).queue = s.queue := rfl
@[simp] theorem State.lockRow_rptr (c : Row) : (s.lockRow c).rptr = s.rptr := rfl
@[simp] theorem State.lockRow_inputs (c : Row) : (s.lockRow c).inputs = s.inputs := rfl
@[simp] theorem State.lockRow_response (c : Row) : (s.lockRow c).response = s.response := rfl

@[simp] theorem State.frameStart_params (c : Row) : (s.frameStart c).params = s.params := rfl
@[simp] theorem State.frameStart_run (c : Row) : (s.frameStart c).run = s.run := rfl
@[simp] theorem State.frameStart_configured (c : Row) :
    (s.frameStart c).configured =
      s.configured := rfl
@[simp] theorem State.frameStart_err (c : Row) : (s.frameStart c).err = s.err := rfl
@[simp] theorem State.frameStart_irqEn (c : Row) : (s.frameStart c).irqEn = s.irqEn := rfl
@[simp] theorem State.frameStart_iLatch (c : Row) : (s.frameStart c).iLatch = s.iLatch := rfl
@[simp] theorem State.frameStart_iValid (c : Row) : (s.frameStart c).iValid = s.iValid := rfl
@[simp] theorem State.frameStart_histChan (c : Row) : (s.frameStart c).histChan = s.histChan := rfl
@[simp] theorem State.frameStart_histIndex (c : Row) :
    (s.frameStart c).histIndex =
      s.histIndex := rfl
@[simp] theorem State.frameStart_cfg (c : Row) : (s.frameStart c).cfg = s.cfg := rfl
@[simp] theorem State.frameStart_tcfg (c : Row) : (s.frameStart c).tcfg = s.tcfg := rfl
@[simp] theorem State.frameStart_sig (c : Row) : (s.frameStart c).sig = s.sig := rfl
@[simp] theorem State.frameStart_hist (c : Row) : (s.frameStart c).hist = s.hist := rfl
@[simp] theorem State.frameStart_bank (c : Row) : (s.frameStart c).bank = s.bank := rfl
@[simp] theorem State.frameStart_ss (c : Row) : (s.frameStart c).ss = s.ss := rfl
@[simp] theorem State.frameStart_st (c : Row) :
    (s.frameStart c).st =
      StreamState.frameStart c.framing := rfl
@[simp] theorem State.frameStart_fs (c : Row) :
    (s.frameStart c).fs =
      ⟨.accumulating, some c, c.tech, c.dir, c.rate, (s.ss.get c).sym1Start, (s.ss.get c).sym1Start⟩ := rfl
@[simp] theorem State.frameStart_tim (c : Row) : (s.frameStart c).tim = s.tim := rfl
@[simp] theorem State.frameStart_queue (c : Row) : (s.frameStart c).queue = s.queue := rfl
@[simp] theorem State.frameStart_rptr (c : Row) : (s.frameStart c).rptr = s.rptr := rfl
@[simp] theorem State.frameStart_inputs (c : Row) : (s.frameStart c).inputs = s.inputs := rfl
@[simp] theorem State.frameStart_response (c : Row) : (s.frameStart c).response = s.response := rfl

@[simp] theorem State.startupGuard_params : s.startupGuard.params = s.params := rfl
@[simp] theorem State.startupGuard_run : s.startupGuard.run = s.run := rfl
@[simp] theorem State.startupGuard_configured : s.startupGuard.configured = s.configured := rfl
@[simp] theorem State.startupGuard_err : s.startupGuard.err = s.err := rfl
@[simp] theorem State.startupGuard_irqEn : s.startupGuard.irqEn = s.irqEn := rfl
@[simp] theorem State.startupGuard_iLatch : s.startupGuard.iLatch = s.iLatch := rfl
@[simp] theorem State.startupGuard_iValid : s.startupGuard.iValid = s.iValid := rfl
@[simp] theorem State.startupGuard_histChan : s.startupGuard.histChan = s.histChan := rfl
@[simp] theorem State.startupGuard_histIndex : s.startupGuard.histIndex = s.histIndex := rfl
@[simp] theorem State.startupGuard_cfg : s.startupGuard.cfg = s.cfg := rfl
@[simp] theorem State.startupGuard_tcfg : s.startupGuard.tcfg = s.tcfg := rfl
@[simp] theorem State.startupGuard_sig : s.startupGuard.sig = s.sig := rfl
@[simp] theorem State.startupGuard_hist : s.startupGuard.hist = s.hist := rfl
@[simp] theorem State.startupGuard_bank : s.startupGuard.bank = s.bank := rfl
@[simp] theorem State.startupGuard_ss : s.startupGuard.ss = s.ss := rfl
@[simp] theorem State.startupGuard_st : s.startupGuard.st = s.st := rfl
@[simp] theorem State.startupGuard_fs : s.startupGuard.fs = s.fs := rfl
@[simp] theorem State.startupGuard_tim :
    s.startupGuard.tim =
      PerTech.build fun x => { s.tim.get x with guardPoll := (s.tcfg.get x).startupGuardTime.setWidth 64, guardListen := (s.tcfg.get x).startupGuardTime.setWidth 64 } := rfl
@[simp] theorem State.startupGuard_queue : s.startupGuard.queue = s.queue := rfl
@[simp] theorem State.startupGuard_rptr : s.startupGuard.rptr = s.rptr := rfl
@[simp] theorem State.startupGuard_inputs : s.startupGuard.inputs = s.inputs := rfl
@[simp] theorem State.startupGuard_response : s.startupGuard.response = s.response := rfl

@[simp] theorem State.conditioner_params (m : F32) : (s.conditioner m).params = s.params := rfl
@[simp] theorem State.conditioner_run (m : F32) : (s.conditioner m).run = s.run := rfl
@[simp] theorem State.conditioner_configured (m : F32) :
    (s.conditioner m).configured =
      s.configured := rfl
@[simp] theorem State.conditioner_err (m : F32) : (s.conditioner m).err = s.err := rfl
@[simp] theorem State.conditioner_irqEn (m : F32) : (s.conditioner m).irqEn = s.irqEn := rfl
@[simp] theorem State.conditioner_iLatch (m : F32) : (s.conditioner m).iLatch = s.iLatch := rfl
@[simp] theorem State.conditioner_iValid (m : F32) : (s.conditioner m).iValid = s.iValid := rfl
@[simp] theorem State.conditioner_histChan (m : F32) :
    (s.conditioner m).histChan =
      s.histChan := rfl
@[simp] theorem State.conditioner_histIndex (m : F32) :
    (s.conditioner m).histIndex =
      s.histIndex := rfl
@[simp] theorem State.conditioner_cfg (m : F32) : (s.conditioner m).cfg = s.cfg := rfl
@[simp] theorem State.conditioner_tcfg (m : F32) : (s.conditioner m).tcfg = s.tcfg := rfl
@[simp] theorem State.conditioner_sig (m : F32) :
    (s.conditioner m).sig =
      s.sig.condition s.cfg m := rfl
@[simp] theorem State.conditioner_hist (m : F32) :
    (s.conditioner m).hist =
      s.hist.record (ringIndex s.params s.sig.clock) (s.sig.condition s.cfg m) := rfl
@[simp] theorem State.conditioner_bank (m : F32) : (s.conditioner m).bank = s.bank := rfl
@[simp] theorem State.conditioner_ss (m : F32) : (s.conditioner m).ss = s.ss := rfl
@[simp] theorem State.conditioner_st (m : F32) : (s.conditioner m).st = s.st := rfl
@[simp] theorem State.conditioner_fs (m : F32) : (s.conditioner m).fs = s.fs := rfl
@[simp] theorem State.conditioner_tim (m : F32) : (s.conditioner m).tim = s.tim := rfl
@[simp] theorem State.conditioner_queue (m : F32) : (s.conditioner m).queue = s.queue := rfl
@[simp] theorem State.conditioner_rptr (m : F32) : (s.conditioner m).rptr = s.rptr := rfl
@[simp] theorem State.conditioner_inputs (m : F32) : (s.conditioner m).inputs = s.inputs := rfl
@[simp] theorem State.conditioner_response (m : F32) :
    (s.conditioner m).response =
      s.response := rfl

@[simp] theorem State.advanceClock_params : s.advanceClock.params = s.params := rfl
@[simp] theorem State.advanceClock_run : s.advanceClock.run = s.run := rfl
@[simp] theorem State.advanceClock_configured : s.advanceClock.configured = s.configured := rfl
@[simp] theorem State.advanceClock_err : s.advanceClock.err = s.err := rfl
@[simp] theorem State.advanceClock_irqEn : s.advanceClock.irqEn = s.irqEn := rfl
@[simp] theorem State.advanceClock_iLatch : s.advanceClock.iLatch = s.iLatch := rfl
@[simp] theorem State.advanceClock_iValid : s.advanceClock.iValid = s.iValid := rfl
@[simp] theorem State.advanceClock_histChan : s.advanceClock.histChan = s.histChan := rfl
@[simp] theorem State.advanceClock_histIndex : s.advanceClock.histIndex = s.histIndex := rfl
@[simp] theorem State.advanceClock_cfg : s.advanceClock.cfg = s.cfg := rfl
@[simp] theorem State.advanceClock_tcfg : s.advanceClock.tcfg = s.tcfg := rfl
@[simp] theorem State.advanceClock_sig :
    s.advanceClock.sig =
      { s.sig with clock := s.sig.clock + 1#64 } := rfl
@[simp] theorem State.advanceClock_hist : s.advanceClock.hist = s.hist := rfl
@[simp] theorem State.advanceClock_bank : s.advanceClock.bank = s.bank := rfl
@[simp] theorem State.advanceClock_ss : s.advanceClock.ss = s.ss := rfl
@[simp] theorem State.advanceClock_st : s.advanceClock.st = s.st := rfl
@[simp] theorem State.advanceClock_fs : s.advanceClock.fs = s.fs := rfl
@[simp] theorem State.advanceClock_tim : s.advanceClock.tim = s.tim := rfl
@[simp] theorem State.advanceClock_queue : s.advanceClock.queue = s.queue := rfl
@[simp] theorem State.advanceClock_rptr : s.advanceClock.rptr = s.rptr := rfl
@[simp] theorem State.advanceClock_inputs : s.advanceClock.inputs = s.inputs := rfl
@[simp] theorem State.advanceClock_response : s.advanceClock.response = s.response := rfl

end Sys2Proof.Machine
end

