-- ==== Sys2Proof/Laws/Correlator.lean ====
section
/-! SUPPORT. What the steps of a symbol correlator can do, stage by stage: the provers cite these
instead of unfolding the steps. -/

namespace Sys2Proof.Machine

-- One theorem after the other: in parallel each would hold a thread and its stack.
set_option Elab.async false

theorem State.lockedAny_iff (s : State) :
    s.lockedAny = true ↔ ∃ c : Row, (s.ss.get c).stage = .locked := by
  simp [State.lockedAny, State.isLocked, List.any_eq_true]

/-! ## A row's step by its stage (R286) -/

theorem State.rowStep_idle {s : State} {c : Row} (h : (s.ss.get c).stage = .idle) (b : Bool) :
    s.rowStep b c = (s.idleStep c b (s.ss.get c), .quiet) := by
  simp only [State.rowStep, h]

theorem State.rowStep_searching {s : State} {c : Row} (h : (s.ss.get c).stage = .searching)
    (b : Bool) : s.rowStep b c = (s.searchStep c (s.ss.get c), .quiet) := by
  simp only [State.rowStep, h]

theorem State.rowStep_synchronizing {s : State} {c : Row}
    (h : (s.ss.get c).stage = .synchronizing) (b : Bool) :
    s.rowStep b c = s.syncStep c (s.ss.get c) := by
  simp only [State.rowStep, h]

theorem State.rowStep_locked {s : State} {c : Row} (h : (s.ss.get c).stage = .locked) (b : Bool) :
    s.rowStep b c = s.lockedStep c (s.ss.get c) := by
  simp only [State.rowStep, h]

/-- While a candidate is LOCKED, no search starts (R287). -/
theorem State.idleStep_while_locked (s : State) (c : Row) (ss : SearchState) :
    s.idleStep c true ss = ss := by
  simp [State.idleStep, State.triggers]

/-! ## The stages the parts of a step keep -/

@[simp] theorem SearchState.withCorr_stage (ss : SearchState) (r : Evaluation) :
    (ss.withCorr r).stage = ss.stage := rfl

@[simp] theorem State.pulseStep_stage (s : State) (ss : SearchState) :
    (s.pulseStep ss).stage = ss.stage := by
  unfold State.pulseStep; split
  · split <;> rfl
  · rfl

@[simp] theorem SearchState.keepPeak_stage (ss : SearchState) (co : Coding) (t : Clock)
    (r : Evaluation) : (ss.keepPeak co t r).stage = ss.stage := by
  unfold SearchState.keepPeak; split <;> rfl

@[simp] theorem SearchState.keepBest_stage (ss : SearchState) (x : Nat) (t : Clock)
    (r : Evaluation) : (ss.keepBest x t r).stage = ss.stage := by
  unfold SearchState.keepBest; split <;> rfl

@[simp] theorem SearchState.windowDecide_stage (ss : SearchState) (c : Row) (b : BankRow)
    (x : Nat) : (ss.windowDecide c b x).1.stage = ss.stage := rfl

@[simp] theorem State.track_stage (s : State) (c : Row) (mode : EvalMode) (ss : SearchState) :
    (s.track c mode ss).1.stage = ss.stage := by
  unfold State.track; dsimp only
  split
  · rfl
  · split <;> simp

/-! ## Where a step can end -/

theorem SearchState.searchDecide_cases (ss : SearchState) (b : BankRow) :
    (ss.searchDecide b).stage = .synchronizing ∨ ss.searchDecide b = SearchState.reset := by
  unfold SearchState.searchDecide; split
  · exact .inl rfl
  · exact .inr rfl

theorem State.searchStep_cases (s : State) (c : Row) (ss : SearchState)
    (h : ss.stage = .searching) :
    (s.searchStep c ss).stage = .searching ∨ (s.searchStep c ss).stage = .synchronizing
      ∨ s.searchStep c ss = SearchState.reset := by
  unfold State.searchStep; dsimp only
  split
  · exact .inr (SearchState.searchDecide_cases _ _)
  · exact .inl (by simp [h])

theorem State.syncStep_cases (s : State) (c : Row) (ss : SearchState)
    (h : ss.stage = .synchronizing) :
    ((s.syncStep c ss).1.stage = .synchronizing
        ∧ ((s.syncStep c ss).2 = .quiet
          ∨ ∃ sym : Symbol, (s.syncStep c ss).2 = { RowOut.quiet with lockreq := some sym }))
      ∨ s.syncStep c ss = (SearchState.reset, .quiet) := by
  have hs := State.track_stage s c .acquire ss
  unfold State.syncStep
  split <;> rename_i e
  · rw [e] at hs; exact .inl ⟨hs.trans h, .inl rfl⟩
  · rw [e] at hs; exact .inl ⟨hs.trans h, .inr ⟨_, rfl⟩⟩
  · exact .inr rfl

theorem State.lockedStep_cases (s : State) (c : Row) (ss : SearchState) (h : ss.stage = .locked) :
    ((s.lockedStep c ss).1.stage = .locked ∧ (s.lockedStep c ss).2.lockreq = none
        ∧ (s.lockedStep c ss).2.eof = false)
      ∨ s.lockedStep c ss = (SearchState.reset, { RowOut.quiet with eof := true }) := by
  have hs := State.track_stage s c .track ss
  unfold State.lockedStep
  split <;> rename_i e
  · rw [e] at hs; exact .inl ⟨hs.trans h, rfl, rfl⟩
  · rw [e] at hs; exact .inl ⟨hs.trans h, rfl, rfl⟩
  · rw [e] at hs
    unfold SearchState.lockedMissed; split
    · exact .inl ⟨hs.trans h, rfl, rfl⟩
    · exact .inr rfl

/-! ## Parts of a step in the words of the rules -/

/-- A saturating increment as a minimum (00_scope.md R13). -/
theorem satinc_eq (w : Word) : satinc w = BitVec.ofNat 32 (min (w.toNat + 1) (2 ^ 32 - 1)) := by
  apply BitVec.eq_of_toNat_eq
  have := w.isLt
  unfold satinc; split
  · rw [BitVec.toNat_add, BitVec.toNat_ofNat]; simp; omega
  · rw [BitVec.toNat_ofNat]; omega

/-- XP as a quotient (10_state.md R38). -/
theorem SearchState.xp_eq (ss : SearchState) : ss.xp = (ss.expFx.toNat + 128) / 256 := by
  unfold SearchState.xp; rw [Nat.shiftRight_eq_div_pow]

theorem clockDist_eq (a b : Nat) : clockDist a b = ((a : Int) - b).natAbs := by
  unfold clockDist; omega

/-- Everything a tracking window can do at a clock: wait, keep a best, or keep it and decide (R290). -/
theorem State.track_cases (s : State) (c : Row) (mode : EvalMode) (ss : SearchState) :
    let r := s.eval c s.sig.clock ss.thresh mode
    let kept := (ss.withCorr r).keepBest ss.xp s.sig.clock r
    let tau := (s.bank.get c).tau.toNat
    (s.sig.clock.toNat + tau < ss.xp ∧ s.track c mode ss = (ss, none))
      ∨ (ss.xp ≤ s.sig.clock.toNat + tau ∧ s.sig.clock.toNat ≠ ss.xp + tau
          ∧ s.track c mode ss = (kept, none))
      ∨ (s.sig.clock.toNat = ss.xp + tau
          ∧ s.track c mode ss =
              ((kept.windowDecide c (s.bank.get c) ss.xp).1,
                some (kept.windowDecide c (s.bank.get c) ss.xp).2)) := by
  dsimp only
  unfold State.track; dsimp only
  split
  · exact .inl ⟨‹_›, rfl⟩
  · split
    · exact .inr (.inr ⟨‹_›, rfl⟩)
    · exact .inr (.inl ⟨by omega, ‹_›, rfl⟩)

/-! ## Phase 4 as a whole -/

@[simp] theorem State.correlators_ss (s : State) (c : Row) :
    s.correlators.1.ss.get c = (s.rowStep s.lockedAny c).1 := by
  simp [State.correlators]

@[simp] theorem State.correlators_out (s : State) (c : Row) :
    s.correlators.2.get c = (s.rowStep s.lockedAny c).2 := by
  simp [State.correlators]

end Sys2Proof.Machine
end

