-- ==== Sys2Proof/Laws/Decode.lean ====
section
/-! SUPPORT. The fields of an assembled transaction word (30_encoding.md R130), and what the pieces of
the decoder answer. -/

namespace Sys2Proof

-- One theorem after the other: in parallel each would hold a thread and its stack.
set_option Elab.async false

variable (write : Bool) (off : BitVec 12) (data : Word)

@[simp] theorem txnWrite_mkTxn : txnWrite (mkTxn write off data) = write := by
  show (BitVec.ofBool write ++ 0#19 ++ off ++ data).getLsbD 63 = write
  rw [BitVec.getLsbD_append, BitVec.getLsbD_append, BitVec.getLsbD_append]
  simp

@[simp] theorem txnReserved_mkTxn : txnReserved (mkTxn write off data) = 0#19 := by
  apply BitVec.eq_of_getLsbD_eq
  intro i hi
  simp only [txnReserved, mkTxn, BitVec.getLsbD_extractLsb', BitVec.getLsbD_append,
    BitVec.getLsbD_zero]
  have h1 : ¬ (44 + i < 32) := by omega
  have h2 : ¬ (44 + i - 32 < 12) := by omega
  have h3 : 44 + i - 32 - 12 < 19 := by omega
  simp [h1, h2, h3]

@[simp] theorem txnOff_mkTxn : txnOff (mkTxn write off data) = off := by
  apply BitVec.eq_of_getLsbD_eq
  intro i hi
  simp only [txnOff, mkTxn, BitVec.getLsbD_extractLsb', BitVec.getLsbD_append]
  have h1 : ¬ (32 + i < 32) := by omega
  have h2 : 32 + i - 32 = i := by omega
  simp [h1, h2, hi]

@[simp] theorem txnData_mkTxn : txnData (mkTxn write off data) = data := by
  apply BitVec.eq_of_getLsbD_eq
  intro i hi
  simp only [txnData, mkTxn, BitVec.getLsbD_extractLsb', BitVec.getLsbD_append]
  simp [hi]

/-- A word is the assembly of its fields when its reserved bits are 0. -/
theorem mkTxn_fields {w : Txn} (h : txnReserved w = 0#19) :
    mkTxn (txnWrite w) (txnOff w) (txnData w) = w := by
  apply BitVec.eq_of_getLsbD_eq
  intro i hi
  simp only [mkTxn, BitVec.getLsbD_append, txnOff, txnData, BitVec.getLsbD_extractLsb', txnWrite]
  by_cases h1 : i < 32
  · simp [h1]
  by_cases h2 : i - 32 < 12
  · have : 32 + (i - 32) = i := by omega
    simp [h1, h2, this]
  by_cases h3 : i - 32 - 12 < 19
  · have hbit := congrArg (fun v : BitVec 19 => v.getLsbD (i - 44)) h
    simp only [txnReserved, BitVec.getLsbD_extractLsb', BitVec.getLsbD_zero] at hbit
    have h4 : i - 44 < 19 := by omega
    have h5 : 44 + (i - 44) = i := by omega
    rw [h5] at hbit
    simp only [h4, decide_true, Bool.true_and] at hbit
    simp [h1, h2, h3, hbit]
  · have h6 : i = 63 := by omega
    subst h6
    simp

/-- Decoding an assembled word reads its fields. -/
theorem decode_mkTxn : decode (mkTxn write off data) = decodeFields write off data := by
  simp [decode]

/-- The decoder answers an instruction only for a word whose reserved bits are 0 (R132). -/
theorem decode_ok_reserved {w : Txn} {i : Instr} (h : decode w = .ok i) : txnReserved w = 0#19 := by
  by_contra hr
  simp [decode, hr] at h

/-! ## DATA does not choose the register -/

/-- The instruction with another DATA; a command's DATA chooses the command (30_encoding.md R143). -/
def Instr.withData (d : Word) : Instr → Instr
  | .cmdReset | .cmdConfigure | .cmdStart | .cmdStop | .cmdResetCapture => decodeCmd d
  | .cmdOutPop | .cmdOutRewind | .cmdReserved _ => decodeCmd d
  | .wrErr _ => .wrErr d
  | .wrIrqEn _ => .wrIrqEn d
  | .wrSampleReal _ => .wrSampleReal d
  | .wrSampleI _ => .wrSampleI d
  | .wrSampleQ _ => .wrSampleQ d
  | .wrCfg k _ => .wrCfg k d
  | .wrHistChan _ => .wrHistChan d
  | .wrHistIndex _ => .wrHistIndex d
  | .wrTcfg x k _ => .wrTcfg x k d
  | .rdId => .rdId
  | .rdVersion => .rdVersion
  | .rdStatus => .rdStatus
  | .rdErr => .rdErr
  | .rdIrqEn => .rdIrqEn
  | .rdIrqStatus => .rdIrqStatus
  | .rdClock k => .rdClock k
  | .rdCfg k => .rdCfg k
  | .rdDbg k => .rdDbg k
  | .rdHistChan => .rdHistChan
  | .rdHistIndex => .rdHistIndex
  | .rdHistData => .rdHistData
  | .rdParam k => .rdParam k
  | .rdTcfg x k => .rdTcfg x k
  | .rdTstat x k => .rdTstat x k
  | .rdCand c k => .rdCand c k
  | .rdSs c k => .rdSs c k
  | .rdAsm k => .rdAsm k
  | .rdOut k => .rdOut k
  | .rdOutData => .rdOutData

/-- A decoded transaction with another DATA. -/
def Decoded.withData (d : Word) : Decoded → Decoded
  | .ok i => .ok (i.withData d)
  | .error e => .error e

@[simp] theorem accessRO_withData (d : Word) (i : Instr) :
    Decoded.withData d (accessRO write i) = accessRO write (i.withData d) := by cases write <;> rfl

@[simp] theorem accessWO_withData (d : Word) (i : Instr) :
    Decoded.withData d (accessWO write i) = accessWO write (i.withData d) := by cases write <;> rfl

@[simp] theorem accessRW_withData (d : Word) (i j : Instr) :
    Decoded.withData d (accessRW write i j) = accessRW write (i.withData d) (j.withData d) := by
  cases write <;> rfl

@[simp] theorem accessIf_withData (d : Word) (mapped : Bool) (r : Decoded) :
    Decoded.withData d (accessIf mapped r) = accessIf mapped (Decoded.withData d r) := by
  cases mapped <;> rfl

theorem decodeCmd_withData (d e : Word) : (decodeCmd d).withData e = decodeCmd e := by
  conv_lhs => rw [decodeCmd]
  repeat' (rw [apply_ite (Instr.withData e)])
  simp only [Instr.withData, ite_self]

theorem decodeSingle_withData (d : Word) :
    (decodeSingle write off data).map (Decoded.withData d) = decodeSingle write off d := by
  unfold decodeSingle
  repeat' (rw [apply_ite (Option.map (Decoded.withData d))])
  simp only [Option.map_some, Option.map_none, accessRO_withData, accessWO_withData,
    accessRW_withData, decodeCmd_withData]
  rfl

theorem decodeBlock_withData (d : Word) :
    Decoded.withData d (decodeBlock write off data) = decodeBlock write off d := by
  unfold decodeBlock
  dsimp only
  repeat' (rw [apply_ite (Decoded.withData d)])
  simp only [accessIf_withData, accessRO_withData, accessRW_withData, Instr.withData]
  rfl

/-- The register a transaction names depends on its direction and its offset alone: decoding with DATA
`d` is decoding with any DATA, and then putting `d` in. Claims over every offset are so decided on a
fixed DATA. -/
theorem decodeFields_withData (d : Word) :
    Decoded.withData d (decodeFields write off data) = decodeFields write off d := by
  unfold decodeFields
  split
  · rfl
  · rw [← decodeSingle_withData write off data d, ← decodeBlock_withData write off data d]
    cases decodeSingle write off data <;> rfl

end Sys2Proof
end

