-- ==== Sys2Proof/Laws/Memory.lean ====
section
/-! SUPPORT. The laws of storages: reading after writing, the canonical form, the bound, and that a
storage in canonical form is determined by what it reads. -/

namespace Sys2Proof.Machine

-- One theorem after the other: in parallel each would hold a thread and its stack.
set_option Elab.async false

variable {w : Nat}

/-- Every listed index of the rest lies above `a`. -/
def Memory.above (a : Nat) (m : Memory w) : Prop := ∀ e ∈ m, a < e.1

theorem Memory.wf_cons (a : Nat) (v : BitVec w) (m : Memory w) :
    Memory.wf ((a, v) :: m) = true ↔ v ≠ 0#w ∧ Memory.above a m ∧ Memory.wf m = true := by
  simp [Memory.wf, Memory.above, and_assoc]

theorem Memory.within_cons (n a : Nat) (v : BitVec w) (m : Memory w) :
    Memory.within n ((a, v) :: m) = true ↔ a < n ∧ Memory.within n m = true := by
  simp [Memory.within]

@[simp] theorem Memory.read_nil (a : Nat) : Memory.read ([] : Memory w) a = 0#w := rfl

@[simp] theorem Memory.wf_nil : Memory.wf ([] : Memory w) = true := rfl

@[simp] theorem Memory.within_nil (n : Nat) : Memory.within n ([] : Memory w) = true := rfl

/-- An index below every listed one reads the reset value. -/
theorem Memory.read_of_above {m : Memory w} {a : Nat} (h : Memory.above a m) :
    Memory.read m a = 0#w := by
  induction m with
  | nil => rfl
  | cons e rest ih =>
    obtain ⟨b, u⟩ := e
    have hb : a < b := h (b, u) (by simp)
    rw [Memory.read, if_neg (by omega)]
    exact ih fun x hx => h x (by simp [hx])

theorem Memory.above_mono {m : Memory w} {a b : Nat} (hab : a ≤ b) (h : Memory.above b m) :
    Memory.above a m := fun e he => lt_of_le_of_lt hab (h e he)

theorem Memory.above_write {m : Memory w} {a b : Nat} {v : BitVec w} (h : Memory.above b m)
    (hab : b < a) : Memory.above b (Memory.write m a v) := by
  induction m with
  | nil =>
    intro e he
    by_cases hv : v = 0#w
    · simp [Memory.write, hv] at he
    · simp [Memory.write, hv] at he; subst he; exact hab
  | cons x rest ih =>
    obtain ⟨c, u⟩ := x
    have hc : b < c := h (c, u) (by simp)
    have hr : Memory.above b rest := fun e he => h e (by simp [he])
    have ihr := ih hr
    intro e he
    simp only [Memory.write] at he
    split at he
    · split at he
      · exact h e he
      · simp only [List.mem_cons] at he
        rcases he with rfl | rfl | he
        · exact hab
        · exact hc
        · exact hr e he
    · split at he
      · split at he
        · exact hr e he
        · simp only [List.mem_cons] at he
          rcases he with rfl | he
          · exact hab
          · exact hr e he
      · simp only [List.mem_cons] at he
        rcases he with rfl | he
        · exact hc
        · exact ihr e he

/-- A read after a write to the same entry gives what was written. -/
theorem Memory.read_write_same {m : Memory w} (hm : Memory.wf m = true) (a : Nat) (v : BitVec w) :
    Memory.read (Memory.write m a v) a = v := by
  induction m with
  | nil => by_cases hv : v = 0#w <;> simp [Memory.write, Memory.read, hv]
  | cons x rest ih =>
    obtain ⟨b, u⟩ := x
    obtain ⟨-, habove, hrest⟩ := (Memory.wf_cons b u rest).1 hm
    simp only [Memory.write]
    split
    · split
      · rename_i hab hv
        rw [Memory.read, if_neg (by omega), hv]
        exact Memory.read_of_above (Memory.above_mono (le_of_lt hab) habove)
      · simp [Memory.read]
    · split
      · split
        · rename_i hab hv
          rw [hv, hab]
          exact Memory.read_of_above habove
        · simp [Memory.read]
      · rename_i h1 h2
        rw [Memory.read, if_neg h2]
        exact ih hrest

/-- A write leaves what every other entry reads. -/
theorem Memory.read_write_other (m : Memory w) {a b : Nat} (v : BitVec w) (h : b ≠ a) :
    Memory.read (Memory.write m a v) b = Memory.read m b := by
  induction m with
  | nil => by_cases hv : v = 0#w <;> simp [Memory.write, Memory.read, hv, h]
  | cons x rest ih =>
    obtain ⟨c, u⟩ := x
    simp only [Memory.write]
    split
    · split
      · rfl
      · simp [Memory.read, h]
    · split
      · rename_i h1 h2
        subst h2
        split <;> simp [Memory.read, h]
      · simp only [Memory.read]
        split
        · rfl
        · exact ih

/-- A write keeps the canonical form. -/
theorem Memory.wf_write {m : Memory w} (hm : Memory.wf m = true) (a : Nat) (v : BitVec w) :
    Memory.wf (Memory.write m a v) = true := by
  induction m with
  | nil => by_cases hv : v = 0#w <;> simp [Memory.write, Memory.wf, hv]
  | cons x rest ih =>
    obtain ⟨b, u⟩ := x
    obtain ⟨hu, habove, hrest⟩ := (Memory.wf_cons b u rest).1 hm
    simp only [Memory.write]
    split
    · split
      · exact hm
      · rename_i hab hv
        refine (Memory.wf_cons ..).2 ⟨hv, ?_, hm⟩
        intro e he
        rcases List.mem_cons.1 he with rfl | he
        · exact hab
        · exact lt_trans hab (habove e he)
    · split
      · rename_i hab
        subst hab
        split
        · exact hrest
        · rename_i hv
          exact (Memory.wf_cons ..).2 ⟨hv, habove, hrest⟩
      · exact (Memory.wf_cons ..).2 ⟨hu, Memory.above_write habove (by omega), ih hrest⟩

/-- A write inside the storage keeps every entry inside it. -/
theorem Memory.within_write {m : Memory w} {n a : Nat} (hm : Memory.within n m = true) (ha : a < n)
    (v : BitVec w) : Memory.within n (Memory.write m a v) = true := by
  induction m with
  | nil => by_cases hv : v = 0#w <;> simp [Memory.write, Memory.within, hv, ha]
  | cons x rest ih =>
    obtain ⟨b, u⟩ := x
    obtain ⟨hb, hrest⟩ := (Memory.within_cons n b u rest).1 hm
    simp only [Memory.write]
    split
    · split
      · exact hm
      · exact (Memory.within_cons ..).2 ⟨ha, hm⟩
    · split
      · split
        · exact hrest
        · exact (Memory.within_cons ..).2 ⟨ha, hrest⟩
      · exact (Memory.within_cons ..).2 ⟨hb, ih hrest⟩

/-- An entry outside a bounded storage reads the reset value. -/
theorem Memory.read_of_within {m : Memory w} {n a : Nat} (hm : Memory.within n m = true)
    (ha : n ≤ a) : Memory.read m a = 0#w := by
  induction m with
  | nil => rfl
  | cons x rest ih =>
    obtain ⟨b, u⟩ := x
    obtain ⟨hb, hrest⟩ := (Memory.within_cons n b u rest).1 hm
    rw [Memory.read, if_neg (by omega)]
    exact ih hrest

/-- Storages in canonical form that read alike are equal. -/
theorem Memory.ext_read {m m' : Memory w} (hm : Memory.wf m = true) (hm' : Memory.wf m' = true)
    (h : ∀ a, Memory.read m a = Memory.read m' a) : m = m' := by
  induction m generalizing m' with
  | nil =>
    cases m' with
    | nil => rfl
    | cons x rest =>
      obtain ⟨b, u⟩ := x
      have := h b
      simp [Memory.read] at this
      exact absurd this.symm ((Memory.wf_cons b u rest).1 hm').1
  | cons x rest ih =>
    obtain ⟨b, u⟩ := x
    obtain ⟨hu, habove, hrest⟩ := (Memory.wf_cons b u rest).1 hm
    cases m' with
    | nil =>
      have := h b
      simp [Memory.read] at this
      exact absurd this hu
    | cons y rest' =>
      obtain ⟨c, z⟩ := y
      obtain ⟨hz, habove', hrest'⟩ := (Memory.wf_cons c z rest').1 hm'
      have hbc : b = c := by
        rcases lt_trichotomy b c with hlt | heq | hgt
        · have := h b
          rw [Memory.read, if_pos rfl, Memory.read, if_neg (by omega),
            Memory.read_of_above (Memory.above_mono (le_of_lt hlt) habove')] at this
          exact absurd this hu
        · exact heq
        · have := h c
          rw [Memory.read, if_neg (by omega), Memory.read, if_pos rfl,
            Memory.read_of_above (Memory.above_mono (le_of_lt hgt) habove)] at this
          exact absurd this.symm hz
      subst hbc
      have huz : u = z := by simpa [Memory.read] using h b
      subst huz
      congr 1
      refine ih hrest hrest' fun a => ?_
      by_cases hab : a = b
      · subst hab
        rw [Memory.read_of_above habove, Memory.read_of_above habove']
      · simpa [Memory.read, hab] using h a

/-- The history entry of a clock is the clock modulo HIST_SIZE (20_memory.md R113). -/
theorem ringIndex_eq_mod (p : Params) (k : Clock) : ringIndex p k = k.toNat % p.histSize := by
  have hlt : 2 ^ (p.histExp.val + 4) ≤ 2 ^ 20 := Nat.pow_le_pow_right (by omega) (by omega)
  have hpos : 0 < 2 ^ (p.histExp.val + 4) := Nat.two_pow_pos _
  simp only [ringIndex, Params.histSize, BitVec.toNat_and, BitVec.toNat_ofNat]
  rw [Nat.mod_eq_of_lt (a := 2 ^ (p.histExp.val + 4) - 1) (by omega), Nat.and_two_pow_sub_one_eq_mod]

/-- The history entry of a clock lies in the history. -/
theorem ringIndex_lt (p : Params) (k : Clock) : ringIndex p k < p.histSize := by
  rw [ringIndex_eq_mod]
  exact Nat.mod_lt _ (Nat.two_pow_pos _)

end Sys2Proof.Machine
end

