-- ==== Sys2Proof/Laws/Decoder.lean ====
section
/-! SUPPORT. What the stream decoder can do to the stream state: every operation keeps the byte buffer
in canonical form within BUF_CAP, and the bytes of a frame within the limit of the frame. -/

namespace Sys2Proof.Machine

-- One theorem after the other: in parallel each would hold a thread and its stack.
set_option Elab.async false

/-- The byte buffer is in canonical form within `cap` entries, and at most `lim` bytes are stored. -/
def StreamState.Fits (cap lim : Nat) (t : StreamState) : Prop :=
  Memory.wf t.buf = true ∧ Memory.within cap t.buf = true ∧ t.bytes.toNat ≤ lim

/-- Fits depends on BUF and BYTES alone. -/
theorem StreamState.Fits.congr {cap lim : Nat} {t u : StreamState} (h : t.Fits cap lim)
    (hbuf : u.buf = t.buf) (hbytes : u.bytes = t.bytes) : u.Fits cap lim := by
  unfold StreamState.Fits at *; rw [hbuf, hbytes]; exact h

theorem StreamState.Fits.reset (cap lim : Nat) : StreamState.reset.Fits cap lim :=
  ⟨rfl, rfl, Nat.zero_le _⟩

theorem StreamState.Fits.frameStart (cap lim : Nat) (f : Framing) :
    (StreamState.frameStart f).Fits cap lim := by
  cases f <;> exact ⟨rfl, rfl, Nat.zero_le _⟩

/-- The frame's limit is within BUF_CAP (R362). -/
theorem DecoderEnv.limit_le (g : DecoderEnv) : g.limit ≤ g.bufCap := Nat.min_le_left _ _

/-- At the limit a byte abandons the frame and is not stored; below it, it is stored at BYTES
(43_stream_decoder.md R362). -/
theorem StreamState.store_cases (t : StreamState) (g : DecoderEnv) (v : Byte)
    (h : t.bytes.toNat ≤ g.limit) :
    (t.bytes.toNat = g.limit ∧ t.store g v = (t, .abandon))
      ∨ (t.bytes.toNat < g.limit ∧ t.store g v =
          ({ t with buf := Memory.write t.buf t.bytes.toNat v, bytes := t.bytes + 1#16 }, .cont)) := by
  unfold StreamState.store
  by_cases e : t.bytes.toNat = g.limit
  · exact .inl ⟨e, if_pos e⟩
  · have := g.limit_le
    exact .inr ⟨by omega, by rw [if_neg e, if_pos (by omega)]⟩

theorem StreamState.Fits.store {t : StreamState} {g : DecoderEnv} (h : t.Fits g.bufCap g.limit)
    (v : Byte) : (t.store g v).1.Fits g.bufCap g.limit := by
  rcases t.store_cases g v h.2.2 with ⟨-, e⟩ | ⟨hlt, e⟩ <;> rw [e]
  · exact h
  · have hle := g.limit_le
    refine ⟨Memory.wf_write h.1 _ _, Memory.within_write h.2.1 (by omega) _, ?_⟩
    show (t.bytes + 1#16).toNat ≤ g.limit
    rw [BitVec.toNat_add]
    exact le_trans (Nat.mod_le _ _) (by simpa using hlt)

/-- One bit keeps the fit (R357 to R361). -/
theorem StreamState.Fits.bit {t : StreamState} {g : DecoderEnv} (h : t.Fits g.bufCap g.limit)
    (b : Bool) : (t.bit g b).1.Fits g.bufCap g.limit := by
  have hsc : ∀ u : StreamState, u.Fits g.bufCap g.limit →
      (u.storeAndClear g).1.Fits g.bufCap g.limit := fun u hu =>
    (hu.store (v := u.data)).congr rfl rfl
  have hrun : ∀ u : StreamState, u.Fits g.bufCap g.limit → (u.runOn g).1.Fits g.bufCap g.limit :=
    fun u hu => hu.congr rfl rfl
  have hadd : ∀ (u : StreamState) (b : Bool), u.Fits g.bufCap g.limit →
      (u.addBit b).Fits g.bufCap g.limit := fun u b hu => hu.congr rfl rfl
  unfold StreamState.bit
  split
  · unfold StreamState.bitParityOdd
    split
    · exact hsc _ (h.congr rfl rfl)
    · exact hadd _ _ h
  · unfold StreamState.bitPlain
    dsimp only
    split
    · exact hsc _ (hadd _ _ h)
    · exact hadd _ _ h
  · unfold StreamState.bitStartStop
    split
    · split
      · exact h.congr rfl rfl
      · exact hrun _ h
    · split
      · exact hrun _ h
      · exact h.congr rfl rfl
    · split
      · exact hrun _ h
      · exact h.congr rfl rfl
    · unfold StreamState.charBit
      split
      · exact hadd _ _ h
      · split
        · exact h
        · exact (StreamState.Fits.store (h.congr (u := { t with parErr := t.parErr || !b }) rfl rfl)
            t.data).congr rfl rfl
    · exact h
    · exact h

theorem StreamState.Fits.bits {g : DecoderEnv} (l : List Bool) {t : StreamState}
    (h : t.Fits g.bufCap g.limit) : (t.bits g l).1.Fits g.bufCap g.limit := by
  induction l generalizing t with
  | nil => exact h
  | cons b rest ih =>
    have hb := h.bit b
    unfold StreamState.bits
    split <;> rename_i e <;> rw [e] at hb
    · exact ih hb
    · exact hb
    · exact hb

/-- A delivered symbol keeps the fit (R353). -/
theorem StreamState.Fits.accumulate {t : StreamState} {g : DecoderEnv}
    (h : t.Fits g.bufCap g.limit) (sym : Symbol) :
    (t.accumulate g sym).1.Fits g.bufCap g.limit := by
  unfold StreamState.accumulate
  split
  · exact h.congr rfl rfl
  · exact (StreamState.Fits.bits (symbolBits g.row.coding g.row.pol sym.pat).1
      (h.congr
        (u := { t with parErr := t.parErr || (symbolBits g.row.coding g.row.pol sym.pat).2 })
        rfl rfl)).congr rfl rfl

/-- The flush keeps the fit (R364). -/
theorem StreamState.Fits.flush {t : StreamState} {g : DecoderEnv} (h : t.Fits g.bufCap g.limit) :
    (t.flush g).1.Fits g.bufCap g.limit := by
  unfold StreamState.flush
  split
  · unfold StreamState.flushParityOdd
    dsimp only
    split
    · exact StreamState.Fits.store (h.congr (u := { t with lastbits := t.flushBits }) rfl rfl) _
    · exact h.congr rfl rfl
  · exact h.congr rfl rfl
  · exact h.congr rfl rfl

end Sys2Proof.Machine
end

