-- ==== Sys2Proof/Laws/Effect.lean ====
section
/-! SUPPORT. Everything one transaction can do to the state, said once: the inversion of `exec` and of
`step`. -/

namespace Sys2Proof.Machine

-- One theorem after the other: in parallel each would hold a thread and its stack.
set_option Elab.async false

/-- What a transaction can do to `s`. -/
inductive Effect (s : State) : State → Prop
  /-- Only the host's own registers, ERR and the returned value change: reads, errors, WR_ERR, WR_IRQ_EN,
  WR_HIST_CHAN, WR_HIST_INDEX, WR_SAMPLE_I, a dropped sample. -/
  | host (err : BitVec 8) (irqEn : BitVec 2) (iLatch : F32) (iValid : Bool) (histChan : BitVec 2)
      (histIndex : Word) (response : Option Word) :
      Effect s { s with
        err := err, irqEn := irqEn, iLatch := iLatch, iValid := iValid, histChan := histChan,
        histIndex := histIndex, response := response }
  /-- RD_OUT_DATA of a byte of the head record. -/
  | outData (r : Record) (rest : List Record) (v : Byte) (hq : s.queue = r :: rest)
      (hv : r.bytes[s.rptr.toNat]? = some v) :
      Effect s { s with rptr := s.rptr + 1#16, response := some (field v 0) }
  /-- CMD_OUT_REWIND. -/
  | rewind : Effect s { s with rptr := 0#16, response := none }
  /-- CMD_OUT_POP of a record. -/
  | pop (r : Record) (rest : List Record) (hq : s.queue = r :: rest) :
      Effect s { s with queue := rest, rptr := 0#16, response := none }
  /-- An accepted WR_CFG or WR_TCFG. -/
  | config (cfg : CondCfg) (tcfg : PerTech TechCfg) (hrun : s.run = false) :
      Effect s { s with cfg := cfg, tcfg := tcfg, configured := false, response := none }
  /-- CMD_START of a configured block. -/
  | start (hc : s.configured = true) : Effect s { s with run := true, response := none }
  /-- CMD_STOP. -/
  | stop : Effect s { s with run := false, response := none }
  /-- CMD_RESET, and the reset input. -/
  | reset : Effect s { s.fullReset with response := none }
  /-- CMD_RESET_CAPTURE. -/
  | resetCapture (hrun : s.run = false) : Effect s { s.captureReset with response := none }
  /-- A successful CMD_CONFIGURE. -/
  | configure (hrun : s.run = false) (hl : configLegal s.params s.cfg s.tcfg = true)
      (ha : someActive (bankOf s.params s.cfg) = true) :
      Effect s { s.captureReset with
        bank := bankOf s.params s.cfg, configured := true, response := none }
  /-- An accepted sample of magnitude `m`. -/
  | sample (iValid : Bool) (m : F32) (hr : s.ready = true) :
      Effect s { State.tick { s with iValid := iValid } m with response := none }

/-- A state that differs in ERR and the returned value alone. -/
theorem Effect.errOnly (s : State) (err : BitVec 8) (response : Option Word) :
    Effect s { s with err := err, response := response } :=
  .host err s.irqEn s.iLatch s.iValid s.histChan s.histIndex response

theorem Effect.answer (s : State) (v : Word) : Effect s (s.answer v) := .errOnly s s.err (some v)

theorem Effect.raise (s : State) (e : ErrBit) : Effect s (s.raise e).quiet :=
  .errOnly s (s.err ||| e.mask) none

theorem Effect.malformed (s : State) (write : Bool) : Effect s (s.malformed write) := by
  unfold State.malformed
  dsimp only
  split
  · exact .errOnly s _ none
  · exact .errOnly s _ (some 0#32)

theorem Effect.completeRead (s : State) (v : Option Word) : Effect s (s.completeRead v) := by
  cases v
  · exact .malformed s false
  · exact .answer s _

theorem Effect.outEmpty (s : State) : Effect s s.outEmpty := .errOnly s _ (some 0#32)

/-- What `exec` answers is an effect of the transaction. -/
theorem exec_effect {i : Instr} {s t : State} (h : exec i s = .next t) : Effect s t := by
  cases i
  case rdId => cases h; exact .answer s _
  case rdVersion => cases h; exact .answer s _
  case cmdReset => cases h; exact .reset
  case cmdConfigure =>
    simp only [exec, execCmdConfigure] at h
    split at h
    · cases h; exact .raise s _
    · rename_i hrun
      split at h
      · cases h; exact .raise s _
      · rename_i hok
        simp only [Bool.not_eq_true', Bool.not_eq_false, Bool.and_eq_true] at hok
        cases h
        exact .configure (by simpa using hrun) hok.1 hok.2
  case cmdStart =>
    simp only [exec, execCmdStart] at h
    split at h
    · cases h; exact .raise s _
    · rename_i hc; cases h; exact .start (by simpa using hc)
  case cmdStop => cases h; exact .stop
  case cmdResetCapture =>
    simp only [exec, execCmdResetCapture] at h
    split at h
    · cases h; exact .raise s _
    · rename_i hc; cases h; exact .resetCapture (by simpa using hc)
  case cmdOutPop =>
    simp only [exec, execCmdOutPop] at h
    split at h
    · cases h; exact .raise s _
    · cases h; exact .pop _ _ ‹_›
  case cmdOutRewind => cases h; exact .rewind
  case cmdReserved d => cases h; exact .raise s _
  case rdStatus => cases h; exact .answer s _
  case rdErr => cases h; exact .answer s _
  case wrErr d => cases h; exact .errOnly s _ none
  case rdIrqEn => cases h; exact .answer s _
  case wrIrqEn d =>
    cases h
    exact .host s.err _ s.iLatch s.iValid s.histChan s.histIndex none
  case rdIrqStatus => cases h; exact .answer s _
  case wrSampleReal x =>
    simp only [exec, execWrSampleReal] at h
    split at h
    · cases h; exact .raise s _
    · split at h
      · cases h; exact .raise s _
      · cases h; exact .sample s.iValid _ (by simpa using ‹¬(!s.ready) = true›)
  case wrSampleI x =>
    cases h
    exact .host s.err s.irqEn _ _ s.histChan s.histIndex none
  case wrSampleQ q =>
    have drop : ∀ e : ErrBit, Effect s (State.raise { s with iValid := false } e).quiet := fun e =>
      .host (s.err ||| e.mask) s.irqEn s.iLatch false s.histChan s.histIndex none
    simp only [exec, execWrSampleQ] at h
    split at h
    · cases h; exact drop _
    · split at h
      · cases h; exact drop _
      · split at h
        · cases h; exact drop _
        · cases h; exact .sample false _ (by simpa using ‹¬(!s.ready) = true›)
  case rdClock k => cases h; exact .answer s _
  case rdCfg k => cases h; exact .completeRead s _
  case wrCfg k d =>
    simp only [exec, execWrCfg] at h
    split at h
    · cases h; exact .malformed s true
    · split at h
      · cases h; exact .raise s _
      · rename_i hc; cases h; exact .config _ s.tcfg (by simpa using hc)
  case rdDbg k => cases h; exact .completeRead s _
  case rdHistChan => cases h; exact .answer s _
  case wrHistChan d =>
    cases h
    exact .host s.err s.irqEn s.iLatch s.iValid _ s.histIndex none
  case rdHistIndex => cases h; exact .answer s _
  case wrHistIndex d =>
    cases h
    exact .host s.err s.irqEn s.iLatch s.iValid s.histChan _ none
  case rdHistData => cases h; exact .answer s _
  case rdParam k => cases h; exact .answer s _
  case rdTcfg x k => cases h; exact .completeRead s _
  case wrTcfg x k d =>
    simp only [exec, execWrTcfg] at h
    split at h
    · cases h; exact .malformed s true
    · split at h
      · cases h; exact .raise s _
      · rename_i hc; cases h; exact .config s.cfg _ (by simpa using hc)
  case rdTstat x k => cases h; exact .completeRead s _
  case rdCand c k => cases h; exact .completeRead s _
  case rdSs c k => cases h; exact .completeRead s _
  case rdAsm k => cases h; exact .answer s _
  case rdOut k =>
    simp only [exec, execRdOut] at h
    split at h
    · cases h; exact .malformed s false
    · split at h
      · cases h; exact .outEmpty s
      · cases h; exact .completeRead s _
  case rdOutData =>
    simp only [exec, execRdOutData] at h
    split at h
    · cases h; exact .outEmpty s
    · split at h
      · cases h; exact .outEmpty s
      · cases h; exact .outData _ _ _ ‹_› ‹_›

/-- What `step` answers: nothing happens without an input; else the oldest input is taken and has the
effect of a transaction or of the reset input. -/
theorem step_effect {s t : State} (h : step s = .next t) :
    (s.inputs = [] ∧ t = s)
      ∨ ∃ (i : HostInput) (rest : List HostInput), s.inputs = i :: rest
          ∧ (t = State.fullReset { s with inputs := rest } ∨ Effect { s with inputs := rest } t) := by
  unfold step State.takeInput at h
  cases hin : s.inputs with
  | nil =>
    rw [hin] at h
    cases h
    exact .inl ⟨rfl, rfl⟩
  | cons i rest =>
    rw [hin] at h
    refine .inr ⟨i, rest, rfl, ?_⟩
    cases i with
    | reset => cases h; exact .inl rfl
    | txn w =>
      right
      simp only [stepTxn] at h
      split at h
      · exact exec_effect h
      · cases h; exact .malformed _ _

end Sys2Proof.Machine
end

