-- ==== Sys2Proof/Laws/Float32.lean ====
section
/-! SUPPORT. The rounding of the binary32 operations: what `divHalfEven`, `roundMag` and `roundRat`
answer, said once, and the patterns `f32pack` builds. -/

namespace Sys2Proof.Machine

-- One theorem after the other: in parallel each would hold a thread and its stack.
set_option Elab.async false

/-! ## Magnitude fields -/

/-- The magnitude, in units of 2^-149, of the magnitude field `m` (bits 30:0). -/
def magOf (m : Nat) : Nat :=
  if m / 2 ^ 23 = 0 then m % 2 ^ 23 else (m % 2 ^ 23 + 2 ^ 23) * 2 ^ (m / 2 ^ 23 - 1)

theorem magOf_zero : magOf 0 = 0 := by decide

/-- A rounded significand `q` at the exponent `k` is the value `q * 2^k`, the carry into the next
binade included. -/
theorem magOf_scaled {k q : Nat} (hq : q ≤ 2 ^ 24) (hk : 0 < k → 2 ^ 23 ≤ q) :
    magOf (k * 2 ^ 23 + q) = q * 2 ^ k := by
  unfold magOf
  rcases Nat.lt_or_ge q (2 ^ 23) with h | h
  · have hk0 : k = 0 := by by_contra hn; exact absurd (hk (Nat.pos_of_ne_zero hn)) (by omega)
    subst hk0
    have h1 : (0 * 2 ^ 23 + q) / 2 ^ 23 = 0 := by omega
    rw [if_pos h1]; omega
  · rcases Nat.lt_or_ge q (2 ^ 24) with h2 | h2
    · have h1 : (k * 2 ^ 23 + q) / 2 ^ 23 = k + 1 := by omega
      have h3 : (k * 2 ^ 23 + q) % 2 ^ 23 + 2 ^ 23 = q := by omega
      rw [h1, if_neg (by omega), h3]; rfl
    · have hq' : q = 2 ^ 24 := by omega
      subst hq'
      have h1 : (k * 2 ^ 23 + 2 ^ 24) / 2 ^ 23 = k + 2 := by omega
      have h3 : (k * 2 ^ 23 + 2 ^ 24) % 2 ^ 23 + 2 ^ 23 = 2 ^ 23 := by omega
      rw [h1, if_neg (by omega), h3]
      rw [show k + 2 - 1 = k + 1 by omega]; ring

/-- Every magnitude at or above `2^(23+k)` is a multiple of `2^k`. -/
theorem magOf_multiple (m : Nat) {k : Nat} (h : 2 ^ (23 + k) ≤ magOf m) :
    ∃ j : Nat, magOf m = j * 2 ^ k := by
  unfold magOf at *
  split at h
  · rw [if_pos ‹_›]
    have hk : 2 ^ 23 ≤ 2 ^ (23 + k) := Nat.pow_le_pow_right (by omega) (by omega)
    omega
  · rename_i hn
    rw [if_neg hn]
    have hlt : (m % 2 ^ 23 + 2 ^ 23) * 2 ^ (m / 2 ^ 23 - 1) < 2 ^ (24 + (m / 2 ^ 23 - 1)) := by
      rw [Nat.pow_add]
      exact Nat.mul_lt_mul_of_pos_right (by omega) (Nat.two_pow_pos _)
    have hle : k ≤ m / 2 ^ 23 - 1 := by
      have := Nat.lt_of_le_of_lt h hlt
      have := (Nat.pow_lt_pow_iff_right (a := 2) (by omega)).mp this
      omega
    obtain ⟨d, hd⟩ := Nat.exists_eq_add_of_le hle
    exact ⟨(m % 2 ^ 23 + 2 ^ 23) * 2 ^ d, by rw [hd, Nat.pow_add]; ring⟩

/-! ## Rounding -/

/-- The distance of two naturals. -/
def natDist (a b : Nat) : Nat := (a - b) + (b - a)

/-- `divHalfEven` gives a multiple of the divisor nearest to the dividend, the even one of two. -/
theorem divHalfEven_nearest (num : Nat) {den : Nat} (hd : 0 < den) (j : Nat) :
    natDist (divHalfEven num den * den) num ≤ natDist (j * den) num
      ∧ (natDist (divHalfEven num den * den) num = natDist (j * den) num →
          j = divHalfEven num den ∨ divHalfEven num den % 2 = 0) := by
  have hm : den * (num / den) + num % den = num := Nat.div_add_mod num den
  have hr : num % den < den := Nat.mod_lt _ hd
  rw [Nat.mul_comm] at hm
  have hsucc : ∀ q : Nat, (q + 1) * den = q * den + den := fun q => by ring
  have hj : j * den ≤ num / den * den ∨ num / den * den + den ≤ j * den := by
    rcases Nat.lt_or_ge (num / den) j with h | h
    · exact .inr (by rw [← hsucc]; exact Nat.mul_le_mul_right _ h)
    · exact .inl (Nat.mul_le_mul_right _ h)
  have hinj : ∀ q : Nat, j * den = q * den → j = q := fun q h => Nat.eq_of_mul_eq_mul_right hd h
  generalize hp : num / den * den = p at *
  generalize hjd : j * den = jd at *
  unfold divHalfEven natDist; dsimp only
  split
  · rw [hsucc, hp]
    refine ⟨by omega, fun h => ?_⟩
    left; apply hinj; rw [hsucc, hp]; omega
  · split
    · rcases Nat.mod_two_eq_zero_or_one (num / den) with h2 | h2 <;> rw [h2]
      · rw [Nat.add_zero, hp]; exact ⟨by omega, fun _ => .inr h2⟩
      · rw [hsucc, hp]; exact ⟨by omega, fun _ => .inr (by omega)⟩
    · rw [hp]
      refine ⟨by omega, fun h => ?_⟩
      left; apply hinj; rw [hp]; omega

/-- Half a unit below a divisor's multiple: where `divHalfEven` stays below an even bound. -/
theorem divHalfEven_lt {num den b : Nat} (hd : 0 < den) (hb : b % 2 = 0) (hpos : 0 < b) :
    divHalfEven num den < b ↔ 2 * num < (2 * b - 1) * den := by
  have hm : den * (num / den) + num % den = num := Nat.div_add_mod num den
  have hr : num % den < den := Nat.mod_lt _ hd
  rw [Nat.mul_comm] at hm
  obtain ⟨c, rfl⟩ : ∃ c, b = c + 1 := ⟨b - 1, by omega⟩
  have hb2 : (2 * (c + 1) - 1) * den = 2 * (c * den) + den := by
    rw [show 2 * (c + 1) - 1 = 2 * c + 1 by omega]; ring
  rw [hb2]
  have hcase : num / den + 1 ≤ c ∨ num / den = c ∨ c + 1 ≤ num / den := by omega
  unfold divHalfEven; dsimp only
  rcases hcase with h | h | h
  · have hle : num / den * den + den ≤ c * den := by
      have := Nat.mul_le_mul_right den h
      rwa [Nat.add_mul, Nat.one_mul] at this
    generalize num / den * den = p at *
    generalize c * den = e at *
    split
    · constructor <;> intro _ <;> omega
    · split <;> (constructor <;> intro _ <;> omega)
  · rw [h] at hm ⊢
    generalize c * den = e at *
    split
    · constructor <;> intro _ <;> omega
    · split <;> (constructor <;> intro _ <;> omega)
  · have hle : c * den + den ≤ num / den * den := by
      have := Nat.mul_le_mul_right den h
      rwa [Nat.add_mul, Nat.one_mul] at this
    generalize num / den * den = p at *
    generalize c * den = e at *
    split
    · constructor <;> intro _ <;> omega
    · split <;> (constructor <;> intro _ <;> omega)

/-- The significand that `roundMag` rounds to at its exponent: it and its exponent make the value, and
no carry is lost. -/
theorem roundMag_significand (num : Nat) {den : Nat} (hd : 0 < den) :
    divHalfEven num (den <<< ((num / den).log2 - 23)) ≤ 2 ^ 24
      ∧ (0 < (num / den).log2 - 23 →
          2 ^ 23 ≤ divHalfEven num (den <<< ((num / den).log2 - 23))
            ∧ 2 ^ (23 + ((num / den).log2 - 23)) * den ≤ num) := by
  generalize hk : (num / den).log2 - 23 = k
  have hD : 0 < den <<< k := by rw [Nat.shiftLeft_eq]; exact Nat.mul_pos hd (Nat.two_pow_pos _)
  have hup : num / den < 2 ^ (24 + k) := by
    rcases Nat.eq_zero_or_pos (num / den) with h | h
    · rw [h]; exact Nat.two_pow_pos _
    · have := (Nat.log2_lt (by omega : num / den ≠ 0)).mp (Nat.lt_succ_self (num / den).log2)
      exact Nat.lt_of_lt_of_le this (Nat.pow_le_pow_right (by omega) (by omega))
  have hup2 : num < 2 ^ 24 * (den <<< k) := by
    have := Nat.div_lt_iff_lt_mul hd |>.mp hup
    rw [Nat.shiftLeft_eq, Nat.mul_comm den, ← Nat.mul_assoc, ← Nat.pow_add]; exact this
  have hq : num / (den <<< k) < 2 ^ 24 := (Nat.div_lt_iff_lt_mul hD).mpr hup2
  have hle : ∀ n d : Nat, n / d ≤ divHalfEven n d ∧ divHalfEven n d ≤ n / d + 1 := by
    intro n d
    unfold divHalfEven; dsimp only
    split
    · omega
    · split <;> omega
  refine ⟨by have := (hle num (den <<< k)).2; omega, fun hpos => ?_⟩
  have hne : num / den ≠ 0 := by intro h; rw [h] at hk; simp at hk; omega
  have hlow : 2 ^ (23 + k) ≤ num / den := by
    have := Nat.log2_self_le hne
    rwa [show (num / den).log2 = 23 + k by omega] at this
  have hnum : 2 ^ (23 + k) * den ≤ num := (Nat.le_div_iff_mul_le hd).mp hlow
  refine ⟨le_trans ?_ (hle num (den <<< k)).1, hnum⟩
  rw [Nat.le_div_iff_mul_le hD, Nat.shiftLeft_eq, Nat.mul_comm den, ← Nat.mul_assoc, ← Nat.pow_add]
  exact hnum

/-- Before the cap at infinity, the rounded magnitude is nearest to `num / den` among all magnitudes,
and has an even last bit where another one is as near. -/
theorem roundMag_nearest (num : Nat) {den : Nat} (hd : 0 < den) (m : Nat) :
    let k := (num / den).log2 - 23
    let r := k * 2 ^ 23 + divHalfEven num (den <<< k)
    natDist (magOf r * den) num ≤ natDist (magOf m * den) num
      ∧ (natDist (magOf r * den) num = natDist (magOf m * den) num →
          magOf r = magOf m ∨ r % 2 = 0) := by
  intro k r
  obtain ⟨h24, hlow⟩ := roundMag_significand num hd
  have hmag : magOf r = divHalfEven num (den <<< k) * 2 ^ k :=
    magOf_scaled h24 fun h => (hlow h).1
  have hD : 0 < den <<< k := by rw [Nat.shiftLeft_eq]; exact Nat.mul_pos hd (Nat.two_pow_pos _)
  have hscale : ∀ j : Nat, j * (den <<< k) = j * 2 ^ k * den := fun j => by
    rw [Nat.shiftLeft_eq]; ring
  have hpar : r % 2 = divHalfEven num (den <<< k) % 2 := by
    show (k * 2 ^ 23 + divHalfEven num (den <<< k)) % 2 = _
    omega
  have hmul : ∀ j : Nat, natDist (magOf r * den) num ≤ natDist (j * 2 ^ k * den) num
      ∧ (natDist (magOf r * den) num = natDist (j * 2 ^ k * den) num →
          magOf r = j * 2 ^ k ∨ r % 2 = 0) := by
    intro j
    have := divHalfEven_nearest num hD j
    rw [hscale, hscale, ← hmag, ← hpar] at this
    refine ⟨this.1, fun h => (this.2 h).imp (fun e => ?_) id⟩
    rw [hmag, e]
  rcases Nat.lt_or_ge (magOf m) (2 ^ (23 + k)) with hm | hm
  · rcases Nat.eq_zero_or_pos k with h0 | h0
    · have := hmul (magOf m)
      rwa [h0, Nat.pow_zero, Nat.mul_one] at this
    · have hnum : 2 ^ (23 + k) * den ≤ num := (hlow h0).2
      have hb := (hmul (2 ^ 23)).1
      have hpow : 2 ^ 23 * 2 ^ k * den = 2 ^ (23 + k) * den := by rw [Nat.pow_add]
      have hlt : magOf m * den < 2 ^ (23 + k) * den := Nat.mul_lt_mul_of_pos_right hm hd
      rw [hpow] at hb
      unfold natDist at *
      exact ⟨by omega, fun h => by omega⟩
  · obtain ⟨j, hj⟩ := magOf_multiple m hm
    rw [hj]; exact hmul j

/-- The cap: a rounded magnitude is finite exactly where the value is less than half a unit beyond the
largest finite one. -/
theorem roundMag_finite (num : Nat) {den : Nat} (hd : 0 < den) :
    ((num / den).log2 - 23) * 2 ^ 23 + divHalfEven num (den <<< ((num / den).log2 - 23)) < 0x7F800000
      ↔ num < (2 ^ 25 - 1) * 2 ^ 252 * den := by
  obtain ⟨h24, hlow⟩ := roundMag_significand num hd
  generalize hk : (num / den).log2 - 23 = k at *
  rcases Nat.lt_trichotomy k 253 with h | h | h
  · have hq : num / den < 2 ^ 276 := by
      rcases Nat.eq_zero_or_pos (num / den) with h0 | h0
      · rw [h0]; exact Nat.two_pow_pos _
      · have := (Nat.log2_lt (by omega : num / den ≠ 0)).mp (Nat.lt_succ_self (num / den).log2)
        exact Nat.lt_of_lt_of_le this (Nat.pow_le_pow_right (by omega) (by omega))
    have hn := (Nat.div_lt_iff_lt_mul hd).mp hq
    constructor
    · intro _
      exact Nat.lt_of_lt_of_le hn (Nat.mul_le_mul_right _ (by decide +kernel))
    · intro _; omega
  · subst h
    have hD : 0 < den <<< 253 := by
      rw [Nat.shiftLeft_eq]; exact Nat.mul_pos hd (Nat.two_pow_pos _)
    have := divHalfEven_lt (num := num) (b := 2 ^ 24) hD (by norm_num) (by norm_num)
    constructor
    · intro h
      have h2 := this.mp (by omega)
      rw [Nat.shiftLeft_eq] at h2
      have : (2 * 2 ^ 24 - 1) * (den * 2 ^ 253) = 2 * ((2 ^ 25 - 1) * 2 ^ 252 * den) := by ring
      omega
    · intro h
      have h2 := this.mpr (by
        rw [Nat.shiftLeft_eq]
        have : (2 * 2 ^ 24 - 1) * (den * 2 ^ 253) = 2 * ((2 ^ 25 - 1) * 2 ^ 252 * den) := by ring
        omega)
      omega
  · have h3 := hlow (by omega)
    have hpow : 2 ^ 277 ≤ 2 ^ (23 + k) := Nat.pow_le_pow_right (by omega) (by omega)
    have h4 : (2 ^ 25 - 1) * 2 ^ 252 * den ≤ num :=
      le_trans (Nat.mul_le_mul_right _ (le_trans (by decide +kernel) hpow)) h3.2
    constructor
    · intro h5; omega
    · intro h5; omega

/-! ## Patterns -/

/-- The magnitude field, bits 30:0, as a number. -/
def f32field (a : F32) : Nat := a.toNat % 2 ^ 31

theorem f32exp_eq (a : F32) : f32exp a = f32field a / 2 ^ 23 := by
  unfold f32exp f32field
  rw [BitVec.extractLsb'_toNat, Nat.shiftRight_eq_div_pow]
  omega

theorem f32frac_eq (a : F32) : f32frac a = f32field a % 2 ^ 23 := by
  unfold f32frac f32field
  rw [BitVec.extractLsb'_toNat, Nat.shiftRight_eq_div_pow]
  omega

theorem f32mag_eq (a : F32) : f32mag a = magOf (f32field a) := by
  unfold f32mag magOf
  rw [f32exp_eq, f32frac_eq, Nat.shiftLeft_eq]

theorem isfinite_iff (a : F32) : isfinite a = true ↔ f32field a < 0x7F800000 := by
  have : f32field a < 2 ^ 31 := Nat.mod_lt _ (by norm_num)
  unfold isfinite
  rw [f32exp_eq, bne_iff_ne]
  omega

/-- The pattern of a sign and a magnitude field. -/
theorem f32pack_fields (sign : Bool) {m : Nat} (hm : m < 2 ^ 31) :
    f32sign (f32pack sign m) = sign ∧ f32field (f32pack sign m) = m := by
  have hbit : (BitVec.ofNat 32 m).getLsbD 31 = false := by
    rw [BitVec.getLsbD_ofNat]
    simp [Nat.testBit_lt_two_pow hm]
  have hnat : (BitVec.ofNat 32 m).toNat = m := by
    rw [BitVec.toNat_ofNat]; exact Nat.mod_eq_of_lt (by omega)
  cases sign
  · refine ⟨?_, ?_⟩
    · simp only [f32sign, f32pack, Bool.false_eq_true, if_false, BitVec.zero_or]
      exact hbit
    · simp only [f32field, f32pack, Bool.false_eq_true, if_false, BitVec.zero_or, hnat]
      exact Nat.mod_eq_of_lt hm
  · refine ⟨?_, ?_⟩
    · simp only [f32sign, f32pack, if_true, BitVec.getLsbD_or, hbit, Bool.or_false]; decide
    · simp only [f32field, f32pack, if_true, BitVec.toNat_or, hnat]
      rw [Nat.or_mod_two_pow, Nat.mod_eq_of_lt hm]
      simp

/-- The value of a finite pattern, from its sign and its magnitude field. -/
theorem f32units_eq (a : F32) :
    f32units a = if f32sign a then -(magOf (f32field a) : Int) else (magOf (f32field a) : Int) := by
  unfold f32units; rw [f32mag_eq]

/-- `roundRat` gives the correctly rounded pattern of the signed value `num / den`. -/
theorem roundRat_nearest (sign : Bool) (num : Nat) {den : Nat} (hd : 0 < den) :
    NearestTo (roundRat sign num den) (if sign then -(num : Int) else num) den := by
  have hfin := roundMag_finite num hd
  have hnear := roundMag_nearest num hd
  unfold roundRat roundMag; dsimp only
  dsimp only at hnear
  generalize (num / den).log2 - 23 = k at *
  generalize hr : k * 2 ^ 23 + divHalfEven num (den <<< k) = r at *
  have hlt : min r 0x7F800000 < 2 ^ 31 := by omega
  obtain ⟨hs, hf⟩ := f32pack_fields sign hlt
  have habs : (if sign then -(num : Int) else num).natAbs = num := by cases sign <;> simp
  have hiff : isfinite (f32pack sign (min r 0x7F800000)) = true ↔ r < 0x7F800000 := by
    rw [isfinite_iff, hf]; omega
  refine ⟨?_, ?_, ?_, ?_⟩
  · rw [hiff, habs]; exact hfin
  · unfold isNaN
    rw [f32exp_eq, f32frac_eq, hf]
    by_cases h : r < 0x7F800000
    · rw [beq_eq_false_iff_ne.mpr (by omega), Bool.false_and]
    · rw [Nat.min_eq_right (by omega)]; decide
  · intro h0
    rw [hs]; cases sign <;> simp at h0 ⊢; omega
  · intro h c _
    have hrlt := hiff.mp h
    have hmin : min r 0x7F800000 = r := by omega
    rw [hmin] at hs hf ⊢
    have hc := hnear (f32field c)
    have h0 := hnear 0
    rw [magOf_zero, Nat.zero_mul] at h0
    rw [f32units_eq, f32units_eq, hs, hf, f32frac_eq, hf]
    have hpar : r % 2 ^ 23 % 2 = r % 2 := by omega
    rw [hpar]
    have hcast : ∀ m : Nat, (magOf m : Int) * den = ((magOf m * den : Nat) : Int) := fun m => by
      push_cast; rfl
    have hmulc : magOf (f32field c) * den = 0 → magOf (f32field c) = 0 := fun h => by
      rcases Nat.mul_eq_zero.mp h with h | h
      · exact h
      · omega
    unfold natDist at hc h0
    generalize hcs : f32sign c = cs
    cases sign <;> cases cs <;>
      simp only [Bool.false_eq_true, if_false, if_true, Int.neg_mul, hcast] <;>
      generalize magOf (f32field c) = vc at * <;>
      generalize magOf r = vr at * <;>
      generalize vc * den = xc at * <;>
      generalize vr * den = xr at * <;>
      (refine ⟨by omega, fun he => ?_⟩)
    · exact (hc.2 (by omega)).imp (fun e => by rw [e]) id
    · have hc0 := hmulc (by omega)
      exact (h0.2 (by omega)).imp (fun e => by omega) id
    · have hc0 := hmulc (by omega)
      exact (h0.2 (by omega)).imp (fun e => by omega) id
    · exact (hc.2 (by omega)).imp (fun e => by rw [e]) id

/-! ## Comparisons of values that are numbers -/

theorem f32gt_iff {a b : F32} (ha : isNaN a = false) (hb : isNaN b = false) :
    f32gt a b = true ↔ f32key b < f32key a := by
  simp [f32gt, ha, hb]

theorem f32ge_iff {a b : F32} (ha : isNaN a = false) (hb : isNaN b = false) :
    f32ge a b = true ↔ f32key b ≤ f32key a := by
  simp [f32ge, ha, hb]

theorem f32eq_iff {a b : F32} (ha : isNaN a = false) (hb : isNaN b = false) :
    f32eq a b = true ↔ f32key a = f32key b := by
  simp [f32eq, ha, hb]

/-! ## The integer square root -/

/-- `isqrtFrom` refines a root that is at most `2 ^ bits` too small. -/
theorem isqrtFrom_spec (n : Nat) : ∀ (bits r : Nat), r * r ≤ n → n < (r + 2 ^ bits) * (r + 2 ^ bits) →
    isqrtFrom n bits r * isqrtFrom n bits r ≤ n
      ∧ n < (isqrtFrom n bits r + 1) * (isqrtFrom n bits r + 1)
  | 0, r, h1, h2 => ⟨h1, by simpa [isqrtFrom] using h2⟩
  | bits + 1, r, h1, h2 => by
    unfold isqrtFrom; dsimp only
    split
    · rename_i h
      refine isqrtFrom_spec n bits _ h ?_
      rwa [Nat.add_assoc, ← Nat.two_mul, ← Nat.pow_succ']
    · rename_i h
      exact isqrtFrom_spec n bits r h1 (by omega)

/-- `isqrt` is the integer square root. -/
theorem isqrt_spec {n : Nat} (h : n < 2 ^ 220 * 2 ^ 220) :
    isqrt n * isqrt n ≤ n ∧ n < (isqrt n + 1) * (isqrt n + 1) :=
  isqrtFrom_spec n 220 0 (Nat.zero_le n) (by rwa [Nat.zero_add])

end Sys2Proof.Machine
end

