-- ==== Sys2Proof/Laws/PerInstr.lean ====
section
/-! SUPPORT. The rows of spec/opcode_table.json, transcribed, and one lemma per constructor: the word
of an instruction lies in its row, `(w & mask) == match` (30_encoding.md R132). -/

namespace Sys2Proof

-- One theorem after the other: in parallel each would hold a thread and its stack.
set_option Elab.async false

/-- The `mask` column of the opcode table. -/
def Instr.tableMask : Instr → Txn
  | .rdId => 0xFFFFFFFF00000000#64
  | .rdVersion => 0xFFFFFFFF00000000#64
  | .cmdReset => 0xFFFFFFFFFFFFFFFF#64
  | .cmdConfigure => 0xFFFFFFFFFFFFFFFF#64
  | .cmdStart => 0xFFFFFFFFFFFFFFFF#64
  | .cmdStop => 0xFFFFFFFFFFFFFFFF#64
  | .cmdResetCapture => 0xFFFFFFFFFFFFFFFF#64
  | .cmdOutPop => 0xFFFFFFFFFFFFFFFF#64
  | .cmdOutRewind => 0xFFFFFFFFFFFFFFFF#64
  | .cmdReserved _ => 0xFFFFFFFF00000000#64
  | .rdStatus => 0xFFFFFFFF00000000#64
  | .rdErr => 0xFFFFFFFF00000000#64
  | .wrErr _ => 0xFFFFFFFF00000000#64
  | .rdIrqEn => 0xFFFFFFFF00000000#64
  | .wrIrqEn _ => 0xFFFFFFFF00000000#64
  | .rdIrqStatus => 0xFFFFFFFF00000000#64
  | .wrSampleReal _ => 0xFFFFFFFF00000000#64
  | .wrSampleI _ => 0xFFFFFFFF00000000#64
  | .wrSampleQ _ => 0xFFFFFFFF00000000#64
  | .rdClock _ => 0xFFFFFFFB00000000#64
  | .rdCfg _ => 0xFFFFFFC300000000#64
  | .wrCfg _ _ => 0xFFFFFFC300000000#64
  | .rdDbg _ => 0xFFFFFFC300000000#64
  | .rdHistChan => 0xFFFFFFFF00000000#64
  | .wrHistChan _ => 0xFFFFFFFF00000000#64
  | .rdHistIndex => 0xFFFFFFFF00000000#64
  | .wrHistIndex _ => 0xFFFFFFFF00000000#64
  | .rdHistData => 0xFFFFFFFF00000000#64
  | .rdParam _ => 0xFFFFFFF300000000#64
  | .rdTcfg _ _ => 0xFFFFFF8300000000#64
  | .wrTcfg _ _ _ => 0xFFFFFF8300000000#64
  | .rdTstat _ _ => 0xFFFFFF8300000000#64
  | .rdCand _ _ => 0xFFFFFE0300000000#64
  | .rdSs _ _ => 0xFFFFFC0300000000#64
  | .rdAsm _ => 0xFFFFFFE300000000#64
  | .rdOut _ => 0xFFFFFFC300000000#64
  | .rdOutData => 0xFFFFFFFF00000000#64

/-- The `match` column of the opcode table. -/
def Instr.tableMatch : Instr → Txn
  | .rdId => 0x0000000000000000#64
  | .rdVersion => 0x0000000400000000#64
  | .cmdReset => 0x8000000800000001#64
  | .cmdConfigure => 0x8000000800000002#64
  | .cmdStart => 0x8000000800000003#64
  | .cmdStop => 0x8000000800000004#64
  | .cmdResetCapture => 0x8000000800000005#64
  | .cmdOutPop => 0x8000000800000006#64
  | .cmdOutRewind => 0x8000000800000007#64
  | .cmdReserved _ => 0x8000000800000000#64
  | .rdStatus => 0x0000000C00000000#64
  | .rdErr => 0x0000001000000000#64
  | .wrErr _ => 0x8000001000000000#64
  | .rdIrqEn => 0x0000001400000000#64
  | .wrIrqEn _ => 0x8000001400000000#64
  | .rdIrqStatus => 0x0000001800000000#64
  | .wrSampleReal _ => 0x8000002000000000#64
  | .wrSampleI _ => 0x8000002400000000#64
  | .wrSampleQ _ => 0x8000002800000000#64
  | .rdClock _ => 0x0000003000000000#64
  | .rdCfg _ => 0x0000004000000000#64
  | .wrCfg _ _ => 0x8000004000000000#64
  | .rdDbg _ => 0x0000008000000000#64
  | .rdHistChan => 0x000000C000000000#64
  | .wrHistChan _ => 0x800000C000000000#64
  | .rdHistIndex => 0x000000C400000000#64
  | .wrHistIndex _ => 0x800000C400000000#64
  | .rdHistData => 0x000000C800000000#64
  | .rdParam _ => 0x000000E000000000#64
  | .rdTcfg _ _ => 0x0000010000000000#64
  | .wrTcfg _ _ _ => 0x8000010000000000#64
  | .rdTstat _ _ => 0x0000018000000000#64
  | .rdCand _ _ => 0x0000020000000000#64
  | .rdSs _ _ => 0x0000040000000000#64
  | .rdAsm _ => 0x0000080000000000#64
  | .rdOut _ => 0x0000090000000000#64
  | .rdOutData => 0x0000094000000000#64

/-- A mask that leaves DATA out leaves only the upper half of the word. -/
theorem mkTxn_and_upper (write : Bool) (off : BitVec 12) (data : Word) (m : BitVec 32) :
    mkTxn write off data &&& (m ++ 0#32) =
      ((BitVec.ofBool write ++ 0#19 ++ off) &&& m) ++ 0#32 := by
  show ((BitVec.ofBool write ++ 0#19 ++ off) ++ data) &&& (m ++ 0#32) = _
  apply BitVec.eq_of_getLsbD_eq
  intro i hi
  simp only [BitVec.getLsbD_and, BitVec.getLsbD_append]
  by_cases h : i < 32 <;> simp [h]

/-- Family: the encoding of the instruction lies in its row of the opcode table. -/
def Laws.TableRow.Statement (i : Instr) : Prop := encode i &&& i.tableMask = i.tableMatch

namespace Laws.TableRow

theorem rdId : Statement (.rdId) := by
  unfold Statement
  decide

theorem rdVersion : Statement (.rdVersion) := by
  unfold Statement
  decide

theorem cmdReset : Statement (.cmdReset) := by
  unfold Statement
  decide

theorem cmdConfigure : Statement (.cmdConfigure) := by
  unfold Statement
  decide

theorem cmdStart : Statement (.cmdStart) := by
  unfold Statement
  decide

theorem cmdStop : Statement (.cmdStop) := by
  unfold Statement
  decide

theorem cmdResetCapture : Statement (.cmdResetCapture) := by
  unfold Statement
  decide

theorem cmdOutPop : Statement (.cmdOutPop) := by
  unfold Statement
  decide

theorem cmdOutRewind : Statement (.cmdOutRewind) := by
  unfold Statement
  decide

theorem cmdReserved (data : Word) : Statement (.cmdReserved data) := by
  refine (mkTxn_and_upper _ _ _ 0xFFFFFFFF#32).trans ?_
  simp only [Instr.isWrite, Instr.off, Instr.tableMatch]
  decide

theorem rdStatus : Statement (.rdStatus) := by
  unfold Statement
  decide

theorem rdErr : Statement (.rdErr) := by
  unfold Statement
  decide

theorem wrErr (data : Word) : Statement (.wrErr data) := by
  refine (mkTxn_and_upper _ _ _ 0xFFFFFFFF#32).trans ?_
  simp only [Instr.isWrite, Instr.off, Instr.tableMatch]
  decide

theorem rdIrqEn : Statement (.rdIrqEn) := by
  unfold Statement
  decide

theorem wrIrqEn (data : Word) : Statement (.wrIrqEn data) := by
  refine (mkTxn_and_upper _ _ _ 0xFFFFFFFF#32).trans ?_
  simp only [Instr.isWrite, Instr.off, Instr.tableMatch]
  decide

theorem rdIrqStatus : Statement (.rdIrqStatus) := by
  unfold Statement
  decide

theorem wrSampleReal (data : Word) : Statement (.wrSampleReal data) := by
  refine (mkTxn_and_upper _ _ _ 0xFFFFFFFF#32).trans ?_
  simp only [Instr.isWrite, Instr.off, Instr.tableMatch]
  decide

theorem wrSampleI (data : Word) : Statement (.wrSampleI data) := by
  refine (mkTxn_and_upper _ _ _ 0xFFFFFFFF#32).trans ?_
  simp only [Instr.isWrite, Instr.off, Instr.tableMatch]
  decide

theorem wrSampleQ (data : Word) : Statement (.wrSampleQ data) := by
  refine (mkTxn_and_upper _ _ _ 0xFFFFFFFF#32).trans ?_
  simp only [Instr.isWrite, Instr.off, Instr.tableMatch]
  decide

theorem rdClock (k : BitVec 1) : Statement (.rdClock k) := by
  unfold Statement
  revert k
  decide

theorem rdCfg (k : BitVec 4) : Statement (.rdCfg k) := by
  unfold Statement
  revert k
  decide

theorem wrCfg (k : BitVec 4) (data : Word) : Statement (.wrCfg k data) := by
  refine (mkTxn_and_upper _ _ _ 0xFFFFFFC3#32).trans ?_
  simp only [Instr.isWrite, Instr.off, Instr.tableMatch]
  revert k
  decide

theorem rdDbg (k : BitVec 4) : Statement (.rdDbg k) := by
  unfold Statement
  revert k
  decide

theorem rdHistChan : Statement (.rdHistChan) := by
  unfold Statement
  decide

theorem wrHistChan (data : Word) : Statement (.wrHistChan data) := by
  refine (mkTxn_and_upper _ _ _ 0xFFFFFFFF#32).trans ?_
  simp only [Instr.isWrite, Instr.off, Instr.tableMatch]
  decide

theorem rdHistIndex : Statement (.rdHistIndex) := by
  unfold Statement
  decide

theorem wrHistIndex (data : Word) : Statement (.wrHistIndex data) := by
  refine (mkTxn_and_upper _ _ _ 0xFFFFFFFF#32).trans ?_
  simp only [Instr.isWrite, Instr.off, Instr.tableMatch]
  decide

theorem rdHistData : Statement (.rdHistData) := by
  unfold Statement
  decide

theorem rdParam (k : BitVec 2) : Statement (.rdParam k) := by
  unfold Statement
  revert k
  decide

theorem rdTcfg (x : BitVec 2) (k : BitVec 3) : Statement (.rdTcfg x k) := by
  unfold Statement
  revert x k
  decide

theorem wrTcfg (x : BitVec 2) (k : BitVec 3) (data : Word) : Statement (.wrTcfg x k data) := by
  refine (mkTxn_and_upper _ _ _ 0xFFFFFF83#32).trans ?_
  simp only [Instr.isWrite, Instr.off, Instr.tableMatch]
  revert x k
  decide

theorem rdTstat (x : BitVec 2) (k : BitVec 3) : Statement (.rdTstat x k) := by
  unfold Statement
  revert x k
  decide

theorem rdCand (c : BitVec 4) (k : BitVec 3) : Statement (.rdCand c k) := by
  unfold Statement
  revert c k
  decide

theorem rdSs (c : BitVec 4) (k : BitVec 4) : Statement (.rdSs c k) := by
  unfold Statement
  revert c k
  decide

theorem rdAsm (k : BitVec 3) : Statement (.rdAsm k) := by
  unfold Statement
  revert k
  decide

theorem rdOut (k : BitVec 4) : Statement (.rdOut k) := by
  unfold Statement
  revert k
  decide

theorem rdOutData : Statement (.rdOutData) := by
  unfold Statement
  decide

end Laws.TableRow

end Sys2Proof
end

