-- ==== Sys2Proof/Laws/Tick.lean ====
section
/-! SUPPORT. What each phase of a tick (40_signal_conditioner.md R200) can do: which fields it changes
and which records it pushes. -/

namespace Sys2Proof.Machine

-- One theorem after the other: in parallel each would hold a thread and its stack.
set_option Elab.async false

/-! ## What the decoding phases change -/

/-- Only the search, stream, frame and timing state and the queue differ. -/
def State.OnlyDecoder (s t : State) : Prop :=
  t = { s with ss := t.ss, st := t.st, fs := t.fs, tim := t.tim, queue := t.queue }

theorem State.OnlyDecoder.refl (s : State) : s.OnlyDecoder s := rfl

theorem State.OnlyDecoder.trans {s t u : State} (h1 : s.OnlyDecoder t) (h2 : t.OnlyDecoder u) :
    s.OnlyDecoder u := by
  unfold State.OnlyDecoder at *
  rw [h1] at h2
  exact h2

theorem State.OnlyDecoder.sig {s t : State} (h : s.OnlyDecoder t) : t.sig = s.sig := by rw [h]
theorem State.OnlyDecoder.hist {s t : State} (h : s.OnlyDecoder t) : t.hist = s.hist := by rw [h]
theorem State.OnlyDecoder.params {s t : State} (h : s.OnlyDecoder t) : t.params = s.params := by rw [h]
theorem State.OnlyDecoder.bank {s t : State} (h : s.OnlyDecoder t) : t.bank = s.bank := by rw [h]
theorem State.OnlyDecoder.cfg {s t : State} (h : s.OnlyDecoder t) : t.cfg = s.cfg := by rw [h]
theorem State.OnlyDecoder.tcfg {s t : State} (h : s.OnlyDecoder t) : t.tcfg = s.tcfg := by rw [h]
theorem State.OnlyDecoder.run {s t : State} (h : s.OnlyDecoder t) : t.run = s.run := by rw [h]
theorem State.OnlyDecoder.configured {s t : State} (h : s.OnlyDecoder t) :
    t.configured = s.configured := by rw [h]
theorem State.OnlyDecoder.err {s t : State} (h : s.OnlyDecoder t) : t.err = s.err := by rw [h]
theorem State.OnlyDecoder.rptr {s t : State} (h : s.OnlyDecoder t) : t.rptr = s.rptr := by rw [h]

theorem State.only_push (s : State) (r : Record) : s.OnlyDecoder (s.push r) := rfl
theorem State.only_clearFrame (s : State) : s.OnlyDecoder s.clearFrame := rfl
theorem State.only_unexpect (s : State) (x : Tech) : s.OnlyDecoder (s.unexpect x) := rfl
theorem State.only_pollDone (s : State) (x : Tech) : s.OnlyDecoder (s.pollDone x) := rfl
theorem State.only_listenDone (s : State) (x : Tech) : s.OnlyDecoder (s.listenDone x) := rfl
theorem State.only_frameStart (s : State) (c : Row) : s.OnlyDecoder (s.frameStart c) := rfl
theorem State.only_lockRow (s : State) (c : Row) : s.OnlyDecoder (s.lockRow c) := rfl
theorem State.only_startupGuard (s : State) : s.OnlyDecoder s.startupGuard := rfl
theorem State.only_correlators (s : State) : s.OnlyDecoder s.correlators.1 := rfl
theorem State.only_deliverOne (s : State) (c : Row) (sym : Symbol) :
    s.OnlyDecoder (s.deliverOne c sym).1 := rfl

theorem State.only_clearFrameRow (s : State) : s.OnlyDecoder s.clearFrameRow := by
  unfold State.clearFrameRow
  split <;> rfl

theorem State.only_startupPhase (s : State) : s.OnlyDecoder s.startupPhase := by
  unfold State.startupPhase
  split
  · exact s.only_startupGuard
  · exact .refl s

theorem State.only_timeoutCheck (s : State) (x : Tech) : s.OnlyDecoder (s.timeoutCheck x) := by
  unfold State.timeoutCheck
  split
  · exact (s.only_push _).trans (State.only_unexpect _ x)
  · exact .refl s

theorem State.only_timeouts (s : State) : s.OnlyDecoder s.timeouts :=
  ((s.only_timeoutCheck .a).trans (State.only_timeoutCheck _ .b)).trans (State.only_timeoutCheck _ .v)

theorem State.only_complete (s : State) : s.OnlyDecoder s.complete := by
  unfold State.complete
  cases s.fs.dir
  · exact ((s.only_push _).trans (State.only_pollDone _ _)).trans (State.only_clearFrame _)
  · exact ((s.only_push _).trans (State.only_listenDone _ _)).trans (State.only_clearFrame _)

theorem State.only_abandon (s : State) (t : Clock) : s.OnlyDecoder (s.abandon t) := by
  unfold State.abandon
  cases s.fs.dir
  · exact (s.only_push _).trans (State.only_clearFrame _)
  · exact ((s.only_push _).trans (State.only_unexpect _ _)).trans (State.only_clearFrame _)

/-- The three ways a frame ends (44_frame_assembler.md R402): nothing to report, a completion, or an
abandonment at the flush, from the state with the flushed stream. -/
theorem State.endFrame_cases (s : State) (t : Clock) :
    s.endFrame t = s.clearFrame ∨
      ∃ st, s.endFrame t = State.clearFrame { s with st := st }
        ∨ s.endFrame t = State.complete { s with st := st } ∧ 1 ≤ st.bytes.toNat
        ∨ s.endFrame t = State.abandon { s with st := st } t := by
  unfold State.endFrame
  split
  · exact .inl rfl
  · rename_i c _
    refine .inr ⟨(s.st.flush (s.decoderEnv c)).1, ?_⟩
    dsimp only
    split
    · exact .inr (.inr rfl)
    · split
      · exact .inr (.inl ⟨rfl, ‹_›⟩)
      · exact .inl rfl
    · split
      · exact .inr (.inl ⟨rfl, ‹_›⟩)
      · exact .inl rfl

theorem State.only_endFrame (s : State) (t : Clock) : s.OnlyDecoder (s.endFrame t) := by
  rcases s.endFrame_cases t with h | ⟨st, h | ⟨h, -⟩ | h⟩ <;> rw [h]
  · exact s.only_clearFrame
  · rfl
  · exact State.OnlyDecoder.trans (t := { s with st := st }) rfl (State.only_complete _)
  · exact State.OnlyDecoder.trans (t := { s with st := st }) rfl (State.only_abandon _ t)

theorem State.only_arbitrate (s : State) (out : PerRow RowOut) :
    s.OnlyDecoder (s.arbitrate out).1 := by
  unfold State.arbitrate
  split
  · exact .refl s
  · exact (s.only_lockRow _).trans (State.only_frameStart _ _)

theorem State.only_deliver (s : State) (eof : Option Row) (l : List Symbol) :
    s.OnlyDecoder (s.deliver eof l).1 := by
  induction l generalizing s with
  | nil => exact .refl s
  | cons sym rest ih =>
    unfold State.deliver
    split
    · exact .refl s
    · rename_i c _
      have h1 := s.only_deliverOne c sym
      split <;> rename_i s' heq <;> rw [heq] at h1
      · exact h1.trans (ih s')
      · exact (h1.trans s'.only_clearFrameRow).trans (State.only_endFrame _ _)
      · exact (h1.trans s'.only_clearFrameRow).trans (State.only_abandon _ _)

theorem State.only_correlatorEof (s : State) (eof : Option Row) :
    s.OnlyDecoder (s.correlatorEof eof) := by
  unfold State.correlatorEof
  split
  · exact s.only_endFrame _
  · exact .refl s

/-- Phases 4 to 7 change nothing of the conditioner, the configuration or the host's registers. -/
theorem State.only_tickBack (s : State) : s.OnlyDecoder s.tickBack :=
  ((s.only_correlators.trans (State.only_arbitrate _ _)).trans (State.only_deliver _ _ _)).trans
    (State.only_correlatorEof _ _)

/-- A tick changes only the signal state, the histories and what the decoding phases change. -/
theorem State.tick_only (s : State) (m : F32) :
    s.tick m =
      { s with
        sig := { s.sig.condition s.cfg m with clock := (s.sig.condition s.cfg m).clock + 1#64 }
        hist := s.hist.record (ringIndex s.params s.sig.clock) (s.sig.condition s.cfg m)
        ss := (s.tick m).ss
        st := (s.tick m).st
        fs := (s.tick m).fs
        tim := (s.tick m).tim
        queue := (s.tick m).queue } := by
  have h1 := s.only_startupPhase
  have h2 := (s.startupPhase.conditioner m).only_timeouts
  have h3 := (s.tickFront m).only_tickBack
  have h4 : (s.startupPhase.conditioner m).OnlyDecoder (s.tickFront m).tickBack := h2.trans h3
  unfold State.tick State.advanceClock
  rw [h4]
  simp only [State.conditioner, h1.sig, h1.hist, h1.cfg, h1.params]
  rw [h1]

@[simp] theorem State.tick_params (s : State) (m : F32) : (s.tick m).params = s.params := by
  rw [s.tick_only m]
@[simp] theorem State.tick_run (s : State) (m : F32) : (s.tick m).run = s.run := by
  rw [s.tick_only m]
@[simp] theorem State.tick_configured (s : State) (m : F32) : (s.tick m).configured = s.configured := by
  rw [s.tick_only m]
@[simp] theorem State.tick_err (s : State) (m : F32) : (s.tick m).err = s.err := by
  rw [s.tick_only m]
@[simp] theorem State.tick_irqEn (s : State) (m : F32) : (s.tick m).irqEn = s.irqEn := by
  rw [s.tick_only m]
@[simp] theorem State.tick_iLatch (s : State) (m : F32) : (s.tick m).iLatch = s.iLatch := by
  rw [s.tick_only m]
@[simp] theorem State.tick_iValid (s : State) (m : F32) : (s.tick m).iValid = s.iValid := by
  rw [s.tick_only m]
@[simp] theorem State.tick_histChan (s : State) (m : F32) : (s.tick m).histChan = s.histChan := by
  rw [s.tick_only m]
@[simp] theorem State.tick_histIndex (s : State) (m : F32) : (s.tick m).histIndex = s.histIndex := by
  rw [s.tick_only m]
@[simp] theorem State.tick_cfg (s : State) (m : F32) : (s.tick m).cfg = s.cfg := by
  rw [s.tick_only m]
@[simp] theorem State.tick_tcfg (s : State) (m : F32) : (s.tick m).tcfg = s.tcfg := by
  rw [s.tick_only m]
@[simp] theorem State.tick_bank (s : State) (m : F32) : (s.tick m).bank = s.bank := by
  rw [s.tick_only m]
@[simp] theorem State.tick_rptr (s : State) (m : F32) : (s.tick m).rptr = s.rptr := by
  rw [s.tick_only m]
@[simp] theorem State.tick_inputs (s : State) (m : F32) : (s.tick m).inputs = s.inputs := by
  rw [s.tick_only m]
@[simp] theorem State.tick_response (s : State) (m : F32) : (s.tick m).response = s.response := by
  rw [s.tick_only m]

/-! ## The conditioner -/

@[simp] theorem SignalState.envelope_clock (g : SignalState) (cfg : CondCfg) (m : F32) :
    (g.envelope cfg m).clock = g.clock := by
  unfold SignalState.envelope
  split
  · rfl
  · dsimp only
    split <;> rfl

@[simp] theorem SignalState.envelope_value (g : SignalState) (cfg : CondCfg) (m : F32) :
    (g.envelope cfg m).value = g.value := by
  unfold SignalState.envelope
  split
  · rfl
  · dsimp only
    split <;> rfl

@[simp] theorem SignalState.envelope_edgeFast (g : SignalState) (cfg : CondCfg) (m : F32) :
    (g.envelope cfg m).edgeFast = g.edgeFast := by
  unfold SignalState.envelope
  split
  · rfl
  · dsimp only
    split <;> rfl

@[simp] theorem SignalState.envelope_edgeSlow (g : SignalState) (cfg : CondCfg) (m : F32) :
    (g.envelope cfg m).edgeSlow = g.edgeSlow := by
  unfold SignalState.envelope
  split
  · rfl
  · dsimp only
    split <;> rfl

/-- The clock does not move in the conditioner (R207). -/
@[simp] theorem SignalState.condition_clock (g : SignalState) (cfg : CondCfg) (m : F32) :
    (g.condition cfg m).clock = g.clock := by
  simp [SignalState.condition, SignalState.edges]

/-- The magnitude is the value of the sample (R206). -/
@[simp] theorem SignalState.condition_value (g : SignalState) (cfg : CondCfg) (m : F32) :
    (g.condition cfg m).value = m := by
  simp [SignalState.condition, SignalState.edges]

theorem Histories.channel_record (h : Histories) (j : Nat) (g : SignalState) (chan : BitVec 2) :
    (h.record j g).channel chan = Memory.write (h.channel chan) j
      (if chan = 0#2 then g.value else if chan = 1#2 then g.deviation
        else if chan = 2#2 then g.edge else g.depth) := by
  unfold Histories.channel Histories.record
  split <;> [rfl; split <;> [rfl; split <;> rfl]]

/-! ## Records pushed -/

/-- `t` holds the records of `s` followed by at most `n` new ones, each of them meeting `P`. -/
def State.PushesAtMost (P : Record → Prop) (n : Nat) (s t : State) : Prop :=
  ∃ new : List Record, t.queue = s.queue ++ new ∧ new.length ≤ n ∧ ∀ r ∈ new, P r

theorem State.PushesAtMost.none {P : Record → Prop} {s t : State} (h : t.queue = s.queue) (n : Nat) :
    State.PushesAtMost P n s t := ⟨[], by simp [h], Nat.zero_le n, by simp⟩

theorem State.PushesAtMost.one {P : Record → Prop} {s t : State} {r : Record}
    (h : t.queue = s.queue ++ [r]) (hr : P r) : State.PushesAtMost P 1 s t :=
  ⟨[r], h, Nat.le_refl 1, by simpa using hr⟩

theorem State.PushesAtMost.trans {P : Record → Prop} {n k : Nat} {s t u : State}
    (h1 : State.PushesAtMost P n s t) (h2 : State.PushesAtMost P k t u) :
    State.PushesAtMost P (n + k) s u := by
  obtain ⟨a, ha, hn, hP⟩ := h1
  obtain ⟨b, hb, hk, hQ⟩ := h2
  refine ⟨a ++ b, by rw [hb, ha, List.append_assoc], by simp; omega, ?_⟩
  intro r hr
  rcases List.mem_append.mp hr with h | h
  · exact hP r h
  · exact hQ r h

theorem State.PushesAtMost.mono {P Q : Record → Prop} {n k : Nat} {s t : State} (hnk : n ≤ k)
    (hPQ : ∀ r, P r → Q r) (h : State.PushesAtMost P n s t) : State.PushesAtMost Q k s t := by
  obtain ⟨a, ha, hn, hP⟩ := h
  exact ⟨a, ha, by omega, fun r hr => hPQ r (hP r hr)⟩

theorem State.complete_queue (s : State) : s.complete.queue = s.queue ++ [s.frameRecord] := by
  unfold State.complete
  cases s.fs.dir <;> rfl

theorem State.abandon_queue (s : State) (t : Clock) :
    (s.abandon t).queue = s.queue ++ [s.abandonedRecord t] := by
  unfold State.abandon
  cases s.fs.dir <;> rfl

theorem State.timeoutCheck_queue (s : State) (x : Tech) :
    (s.timeoutCheck x).queue =
      s.queue ++ (if s.timedOut x then [s.timeoutRecord x s.sig.clock] else []) := by
  unfold State.timeoutCheck
  split <;> simp [*, State.push, State.unexpect]

/-- Phase 3 pushes at most one TIMEOUT for each technology (44_frame_assembler.md R412). -/
theorem State.timeouts_pushes (s : State) :
    State.PushesAtMost (fun r => r.kind = .timeout) 3 s s.timeouts := by
  have h : ∀ (u : State) (x : Tech),
      State.PushesAtMost (fun r => r.kind = .timeout) 1 u (u.timeoutCheck x) := by
    intro u x
    refine ⟨_, u.timeoutCheck_queue x, ?_, ?_⟩ <;> split <;> simp [State.timeoutRecord]
  exact ((h s .a).trans (h _ .b)).trans (h _ .v)

theorem State.endFrame_pushes (s : State) (t : Clock) :
    State.PushesAtMost (fun r => r.kind ≠ .timeout) 1 s (s.endFrame t) := by
  rcases s.endFrame_cases t with h | ⟨st, h | ⟨h, -⟩ | h⟩ <;> rw [h]
  · exact .none rfl 1
  · exact .none rfl 1
  · exact .one (State.complete_queue _) (by simp [State.frameRecord])
  · exact .one (State.abandon_queue _ t) (by simp [State.abandonedRecord])

@[simp] theorem State.clearFrameRow_queue (s : State) : s.clearFrameRow.queue = s.queue := by
  unfold State.clearFrameRow
  split <;> rfl

@[simp] theorem State.correlators_queue (s : State) : s.correlators.1.queue = s.queue := rfl

@[simp] theorem State.arbitrate_queue (s : State) (out : PerRow RowOut) :
    (s.arbitrate out).1.queue = s.queue := by
  unfold State.arbitrate
  split <;> rfl

/-- Phase 6 either keeps the end-of-frame request and pushes nothing, or drops the request and pushes
at most one record (44_frame_assembler.md R401). -/
theorem State.deliver_pushes (s : State) (eof : Option Row) (l : List Symbol) :
    ((s.deliver eof l).2 = eof ∧ (s.deliver eof l).1.queue = s.queue)
      ∨ ((s.deliver eof l).2 = none
          ∧ State.PushesAtMost (fun r => r.kind ≠ .timeout) 1 s (s.deliver eof l).1) := by
  induction l generalizing s with
  | nil => exact .inl ⟨rfl, rfl⟩
  | cons sym rest ih =>
    unfold State.deliver
    split
    · exact .inl ⟨rfl, rfl⟩
    · rename_i c _
      have hq : (s.deliverOne c sym).1.queue = s.queue := rfl
      split <;> rename_i s' heq <;> rw [heq] at hq <;> replace hq : s'.queue = s.queue := hq
      · rcases ih s' with ⟨h1, h2⟩ | ⟨h1, h2⟩
        · exact .inl ⟨h1, h2.trans hq⟩
        · refine .inr ⟨h1, ?_⟩
          obtain ⟨a, ha, hn⟩ := h2
          exact ⟨a, by rw [ha, hq], hn⟩
      · refine .inr ⟨rfl, ?_⟩
        obtain ⟨a, ha, hn⟩ := State.endFrame_pushes s'.clearFrameRow s'.sig.clock
        exact ⟨a, by rw [ha, State.clearFrameRow_queue, hq], hn⟩
      · refine .inr ⟨rfl, .one (r := s'.clearFrameRow.abandonedRecord s'.sig.clock) ?_
          (by simp [State.abandonedRecord])⟩
        rw [State.abandon_queue, State.clearFrameRow_queue, hq]

/-- Phases 4 to 7 push at most one record, no TIMEOUT (R412). -/
theorem State.tickBack_pushes (s : State) :
    State.PushesAtMost (fun r => r.kind ≠ .timeout) 1 s s.tickBack := by
  unfold State.tickBack
  dsimp only
  rcases State.deliver_pushes (s.correlators.1.arbitrate s.correlators.2).1
    (eofPending s.correlators.2) (s.correlators.1.arbitrate s.correlators.2).2 with ⟨h1, h2⟩ | ⟨h1, h2⟩
  · unfold State.correlatorEof
    split
    · obtain ⟨a, ha, hn⟩ := State.endFrame_pushes
        ((s.correlators.1.arbitrate s.correlators.2).1.deliver (eofPending s.correlators.2)
          (s.correlators.1.arbitrate s.correlators.2).2).1 _
      exact ⟨a, by rw [ha, h2]; simp, hn⟩
    · exact .none (by rw [h2]; simp) 1
  · obtain ⟨a, ha, hn⟩ := h2
    refine ⟨a, ?_, hn⟩
    rw [h1]
    simpa [State.correlatorEof] using ha

end Sys2Proof.Machine
end

