-- ==== Sys2Proof/Machine/Assembler.lean ====
section
/-! DEFINITION. The assembler syntax and the pseudo-instructions (30_encoding.md R160 to R162): host
software, as functions from text to transaction words. The machine does not use them (log 13). -/

namespace Sys2Proof.Machine

/-- A word of the text. -/
abbrev Token := List Char

/-! ## Register names (R160) -/

/-- The registers that stand alone (R135, R141, R150). -/
def plainNames : List (String × BitVec 12) :=
  [("ID", 0x000), ("VERSION", 0x004), ("CMD", 0x008), ("STATUS", 0x00C), ("ERR", 0x010),
   ("IRQ_EN", 0x014), ("IRQ_STATUS", 0x018), ("SAMPLE_REAL", 0x020), ("SAMPLE_I", 0x024),
   ("SAMPLE_Q", 0x028), ("CLOCK_LO", 0x030), ("CLOCK_HI", 0x034), ("HIST_CHAN", 0x0C0),
   ("HIST_INDEX", 0x0C4), ("HIST_DATA", 0x0C8), ("OUT_DATA", 0x940)]

/-- The fields of the CFG block (R139). -/
def cfgNames : List String :=
  ["ALPHA_AVG_LIVE", "ALPHA_DEV_LIVE", "ALPHA_AVG_SIL", "ALPHA_DEV_SIL", "ALPHA_EDGE_FAST",
   "ALPHA_EDGE_SLOW", "HYST_FACTOR", "SILENCE_LIMIT", "THR_K", "MIN_DEPTH", "SAMPLE_RATE",
   "CAND_ENABLE", "B_IDLE_LIMIT"]

/-- The fields of the DBG block (R140). -/
def dbgNames : List String :=
  ["VALUE", "AVERAGE", "DEVIATION", "EDGE_FAST", "EDGE_SLOW", "DEPTH", "THRESHOLD", "SILENCE",
   "I_LATCH"]

/-- The fields of the PARAM block (R142). -/
def paramNames : List String := ["HIST_SIZE", "BUF_CAP", "OUTQ_DEPTH", "NUM_CAND"]

/-- The fields of the TCFG block (R145). -/
def tcfgNames : List String :=
  ["MAX_FRAME_SIZE", "FRAME_GUARD_TIME", "FRAME_WAITING_TIME", "STARTUP_GUARD_TIME",
   "REQUEST_GUARD_TIME"]

/-- The fields of the TSTAT block (44_frame_assembler.md R420). -/
def tstatNames : List String :=
  ["GUARD_POLL_LO", "GUARD_POLL_HI", "WAIT_END_LO", "WAIT_END_HI", "TECH_STATUS",
   "GUARD_LISTEN_LO", "GUARD_LISTEN_HI"]

/-- The fields of the CAND block (41_candidate_bank.md R258). -/
def candNames : List String :=
  ["CAND_INFO", "PERIOD", "PFX", "HALF", "QUARTER", "EIGHTH", "TAU", "WEIGHT"]

/-- The fields of the SS block (42_symbol_correlator.md R340). -/
def ssNames : List String :=
  ["SS_STAGE", "START", "END", "PEAK_TIME", "PEAK_VALUE", "PULSE_WIDTH", "THRESH", "XP",
   "EXP_FX_LO", "EXP_FX_HI", "BEST_TIME", "BEST_VALUE", "CORR0", "CORR1", "SYM_END"]

/-- The fields of the ASM block (44_frame_assembler.md R421). -/
def asmNames : List String :=
  ["ASM_STATUS", "STREAM_STATUS", "STREAM_BYTES", "STREAM_RUN", "FRAME_START_LO",
   "FRAME_START_HI", "LAST_END_LO", "LAST_END_HI"]

/-- The fields of the OUT block (R150). -/
def outNames : List String :=
  ["OUT_STATUS", "OUT_LEN", "OUT_T0_LO", "OUT_T0_HI", "OUT_T1_LO", "OUT_T1_HI", "OUT_CMD",
   "OUT_RATE", "OUT_RPTR"]

/-- The commands by name (R143). -/
def cmdNames : List (String × Word) :=
  [("RESET", 1), ("CONFIGURE", 2), ("START", 3), ("STOP", 4), ("RESET_CAPTURE", 5),
   ("OUT_POP", 6), ("OUT_REWIND", 7)]

/-- The place of a name in a block. -/
def nameIndex (names : List String) (t : Token) : Option Nat :=
  names.findIdx? fun n => n.toList == t

/-- The value of a name in a table. -/
def nameValue {α : Type} (names : List (String × α)) (t : Token) : Option α :=
  (names.find? fun n => n.1.toList == t).map Prod.snd

/-- An unsigned decimal number. -/
def parseNat (t : Token) : Option Nat :=
  if t.isEmpty then none
  else t.foldlM (fun n c => if c.isDigit then some (10 * n + (c.toNat - 48)) else none) 0

/-- A technology, A, B, V or 0..2 (R160). -/
def parseTech (t : Token) : Option Nat :=
  if t == ['A'] then some 0 else if t == ['B'] then some 1 else if t == ['V'] then some 2
  else (parseNat t).filter (· ≤ 2)

/-- The offset of element k of a block. -/
def blockOff (base : Nat) (k : Nat) : BitVec 12 := BitVec.ofNat 12 (base + 4 * k)

/-- The prefix of a name before its first dot, and the rest. -/
def splitDot (t : Token) : Token × Token := (t.takeWhile (· != '.'), (t.dropWhile (· != '.')).drop 1)

/-- The block name and the index of an indexed register, `NAME[i]`. -/
def splitIndex (t : Token) : Token × Token :=
  (t.takeWhile (· != '['), ((t.dropWhile (· != '[')).drop 1).takeWhile (· != ']'))

/-- The offset of a register name (R160). -/
def regOff (t : Token) : Option (BitVec 12) :=
  let (block, name) := splitDot t
  let (array, idx) := splitIndex block
  if name.isEmpty then nameValue plainNames t
  else if block == "CFG".toList then (nameIndex cfgNames name).map (blockOff 0x040)
  else if block == "DBG".toList then (nameIndex dbgNames name).map (blockOff 0x080)
  else if block == "PARAM".toList then (nameIndex paramNames name).map (blockOff 0x0E0)
  else if block == "ASM".toList then (nameIndex asmNames name).map (blockOff 0x800)
  else if block == "OUT".toList then (nameIndex outNames name).map (blockOff 0x900)
  else if array == "TCFG".toList then do
    let x ← parseTech idx
    let k ← nameIndex tcfgNames name
    some (blockOff (0x100 + 0x20 * x) k)
  else if array == "TSTAT".toList then do
    let x ← parseTech idx
    let k ← nameIndex tstatNames name
    some (blockOff (0x180 + 0x20 * x) k)
  else if array == "CAND".toList then do
    let c ← (parseNat idx).filter (· ≤ 10)
    let k ← nameIndex candNames name
    some (blockOff (0x200 + 0x20 * c) k)
  else if array == "SS".toList then do
    let c ← (parseNat idx).filter (· ≤ 10)
    let k ← nameIndex ssNames name
    some (blockOff (0x400 + 0x40 * c) k)
  else none

/-! ## Values (R161) -/

/-- The digit of a hexadecimal character. -/
def hexDigit (c : Char) : Option Nat :=
  if c.isDigit then some (c.toNat - 48)
  else if 'a' ≤ c ∧ c ≤ 'f' then some (c.toNat - 87)
  else if 'A' ≤ c ∧ c ≤ 'F' then some (c.toNat - 55)
  else none

/-- A hexadecimal number without its prefix. -/
def parseHex (t : Token) : Option Nat :=
  if t.isEmpty then none else t.foldlM (fun n c => (hexDigit c).map (16 * n + ·)) 0

/-- The binary32 value nearest `digits * 10 ^ up / 10 ^ down`, ties to even (R161). -/
def f32ofDecimal (sign : Bool) (digits up down : Nat) : F32 :=
  roundRat sign ((digits * 10 ^ up) <<< 149) (10 ^ down)

/-- An unsigned decimal `d.d` with an optional exponent. -/
def parseDecimal (sign : Bool) (t : Token) : Option F32 :=
  let mant := t.takeWhile (· != 'e')
  let expo := (t.dropWhile (· != 'e')).drop 1
  let (whole, part) := splitDot mant
  do
    let digits ← parseNat (whole ++ part)
    match expo with
    | [] => some (f32ofDecimal sign digits 0 part.length)
    | '-' :: e => (parseNat e).map fun n => f32ofDecimal sign digits 0 (part.length + n)
    | e => (parseNat e).map fun n => f32ofDecimal sign digits n part.length

/-- A signed decimal as a binary32 value. -/
def parseF32 : Token → Option F32
  | '-' :: t => parseDecimal true t
  | t => parseDecimal false t

/-- VALUE (R161): a hexadecimal integer, a decimal integer, or a binary32 literal; an integer that
32 bits do not hold is none. -/
def parseValue (t : Token) : Option Word :=
  if t.take 4 == "f32:".toList then parseF32 (t.drop 4)
  else
    let n := if t.take 2 == "0x".toList then parseHex (t.drop 2) else parseNat t
    (n.filter (· < 2 ^ 32)).map (BitVec.ofNat 32)

/-! ## Lines (R160, R162) -/

/-- What a line stands for: one transaction, or the reading of a record, whose length is known when
the host reads it. -/
inductive Line
  | txn (w : Txn)
  | readRecord
deriving DecidableEq, Repr

/-- The read of a register. -/
def rdLine (off : BitVec 12) : Line := .txn (mkTxn false off 0#32)

/-- The write of a register. -/
def wrLine (off : BitVec 12) (v : Word) : Line := .txn (mkTxn true off v)

/-- The write of a command code (R143). -/
def cmdLine (code : Word) : Line := wrLine 0x008#12 code

/-- The transactions of `readrecord` for a record of `len` bytes (R162). -/
def readRecordTxns (len : Nat) : List Txn :=
  ((List.range 7).map fun k => mkTxn false (blockOff 0x900 k) 0#32)
    ++ List.replicate len (mkTxn false 0x940#12 0#32) ++ [mkTxn true 0x008#12 6#32]

/-- The pseudo-instructions without operands (R162), and their lines. -/
def nullaryLines (t : Token) : Option (List Line) :=
  if t == "reset".toList then some [cmdLine 1]
  else if t == "configure".toList then some [cmdLine 2]
  else if t == "start".toList then some [cmdLine 3]
  else if t == "stop".toList then some [cmdLine 4]
  else if t == "pop".toList then some [cmdLine 6]
  else if t == "readclock".toList then some [rdLine 0x030, rdLine 0x034]
  else if t == "readrecord".toList then some [.readRecord]
  else none

/-- The instructions and pseudo-instructions with one operand. -/
def unaryLines (t a : Token) : Option (List Line) :=
  if t == "rd".toList then (regOff a).map fun o => [rdLine o]
  else if t == "cmd".toList then (nameValue cmdNames a).map fun v => [cmdLine v]
  else if t == "sample".toList then (parseF32 a).map fun v => [wrLine 0x020 v]
  else none

/-- The instructions and pseudo-instructions with two operands. -/
def binaryLines (t a b : Token) : Option (List Line) :=
  if t == "wr".toList then do
    let o ← regOff a
    let v ← parseValue b
    some [wrLine o v]
  else if t == "sampleiq".toList then do
    let i ← parseF32 a
    let q ← parseF32 b
    some [wrLine 0x024 i, wrLine 0x028 q]
  else if t == "cfg".toList then do
    let k ← nameIndex cfgNames a
    let v ← parseValue b
    some [wrLine (blockOff 0x040 k) v]
  else none

/-- `tcfg x, NAME, v` (R162). -/
def ternaryLines (t a b c : Token) : Option (List Line) :=
  if t == "tcfg".toList then do
    let x ← parseTech a
    let k ← nameIndex tcfgNames b
    let v ← parseValue c
    some [wrLine (blockOff (0x100 + 0x20 * x) k) v]
  else none

/-- The braces of `repeat` (R162). -/
def openBrace : Token := [Char.ofNat 123]

/-- The closing brace of `repeat` (R162). -/
def closeBrace : Token := [Char.ofNat 125]

/-- The lines of a token sequence up to its end or a closing brace, and the tokens after; `fuel`
bounds the number of statements. -/
def parseLines : Nat → List Token → Option (List Line × List Token)
  | 0, _ => none
  | _ + 1, [] => some ([], [])
  | fuel + 1, t :: rest =>
    if t == closeBrace then some ([], t :: rest)
    else if t == "repeat".toList then
      match rest with
      | n :: b :: rest' => do
        let count ← parseNat n
        if b == openBrace then
          let (body, after) ← parseLines fuel rest'
          match after with
          | [] => none
          | _ :: after' =>
            let (more, last) ← parseLines fuel after'
            some ((List.replicate count body).flatten ++ more, last)
        else none
      | _ => none
    else
      let continueWith (ls : List Line) (ts : List Token) : Option (List Line × List Token) :=
        (parseLines fuel ts).map fun r => (ls ++ r.1, r.2)
      match nullaryLines t, rest with
      | some ls, _ => continueWith ls rest
      | none, a :: r1 =>
        match unaryLines t a, r1 with
        | some ls, _ => continueWith ls r1
        | none, b :: r2 =>
          match binaryLines t a b, r2 with
          | some ls, _ => continueWith ls r2
          | none, c :: r3 => (ternaryLines t a b c).bind fun ls => continueWith ls r3
          | none, [] => none
        | none, [] => none
      | none, [] => none

/-! ## Text -/

/-- A character that separates tokens. -/
def isGap (c : Char) : Bool := c == ' ' || c == ',' || c == '\n' || c == '\t'

/-- A character that is a token of its own. -/
def isBrace (c : Char) : Bool := [c] == openBrace || [c] == closeBrace

/-- The tokens of a text; a comment runs from a semicolon to the end of its line (R160). `cur` is the
token being read, reversed. -/
def tokensFrom (cur : Token) (comment : Bool) : List Char → List Token
  | [] => if cur.isEmpty then [] else [cur.reverse]
  | c :: rest =>
    let flush (ts : List Token) := if cur.isEmpty then ts else cur.reverse :: ts
    if comment then tokensFrom [] (c != '\n') rest
    else if c == ';' then flush (tokensFrom [] true rest)
    else if isGap c then flush (tokensFrom [] false rest)
    else if isBrace c then flush ([c] :: tokensFrom [] false rest)
    else tokensFrom (c :: cur) false rest

/-- The transactions of lines, the records read having these lengths in order. -/
def linesTxns : List Nat → List Line → List Txn
  | _, [] => []
  | lens, .txn w :: rest => w :: linesTxns lens rest
  | lens, .readRecord :: rest => readRecordTxns (lens.headD 0) ++ linesTxns lens.tail rest

/-- The transactions of a program text; `lens` are the lengths of the records its `readrecord`s read
(R160 to R162). -/
def assemble (lens : List Nat) (text : String) : Option (List Txn) :=
  let toks := tokensFrom [] false text.toList
  match parseLines (2 * toks.length + 1) toks with
  | some (ls, []) => some (linesTxns lens ls)
  | some (_, _ :: _) => none
  | none => none

end Sys2Proof.Machine
end

