-- ==== Sys2Proof/Tests/Slice0.lean ====
section
/-! SUPPORT. The model's own tests: ill-formed terms refused, a word of every instruction written out from
spec/30_encoding.md, single steps whose expected values come from the worked examples and vectors of
spec/, and, for each obligation with hypotheses, a state and operands that meet them. -/

namespace Sys2Proof.Tests

open Sys2Proof Sys2Proof.Machine

-- Each `decide +kernel` waits for the kernel's check of everything before it, on a thread of its own
-- when theorems are elaborated in parallel: one after the other, the tests need one thread.
set_option Elab.async false

/-! ## WellFormed refuses -/

theorem test_illformed_cmdReserved_low : (Instr.cmdReserved 1#32).wellFormed = false := by decide
theorem test_illformed_cmdReserved_high : (Instr.cmdReserved 7#32).wellFormed = false := by decide
theorem test_illformed_rdCfg : (Instr.rdCfg 13#4).wellFormed = false := by decide
theorem test_illformed_wrCfg : (Instr.wrCfg 13#4 0#32).wellFormed = false := by decide
theorem test_illformed_rdDbg : (Instr.rdDbg 9#4).wellFormed = false := by decide
theorem test_illformed_rdTcfg_x : (Instr.rdTcfg 3#2 0#3).wellFormed = false := by decide
theorem test_illformed_rdTcfg_k : (Instr.rdTcfg 0#2 5#3).wellFormed = false := by decide
theorem test_illformed_wrTcfg_x : (Instr.wrTcfg 3#2 0#3 0#32).wellFormed = false := by decide
theorem test_illformed_wrTcfg_k : (Instr.wrTcfg 0#2 5#3 0#32).wellFormed = false := by decide
theorem test_illformed_rdTstat_x : (Instr.rdTstat 3#2 0#3).wellFormed = false := by decide
theorem test_illformed_rdTstat_k : (Instr.rdTstat 0#2 7#3).wellFormed = false := by decide
theorem test_illformed_rdCand : (Instr.rdCand 11#4 0#3).wellFormed = false := by decide
theorem test_illformed_rdSs_c : (Instr.rdSs 11#4 0#4).wellFormed = false := by decide
theorem test_illformed_rdSs_k : (Instr.rdSs 0#4 15#4).wellFormed = false := by decide
theorem test_illformed_rdOut : (Instr.rdOut 9#4).wellFormed = false := by decide

/-! ## Decoding, the words written as W, RSV, OFF, DATA (R130); offsets and fields from R135 to R150 -/

/-- A word from its four fields, bit by bit as R130 lays them out. -/
def word (w : BitVec 1) (off : BitVec 12) (data : BitVec 32) : Txn := w ++ 0#19 ++ off ++ data

-- 45_host_interface.md R451, R452: the words the worked examples print.
theorem test_decode_rdId : decode 0x0000000000000000#64 = .ok .rdId := by decide
theorem test_decode_rdVersion : decode 0x0000000400000000#64 = .ok .rdVersion := by decide
-- R143: command codes, OFF 0x008.
theorem test_decode_cmdReset : decode (word 1#1 0b000000001000#12 1#32) = .ok .cmdReset := by decide
theorem test_decode_cmdConfigure : decode (word 1#1 0b000000001000#12 2#32) = .ok .cmdConfigure := by
  decide
theorem test_decode_cmdStart : decode 0x8000000800000003#64 = .ok .cmdStart := by decide
theorem test_decode_cmdStop : decode (word 1#1 0b000000001000#12 4#32) = .ok .cmdStop := by decide
theorem test_decode_cmdResetCapture :
    decode (word 1#1 0b000000001000#12 5#32) = .ok .cmdResetCapture := by decide
theorem test_decode_cmdOutPop : decode (word 1#1 0b000000001000#12 6#32) = .ok .cmdOutPop := by decide
theorem test_decode_cmdOutRewind : decode (word 1#1 0b000000001000#12 7#32) = .ok .cmdOutRewind := by
  decide
-- V45-DEC: CMD DATA 0x100.
theorem test_decode_cmdReserved : decode 0x8000000800000100#64 = .ok (.cmdReserved 0x100#32) := by
  decide
-- R135: OFF 0x00C, 0x010, 0x014, 0x018, 0x020, 0x024, 0x028, 0x030/0x034.
theorem test_decode_rdStatus : decode 0x0000000C00000000#64 = .ok .rdStatus := by decide
theorem test_decode_rdErr : decode (word 0#1 0b000000010000#12 0#32) = .ok .rdErr := by decide
theorem test_decode_wrErr : decode 0x8000001000000004#64 = .ok (.wrErr 4#32) := by decide
theorem test_decode_rdIrqEn : decode (word 0#1 0b000000010100#12 0#32) = .ok .rdIrqEn := by decide
theorem test_decode_wrIrqEn : decode 0x800000140000FFFF#64 = .ok (.wrIrqEn 0xFFFF#32) := by decide
theorem test_decode_rdIrqStatus : decode (word 0#1 0b000000011000#12 0#32) = .ok .rdIrqStatus := by
  decide
theorem test_decode_wrSampleReal :
    decode 0x800000203F800000#64 = .ok (.wrSampleReal 0x3F800000#32) := by decide
theorem test_decode_wrSampleI :
    decode (word 1#1 0b000000100100#12 0x40400000#32) = .ok (.wrSampleI 0x40400000#32) := by decide
theorem test_decode_wrSampleQ :
    decode (word 1#1 0b000000101000#12 0x40800000#32) = .ok (.wrSampleQ 0x40800000#32) := by decide
theorem test_decode_rdClock : decode (word 0#1 0b000000110100#12 0#32) = .ok (.rdClock 1#1) := by
  decide
-- R139: OFF[11:6] = 000001, k = OFF[5:2]; R140: 000010.
theorem test_decode_rdCfg : decode (word 0#1 0b000001011000#12 0#32) = .ok (.rdCfg 6#4) := by decide
theorem test_decode_wrCfg :
    decode 0x8000006800CEE8C0#64 = .ok (.wrCfg 10#4 13560000#32) := by decide
theorem test_decode_rdDbg : decode (word 0#1 0b000010001100#12 0#32) = .ok (.rdDbg 3#4) := by decide
-- R141: OFF 0x0C0, 0x0C4, 0x0C8; R142: OFF[11:4] = 0x0E, k = OFF[3:2].
theorem test_decode_rdHistChan : decode (word 0#1 0b000011000000#12 0#32) = .ok .rdHistChan := by
  decide
theorem test_decode_wrHistChan :
    decode (word 1#1 0b000011000000#12 3#32) = .ok (.wrHistChan 3#32) := by decide
theorem test_decode_rdHistIndex : decode (word 0#1 0b000011000100#12 0#32) = .ok .rdHistIndex := by
  decide
theorem test_decode_wrHistIndex :
    decode (word 1#1 0b000011000100#12 0x12345#32) = .ok (.wrHistIndex 0x12345#32) := by decide
theorem test_decode_rdHistData : decode (word 0#1 0b000011001000#12 0#32) = .ok .rdHistData := by
  decide
theorem test_decode_rdParam : decode (word 0#1 0b000011101100#12 0#32) = .ok (.rdParam 3#2) := by
  decide
-- R145: OFF[11:7] = 00010, x = OFF[6:5], k = OFF[4:2]; R146: 00011.
theorem test_decode_rdTcfg :
    decode (word 0#1 0b000100110000#12 0#32) = .ok (.rdTcfg 1#2 4#3) := by decide
theorem test_decode_wrTcfg : decode 0x8000010800000064#64 = .ok (.wrTcfg 0#2 2#3 100#32) := by decide
theorem test_decode_rdTstat :
    decode (word 0#1 0b000111011000#12 0#32) = .ok (.rdTstat 2#2 6#3) := by decide
-- R147: OFF[11:9] = 001, c = OFF[8:5], k = OFF[4:2]; R148: OFF[11:10] = 01, c = OFF[9:6], k = OFF[5:2].
theorem test_decode_rdCand :
    decode (word 0#1 0b001010111100#12 0#32) = .ok (.rdCand 5#4 7#3) := by decide
theorem test_decode_rdSs :
    decode (word 0#1 0b011010111000#12 0#32) = .ok (.rdSs 10#4 14#4) := by decide
-- R149: OFF[11:5] = 1000000, k = OFF[4:2]; R150: OFF[11:6] = 100100, k = OFF[5:2], and OFF 0x940.
theorem test_decode_rdAsm : decode (word 0#1 0b100000011100#12 0#32) = .ok (.rdAsm 7#3) := by decide
theorem test_decode_rdOut : decode (word 0#1 0b100100100000#12 0#32) = .ok (.rdOut 8#4) := by decide
theorem test_decode_rdOutData : decode (word 0#1 0b100101000000#12 0#32) = .ok .rdOutData := by decide

-- V45-DEC: malformed words.
theorem test_malformed_reserved : decode 0x0000100000000000#64 = .error .reservedBits := by decide
theorem test_malformed_misaligned : decode 0x0000000100000000#64 = .error .misaligned := by decide
theorem test_malformed_unmapped : decode 0x0000001C00000000#64 = .error .unmapped := by decide
theorem test_malformed_write_ro : decode 0x8000000000000005#64 = .error .writeOfReadOnly := by decide
theorem test_malformed_read_wo : decode 0x0000000800000000#64 = .error .readOfWriteOnly := by decide
theorem test_malformed_cand : decode 0x0000036000000000#64 = .error .unmapped := by decide
theorem test_malformed_ss : decode 0x0000043C00000000#64 = .error .unmapped := by decide
theorem test_malformed_tcfg : decode 0x0000017400000000#64 = .error .unmapped := by decide
theorem test_malformed_dbg : decode 0x000000A400000000#64 = .error .unmapped := by decide

/-! ## Single steps -/

/-- Whether the instruction answers a next state that meets `f`. -/
def after (i : Instr) (s : State) (f : State → Bool) : Bool :=
  match exec i s with
  | .next t => f t
  | .fault _ => false
  | .refused _ => false

/-- The value the instruction returns to the host. -/
def returned (i : Instr) (s : State) : Option Word :=
  match exec i s with
  | .next t => t.response
  | .fault _ => none
  | .refused _ => none

/-- Configured with the reset configuration and running. -/
def running : State :=
  { State.reset with
    run := true
    configured := true
    bank := bankOf Params.default CondCfg.reset }

/-- The FRAME record of REQA (95_test_vectors.md P3). -/
def reqa : Record :=
  { kind := .frame, tech := .a, dir := .poll, cand := some .aPoll106, rate := 106#16
    parErr := false, crcErr := false, lastbits := 7#4, bytes := [0x26#8], t0 := 23#64
    t1 := 95#64, cmd := 0#8, cmdValid := false }

/-- The TIMEOUT record of P3 (V44-TIMEOUT). -/
def timeoutA : Record :=
  { kind := .timeout, tech := .a, dir := .listen, cand := none, rate := 0#16
    parErr := false, crcErr := false, lastbits := 0#4, bytes := [], t0 := 195#64
    t1 := 195#64, cmd := 0x26#8, cmdValid := true }

/-- Running with the REQA record queued. -/
def queued : State := { running with queue := [reqa] }

/-- Running with the average at 1.0 and the deviation at 0, at clock 24 (P3's settled carrier). -/
def settled : State :=
  { running with
    sig := { SignalState.reset with clock := 24#64, average := f32one, edgeFast := f32one } }

/-- P3's settings: 847500 samples per second, row 6 with a period of 8 samples. -/
def slow : State :=
  { settled with bank := bankOf Params.default { CondCfg.reset with sampleRate := 847500#32 } }

/-- Row 6 LOCKED with its frame in progress, as after the lock tick of P3. -/
def locked : State :=
  { slow with
    sig := { slow.sig with clock := 40#64 }
    ss := slow.ss.set .aPoll106
      { SearchState.reset with
        stage := .locked, found := true, peakPat := .first, sym1Pat := .first
        peakTime := 0x1F#64, expFx := 0x2F00#64, symEnd := 0x27#64, thresh := 0x3D4CCCCD#32 }
    fs := ⟨.accumulating, some .aPoll106, .a, .poll, 106#16, 23#64, 39#64⟩
    st := { StreamState.reset with phase := .data, prevPat := .second } }

-- R453: after reset 0x00000F00; configured and running 0x00000F07.
theorem test_rdStatus_reset : returned .rdStatus State.reset = some 0x00000F00#32 := by decide +kernel
theorem test_rdStatus_running : returned .rdStatus running = some 0x00000F07#32 := by decide +kernel
-- R451, R452.
theorem test_rdId : returned .rdId State.reset = some 0x4E464344#32 := by decide
theorem test_rdVersion : returned .rdVersion State.reset = some 1#32 := by decide
-- R454, R455: ERR = 0x05, `wr ERR, 0x4` leaves 0x01.
theorem test_rdErr : returned .rdErr { State.reset with err := 0x58#8 } = some 0x58#32 := by decide
theorem test_wrErr :
    after (.wrErr 4#32) { State.reset with err := 5#8 } (fun t => t.err == 1#8) = true := by decide
-- R457, R456: IRQ_EN keeps two bits.
theorem test_wrIrqEn :
    after (.wrIrqEn 0xFFFF#32) State.reset (fun t => t.irqEn == 3#2) = true := by decide
theorem test_rdIrqEn : returned .rdIrqEn { State.reset with irqEn := 2#2 } = some 2#32 := by decide
-- R458, V60-IRQ.
theorem test_rdIrqStatus_err :
    returned .rdIrqStatus { State.reset with irqEn := 2#2, err := 8#8 } = some 6#32 := by decide
theorem test_rdIrqStatus_queue :
    returned .rdIrqStatus { queued with irqEn := 1#2 } = some 5#32 := by decide +kernel
-- R459.
theorem test_rdClock :
    returned (.rdClock 1#1)
      { State.reset with sig := { SignalState.reset with clock := 0x500000003#64 } }
      = some 5#32 := by decide
-- R460, R462, R464.
theorem test_rdCfg : returned (.rdCfg 6#4) State.reset = some 0x3F733333#32 := by decide
theorem test_rdTcfg : returned (.rdTcfg 1#2 0#3) State.reset = some 256#32 := by decide
theorem test_rdParam : returned (.rdParam 0#2) State.reset = some 1024#32 := by decide
theorem test_rdParam_cand : returned (.rdParam 3#2) State.reset = some 11#32 := by decide
-- R461: CAND_ENABLE keeps DATA[10:0] and CONFIGURED is cleared; refused while running.
theorem test_wrCfg :
    after (.wrCfg 11#4 0xFFFFF001#32) { State.reset with configured := true }
      (fun t => t.cfg.candEnable == 1#11 && !t.configured) = true := by decide
theorem test_wrCfg_locked :
    after (.wrCfg 10#4 1#32) running
      (fun t => t.err == 0x10#8 && t.cfg == CondCfg.reset && t.configured) = true := by
  decide +kernel
-- R463: FRAME_WAITING_TIME of A.
theorem test_wrTcfg :
    after (.wrTcfg 0#2 2#3 100#32) State.reset
      (fun t => t.tcfg.a.frameWaitingTime == 100#32 && t.tcfg.b == TechCfg.reset) = true := by decide
-- R470, R472, R473.
theorem test_cmdReserved :
    after (.cmdReserved 8#32) State.reset (fun t => t.err == 4#8) = true := by decide
theorem test_cmdStart_refused :
    after .cmdStart State.reset (fun t => t.err == 4#8 && !t.run) = true := by decide
theorem test_cmdStart :
    after .cmdStart { State.reset with configured := true } (fun t => t.err == 0#8 && t.run)
      = true := by decide
theorem test_cmdStop : after .cmdStop running (fun t => !t.run && t.configured) = true := by
  decide +kernel
-- R471, R474: a full reset clears ERR; a capture reset keeps it.
theorem test_cmdReset :
    after .cmdReset { queued with err := 0xFF#8 } (fun t => decide (t = State.reset)) = true := by
  decide +kernel
theorem test_cmdResetCapture :
    after .cmdResetCapture { settled with run := false, err := 4#8 }
      (fun t => t.sig == SignalState.reset && t.err == 4#8 && t.configured) = true := by
  decide +kernel
-- R476: after reset, CAND[6].PERIOD is 94; SAMPLE_RATE = 1 fails.
theorem test_cmdConfigure :
    after .cmdConfigure State.reset
      (fun t => (t.bank.get .aPoll106).p == 94#32 && t.configured) = true := by decide +kernel
theorem test_cmdConfigure_refused :
    after .cmdConfigure { State.reset with cfg := { CondCfg.reset with sampleRate := 1#32 } }
      (fun t => t.err == 0x20#8 && !t.configured) = true := by decide +kernel
-- R477, R475.
theorem test_cmdOutPop :
    after .cmdOutPop { queued with rptr := 1#16 } (fun t => t.queue == [] && t.rptr == 0#16)
      = true := by decide +kernel
theorem test_cmdOutPop_empty : after .cmdOutPop running (fun t => t.err == 0x40#8) = true := by
  decide +kernel
theorem test_cmdOutRewind :
    after .cmdOutRewind { queued with rptr := 1#16 } (fun t => t.rptr == 0#16) = true := by
  decide +kernel
-- V40-SEQ, the tick at t = 0; 40_signal_conditioner.md section 5.
theorem test_wrSampleReal_first :
    after (.wrSampleReal 0x3F800000#32) running
      (fun t => t.sig == ⟨1#64, 0x3F800000#32, 0x3D800000#32, 0x3D800000#32, 0x3F000000#32,
          0x3E000000#32, 0xC1700000#32, 0x40800000#32, 0#32⟩
        && Memory.read t.hist.hedge 0 == 0x3EC00000#32) = true := by decide +kernel
-- V40-SEQ, the tick at t = 6: the sample -3.5.
theorem test_wrSampleReal_negative :
    after (.wrSampleReal 0xC0600000#32)
      { running with
        sig := ⟨6#64, 0x3F800000#32, 0x3E7C6C40#32, 0x3E5B3140#32, 0x3F2C0000#32, 0x3EC9B780#32,
          0xC043A0BA#32, 0x405E4C72#32, 0#32⟩ }
      (fun t => t.sig == ⟨7#64, 0x40600000#32, 0x3EE652BE#32, 0x3ECEDBB4#32, 0x40058000#32,
          0x3F484048#32, 0xC0D8F8CC#32, 0x4065EB49#32, 0#32⟩) = true := by decide +kernel
-- V42-TRIG and V42-SEARCH, the tick at t = 24 of P3: row 6 starts its search.
theorem test_trigger :
    after (.wrSampleReal 0#32) slow
      (fun t => t.sig.depth == 0x3F800000#32 && t.sig.threshold == 0x3D4CCCCD#32
        && t.sig.silence == 1#32 && (t.ss.get .aPoll106).start == 24#64
        && (t.ss.get .aPoll106).stop == 32#64) = true := by decide +kernel
-- R202, R203, V40-REJ.
theorem test_wrSampleI :
    after (.wrSampleI 0x40400000#32) State.reset
      (fun t => t.iLatch == 0x40400000#32 && t.iValid && t.sig.clock == 0#64) = true := by decide
theorem test_wrSampleQ :
    after (.wrSampleQ 0x40800000#32) { running with iLatch := 0x40400000#32, iValid := true }
      (fun t => t.sig.value == 0x40A00000#32 && !t.iValid && t.err == 0#8) = true := by
  decide +kernel
theorem test_wrSampleQ_alone :
    after (.wrSampleQ 0x40800000#32) running (fun t => t.err == 0x80#8 && t.sig.clock == 0#64)
      = true := by decide +kernel
-- R481 to R486.
theorem test_rdDbg : returned (.rdDbg 3#4) settled = some 0x3F800000#32 := by decide +kernel
theorem test_wrHistChan :
    after (.wrHistChan 7#32) State.reset (fun t => t.histChan == 3#2) = true := by decide
theorem test_rdHistChan : returned .rdHistChan { State.reset with histChan := 3#2 } = some 3#32 := by
  decide
theorem test_wrHistIndex :
    after (.wrHistIndex 0x12345#32) State.reset (fun t => t.histIndex == 0x12345#32) = true := by
  decide
theorem test_rdHistIndex :
    returned .rdHistIndex { State.reset with histIndex := 0x12345#32 } = some 0x12345#32 := by decide
theorem test_rdHistData :
    returned .rdHistData
      { State.reset with
        histChan := 3#2, histIndex := 1027#32, hist := ⟨[], [], [], [(3, 0xC1700000#32)]⟩ }
      = some 0xC1700000#32 := by decide
-- V41-INFO, R340, R420, R421.
theorem test_rdCand : returned (.rdCand 6#4 0#3) State.reset = some 0x006A0000#32 := by decide
theorem test_rdCand_listen : returned (.rdCand 8#4 0#3) running = some 0x006A3054#32 := by
  decide +kernel
theorem test_rdSs : returned (.rdSs 6#4 0#4) locked = some 0x00010113#32 := by decide +kernel
theorem test_rdSs_xp : returned (.rdSs 6#4 7#4) locked = some 0x2F#32 := by decide +kernel
theorem test_rdTstat :
    returned (.rdTstat 0#2 4#3)
      { State.reset with tim := State.reset.tim.set .a ⟨0#64, 0#64, 195#64, true, 0x26#8, true⟩ }
      = some 0x00000326#32 := by decide
theorem test_rdAsm : returned (.rdAsm 0#3) locked = some 0x006A0601#32 := by decide +kernel
theorem test_rdAsm_reset : returned (.rdAsm 0#3) State.reset = some 0x00000F00#32 := by decide
-- R500, R501, V44-TIMEOUT.
theorem test_rdOut : returned (.rdOut 0#4) queued = some 0x00070600#32 := by decide +kernel
theorem test_rdOut_timeout :
    returned (.rdOut 0#4) { running with queue := [timeoutA] } = some 0x00000F11#32 := by
  decide +kernel
theorem test_rdOutData :
    after .rdOutData queued (fun t => t.response == some 0x26#32 && t.rptr == 1#16) = true := by
  decide +kernel
theorem test_rdOutData_end :
    after .rdOutData { queued with rptr := 1#16 }
      (fun t => t.response == some 0#32 && t.err == 0x40#8 && t.rptr == 1#16) = true := by
  decide +kernel

-- R104, V45-DEC: a malformed read through the step.
theorem test_step_malformed :
    step { State.reset with inputs := [.txn 0x0000001C00000000#64] }
      = .next { State.reset with err := 8#8, response := some 0#32 } := by rfl
-- R107: the placed transaction runs at the next step.
theorem test_withFetchWord :
    step (State.reset.withFetchWord 64 0x8000000800000004)
      = exec .cmdStop State.reset := by rfl

/-! ## The parts of a tick -/

-- V42-EVAL at t = 200: HALF row 6, t-7 and t-6; NRZ row 7 in TRACK mode; PPM4 row 9, slot 2.
theorem test_eval_half :
    State.eval { slow with hist := ⟨[], [], [], [(193, f32one), (194, f32one)]⟩ } .aPoll106 200#64
      0x3D4CCCCD#32 .acquire
      = ⟨true, .first, 0x40000000#32, 0x40000000#32, 0#32⟩ := by decide +kernel
theorem test_eval_nrz :
    slow.eval .bPoll106 200#64 0x3D4CCCCD#32 .track
      = ⟨true, .nrzOne, 0#32, 0#32, 0x3ECCCCCD#32⟩ := by decide +kernel
theorem test_eval_ppm4 :
    (State.eval
      { slow with
        hist := ⟨[], [], [], (List.range 8).map (fun j => (177 + j, f32one))⟩ }
      .vPoll26 200#64 0x3D4CCCCD#32 .acquire).pat = .ppm2 := by decide +kernel

/-- What the decoder reads for a frame of row `c` with the reset configuration. -/
def env (c : Row) : DecoderEnv := ⟨c, 512, 256#32, 16#32⟩

/-- The state and the answer after a list of patterns delivered from a frame start. -/
def deliverAll (g : DecoderEnv) (t : StreamState) (last : Answer) :
    List Pattern → StreamState × Answer
  | [] => (t, last)
  | p :: rest =>
    let r := t.accumulate g ⟨p, 0#64, 0#64, 0#32, g.row⟩
    deliverAll g r.1 r.2 rest

-- V43-SYM: row 6, 0x93 with parity bit 0, which is wrong; row 9, P3 then P1 P0 P3 P2.
theorem test_decoder_parity :
    let r := deliverAll (env .aPoll106) (StreamState.frameStart .parityOdd) .cont
      [.first, .second, .second, .first, .first, .second, .first, .first, .second, .first]
    (r.1.parErr, r.1.buf, r.1.bytes, r.2) = (true, [(0, 0x93#8)], 1#16, .cont) := by decide +kernel
theorem test_decoder_ppm :
    (deliverAll (env .vPoll26) (StreamState.frameStart .plain) .cont
      [.ppm3, .ppm1, .ppm0, .ppm3, .ppm2]).1.buf = [(0, 0xB1#8)] := by decide +kernel
-- V43-FLUSH: eight pending ones store 0x7F with LASTBITS 7; one pending bit is dropped.
theorem test_flush_eight :
    (StreamState.flush { StreamState.reset with phase := .data, data := 0xFF#8, bitcnt := 8#4 }
      (env .aPoll106)).1
      = { StreamState.reset with
          phase := .data, data := 0xFF#8, bitcnt := 8#4, lastbits := 7#4, bytes := 1#16
          buf := [(0, 0x7F#8)] } := by decide +kernel
theorem test_flush_one :
    (StreamState.flush { StreamState.reset with phase := .data, data := 1#8, bitcnt := 1#4 }
      (env .aPoll106)).1.bytes = 0#16 := by decide +kernel
-- V44-TIMEOUT.
theorem test_timeout :
    (State.timeoutCheck
      { slow with
        sig := { slow.sig with clock := 195#64 }
        tim := slow.tim.set .a ⟨0#64, 0#64, 195#64, true, 0x26#8, true⟩ } .a).queue
      = [timeoutA] := by decide +kernel

-- 30_encoding.md R160, R161: assembler text.
theorem test_assemble_cmd : assemble [] "cmd CONFIGURE" = some [0x8000000800000002#64] := by
  decide +kernel

/-! ## Hypotheses of the obligations: states and operands that meet them -/

/-- Running with four records queued: exactly four entries free. -/
def four : State := { running with queue := [reqa, timeoutA, timeoutA, reqa] }

/-- Running with five records queued: not READY. -/
def five : State := { running with queue := [reqa, timeoutA, timeoutA, reqa, timeoutA] }

theorem test_witness_DecodeOfEncode :
    (Instr.rdSs 10#4 14#4).wellFormed = true ∧ (Instr.wrCfg 12#4 0xFFFFFFFF#32).wellFormed = true
      ∧ (Instr.cmdReserved 0#32).wellFormed = true ∧ (Instr.cmdReserved 8#32).wellFormed = true := by
  decide

theorem test_witness_EncodeOfDecode :
    decode 0x8000007000000010#64 = .ok (.wrCfg 12#4 16#32)
      ∧ decode 0x000000700000FFFF#64 = .ok (.rdCfg 12#4) := by decide

theorem test_witness_StepRunsDecodedTransaction :
    { State.reset with inputs := [HostInput.txn 0x8000000800000004#64, .reset] }.inputs
        = .txn 0x8000000800000004#64 :: [.reset]
      ∧ decode 0x8000000800000004#64 = .ok .cmdStop := by decide

theorem test_witness_MalformedTransaction :
    (0x0000100000000000#64).extractLsb' 44 19 ≠ 0#19
      ∧ (0xC000002000000000#64).extractLsb' 44 19 ≠ 0#19
      ∧ mapped ((0x0000001C00000000#64).getLsbD 63)
          ((0x0000001C00000000#64).extractLsb' 32 12).toNat = false
      ∧ mapped ((0x8000000000000005#64).getLsbD 63)
          ((0x8000000000000005#64).extractLsb' 32 12).toNat = false := by decide

theorem test_witness_EveryStepCompletes : State.reset.inputs = [] := rfl

theorem test_witness_FullReset :
    { State.reset with inputs := [HostInput.reset] }.inputs = .reset :: [] := rfl

theorem test_witness_StatusRead_locked :
    (locked.ss.get .aPoll106).stage = .locked
      ∧ ∀ d : Row, (locked.ss.get d).stage = .locked → d = .aPoll106 := by
  refine ⟨by decide, fun d => ?_⟩
  cases d <;> decide

theorem test_witness_StatusRead_none : ∀ c : Row, (State.reset.ss.get c).stage ≠ .locked := by
  intro c; cases c <;> decide

theorem test_witness_reads :
    (12#4).toNat ≤ 12 ∧ (4#3).toNat ≤ 4 ∧ (8#4).toNat ≤ 8 ∧ (14#4).toNat ≤ 14 ∧ (6#3).toNat ≤ 6
      ∧ 10 < (11#4).toNat ∧ 10 < (15#4).toNat := by decide

theorem test_witness_DebugAndHistoryReads (chan : BitVec 2) :
    { State.reset with histChan := chan }.histChan = chan := rfl

theorem test_witness_StreamAndFrameReads :
    locked.fs.cand = some .aPoll106 ∧ State.reset.fs.cand = none := by decide

theorem test_witness_OutputReads :
    State.reset.queue = [] ∧ queued.queue = reqa :: [] ∧ reqa.cand = some .aPoll106
      ∧ { queued with queue := [timeoutA] }.queue = timeoutA :: [] ∧ timeoutA.cand = none := by
  decide

theorem test_witness_OutputDataRead :
    queued.queue = reqa :: [] ∧ queued.rptr.toNat < reqa.bytes.length
      ∧ reqa.bytes.length ≤ { queued with rptr := 1#16 }.rptr.toNat
      ∧ timeoutA.bytes.length ≤ { queued with queue := [timeoutA] }.rptr.toNat := by decide

theorem test_witness_runLocked : running.run = true ∧ State.reset.run = false := by decide

theorem test_witness_SimpleCommands :
    0#32 ∉ [1#32, 2#32, 3#32, 4#32, 5#32, 6#32, 7#32]
      ∧ 8#32 ∉ [1#32, 2#32, 3#32, 4#32, 5#32, 6#32, 7#32]
      ∧ State.reset.configured = false ∧ running.configured = true := by decide

theorem test_witness_Configure_legal :
    State.reset.run = false ∧ State.reset.LegalConfig
      ∧ ∃ c : Row, (bankRow State.reset.params State.reset.cfg c).active = true := by
  refine ⟨rfl, ⟨fun v hv => ?_, by decide +kernel, by decide +kernel, by decide +kernel,
    by decide +kernel, by decide +kernel, fun x => ?_⟩, .aPoll106, by decide +kernel⟩
  · simp only [List.mem_cons, List.not_mem_nil, or_false] at hv
    rcases hv with rfl | rfl | rfl | rfl | rfl | rfl | rfl <;> decide +kernel
  · cases x <;> decide +kernel

theorem test_witness_Configure_illegal :
    ¬State.LegalConfig { State.reset with cfg := { CondCfg.reset with thrK := 0x7FC00000#32 } } := by
  intro h; exact absurd h.2.1 (by decide)

theorem test_witness_Configure_noRow :
    ¬∃ c : Row, (bankRow Params.default { CondCfg.reset with candEnable := 0#11 } c).active = true := by
  rintro ⟨c, hc⟩; revert hc; cases c <;> decide +kernel

theorem test_witness_OutPop : State.reset.queue = [] ∧ queued.queue = reqa :: [] := by decide

theorem test_witness_ready :
    four.run = true ∧ four.configured = true ∧ four.queue.length + 4 ≤ four.params.outqDepth
      ∧ ¬five.queue.length + 4 ≤ five.params.outqDepth := by decide +kernel

theorem test_witness_DroppedSamples :
    isfinite 0x7FC00000#32 = false ∧ isfinite 0xFF800000#32 = false ∧ four.iValid = false
      ∧ isfinite (f32sqrt (f32add (f32mul 0x7F61B1E6#32 0x7F61B1E6#32) (f32mul 0#32 0#32)))
          = false := by decide +kernel

theorem test_witness_StoragesWf : four.StoragesWf := by
  refine ⟨fun chan => ?_, rfl, rfl⟩
  have h : four.hist.channel chan = [] := by
    simp [four, running, State.reset, Histories.reset, Histories.channel]
  rw [h]; exact ⟨rfl, rfl⟩

theorem test_witness_RealSample : isfinite 0xC0600000#32 = true ∧ isfinite 0x7F7FFFFF#32 = true := by
  decide

theorem test_witness_IqSample :
    let s : State := { four with iLatch := 0x40400000#32, iValid := true }
    s.iValid = true ∧ isfinite s.iLatch = true ∧ isfinite 0x40800000#32 = true
      ∧ 0x40A00000#32 = f32sqrt (f32add (f32mul s.iLatch s.iLatch)
          (f32mul 0x40800000#32 0x40800000#32))
      ∧ isfinite 0x40A00000#32 = true := by decide +kernel

theorem test_witness_StartupGuard :
    running.sig.clock = 0#64 ∧ settled.sig.clock ≠ 0#64 := by decide +kernel

theorem test_witness_FloatOrder :
    isfinite 0x3F800000#32 = true ∧ isfinite 0x80000000#32 = true ∧ isNaN 0x7FC00000#32 = true
      ∧ f32gt 0x3F800000#32 0x80000000#32 = true := by decide +kernel

theorem test_witness_FloatRounding :
    isfinite 0x00000001#32 = true ∧ isfinite 0xFF7FFFFF#32 = true ∧ f32units 0x00000001#32 ≠ 0
      ∧ 0 < f32units 0x7F7FFFFF#32 ∧ f32units 0x80000000#32 = 0 := by
  decide +kernel

theorem test_witness_ValidStrengthIsPositive :
    (State.eval { slow with hist := ⟨[], [], [], [(193, f32one), (194, f32one)]⟩ } .aPoll106 200#64
        0x3D4CCCCD#32 .track).valid = true
      ∧ Row.coding .aPoll106 ≠ .nrz ∧ Row.coding .bPoll106 = .nrz := by decide +kernel

theorem test_witness_ValidStrengthIsPositive_codings :
    HalfCoding (Row.coding .aPoll106) ∧ HalfCoding (Row.coding .vListen26)
      ∧ Row.coding .vPoll26 = .ppm4 ∧ Row.coding .bPoll106 = .nrz :=
  ⟨.inl rfl, .inr rfl, rfl, rfl⟩

/-- No slot sum of row 9 is a NaN where the history is empty: each is +0.0. -/
theorem test_witness_ValidStrengthIsPositive_slots :
    ∀ j : Nat, j < 4 →
      isNaN (slow.deepsum (200#64 - BitVec.ofNat 64 (8 * (slow.bank.get .vPoll26).e.toNat) + 1#64
        + BitVec.ofNat 64 ((2 * j + 1) * (slow.bank.get .vPoll26).e.toNat))
        (slow.bank.get .vPoll26).e.toNat) = false := by decide +kernel

/-- IdleTrigger's trigger, in P3 at t = 24 with a sample 0. -/
theorem test_witness_IdleTrigger :
    (slow.ss.get .aPoll106).stage = .idle ∧ (slow.bank.get .aPoll106).active = true
      ∧ slow.sig.clock ≠ 0#64 ∧ (slow.tim.get .a).guardPoll.toNat ≤ slow.sig.clock.toNat
      ∧ (slow.bank.get .aPoll106).p.toNat ≤ slow.sig.clock.toNat
      ∧ f32gt ((slow.tick 0#32).sig.depth &&& 0x7FFFFFFF#32) (slow.tick 0#32).sig.threshold
          = true := by decide +kernel

theorem test_witness_IdleTrigger_alone :
    ∀ d : Row, (slow.ss.get d).stage ≠ .locked ∧ (slow.ss.get d).stage ≠ .synchronizing := by
  intro d; cases d <;> decide +kernel

/-- A row that is not active never triggers: row 0 has one sample per symbol there. -/
theorem test_witness_IdleTrigger_not :
    (slow.ss.get .aPoll848).stage = .idle ∧ (slow.bank.get .aPoll848).active = false := by
  decide +kernel

theorem test_witness_SearchDecision :
    SearchState.reset.found = false ∧ { SearchState.reset with found := true }.found = true := by
  decide

theorem test_witness_SearchDecision_end :
    slow.sig.clock = { SearchState.reset with stop := 24#64 }.stop
      ∧ slow.sig.clock ≠ { SearchState.reset with stop := 32#64 }.stop := by decide

/-- A search's evaluations: two of equal strength, one that is not valid, in the order of the clock. -/
def evaluations : List (Clock × Evaluation) :=
  [(25#64, ⟨true, .second, f32one, f32zero, f32one⟩), (26#64, ⟨false, .none, f32zero, f32zero, f32zero⟩),
    (27#64, ⟨true, .first, f32one, f32one, f32zero⟩)]

theorem test_witness_evaluations :
    (∀ p ∈ evaluations, p.2.valid = true → isNaN p.2.strength = false)
      ∧ (∃ p ∈ evaluations, p.2.valid = true)
      ∧ ∀ p ∈ evaluations.tail.take 1, p.2.valid = false := by decide +kernel

-- R288: among equal strengths a HALF coding keeps the latest peak, the others the earliest.
theorem test_peak_ties :
    (evaluations.foldl (fun e p => e.keepPeak .miller p.1 p.2) SearchState.reset).peakTime = 27#64
      ∧ (evaluations.foldl (fun e p => e.keepPeak .nrz p.1 p.2) SearchState.reset).peakTime
          = 25#64 := by decide +kernel

-- R290: among equal strengths the one closest to X, then the earlier.
theorem test_best_ties :
    (evaluations.foldl (fun e p => e.keepBest 27 p.1 p.2) SearchState.reset).bestTime = 27#64
      ∧ (evaluations.foldl (fun e p => e.keepBest 26 p.1 p.2) SearchState.reset).bestTime
          = 25#64 := by decide +kernel

theorem test_witness_WindowDecision :
    let found : SearchState := { SearchState.reset with bestFound := true, bestTime := 5#64 }
    SearchState.reset.bestFound = false ∧ found.bestFound = true ∧ found.bestTime.toNat = 5
      ∧ found.bestTime.toNat ≠ 6 := by decide

/-- Row 8 has TAU = 1; with X = 25 the clock 24 is the window's first, with X = 26 it is before the
window, with X = 23 it is the window's last. -/
theorem test_witness_WindowDecision_window :
    let t := slow.sig.clock.toNat
    let tau := (slow.bank.get .aListen106).tau.toNat
    tau = 1 ∧ t + tau < ((26#64 * 256#64).toNat + 128) / 256
      ∧ ((25#64 * 256#64).toNat + 128) / 256 ≤ t + tau
      ∧ t ≠ ((25#64 * 256#64).toNat + 128) / 256 + tau
      ∧ t = ((23#64 * 256#64).toNat + 128) / 256 + tau := by decide +kernel

/-- LockedTracking's four cases: X of the LOCKED row 6 is 47, and the clock before it, or at it with a
best evaluation kept, or at it with none. -/
theorem test_witness_LockedTracking :
    let ss := locked.ss.get .aPoll106
    let s := { locked with sig := { locked.sig with clock := 47#64 } }
    (locked.track .aPoll106 .track ss).2 = none
      ∧ (s.track .aPoll106 .track { ss with bestFound := true, bestTime := 47#64 }).2.map Prod.fst
          = some true
      ∧ (s.track .aPoll106 .track ss).2.map Prod.fst = some false
      ∧ (s.track .aPoll106 .track ss).1.miss = 0#2
      ∧ (s.track .aPoll106 .track { ss with miss := 1#2 }).2.map Prod.fst = some false
      ∧ (s.track .aPoll106 .track { ss with miss := 1#2 }).1.miss ≠ 0#2 := by decide +kernel

/-- The SYNCHRONIZING step's three outcomes, and a candidate in each stage. -/
theorem test_witness_LockedTracking_sync :
    let ss := { locked.ss.get .aPoll106 with stage := .synchronizing }
    let s := { locked with sig := { locked.sig with clock := 47#64 } }
    (locked.track .aPoll106 .acquire ss).2 = none
      ∧ (s.track .aPoll106 .acquire { ss with bestFound := true, bestTime := 47#64 }).2.map Prod.fst
          = some true
      ∧ (s.track .aPoll106 .acquire ss).2.map Prod.fst = some false
      ∧ (locked.ss.get .aPoll106).stage = .locked ∧ (locked.ss.get .bPoll106).stage = .idle := by
  decide +kernel

theorem test_witness_LockedTracking_stages (g : Stage) :
    ({ slow with ss := slow.ss.set .aPoll106 { SearchState.reset with stage := g } }.ss.get
      .aPoll106).stage = g := rfl

theorem test_witness_LockedTracking_eof :
    let none' := PerRow.build fun _ => RowOut.quiet
    let one := none'.set .aPoll106 { RowOut.quiet with eof := true }
    (∀ c : Row, (none'.get c).eof = false) ∧ (one.get .aPoll106).eof = true
      ∧ ∀ d : Row, (one.get d).eof = true → d = .aPoll106 := by
  refine ⟨fun c => ?_, rfl, fun d => ?_⟩
  · cases c <;> rfl
  · cases d <;> decide

/-- The lock requests of rows 6 and 8 of V42-ARB. -/
def requests : PerRow RowOut :=
  ((PerRow.build fun _ => RowOut.quiet).set .aPoll106
      { RowOut.quiet with lockreq := some ⟨.first, 31#64, 39#64, 8#32, .aPoll106⟩ }).set .aListen106
    { RowOut.quiet with lockreq := some ⟨.first, 31#64, 39#64, 8#32, .aListen106⟩ }

theorem test_witness_LockArbitration :
    (∀ c : Row, ((PerRow.build fun _ => RowOut.quiet).get c).lockreq = none)
      ∧ ∃ c : Row, (requests.get c).lockreq ≠ none := by
  refine ⟨fun c => by cases c <;> rfl, .aPoll106, by decide⟩

-- V42-ARB: with peaks 1.0 and 2.0 row 8 wins, with equal peaks row 6.
theorem test_arbitration :
    let peaks := fun a b : F32 =>
      { slow with
        ss := (slow.ss.set .aPoll106 { SearchState.reset with peakValue := a }).set .aListen106
          { SearchState.reset with peakValue := b } }
    ((peaks 0x3F800000#32 0x40000000#32).arbitrate requests).1.fs.cand = some .aListen106
      ∧ ((peaks 0x40000000#32 0x40000000#32).arbitrate requests).1.fs.cand = some .aPoll106 := by
  decide +kernel

theorem test_witness_SymbolProcessing :
    StreamState.reset.phase = .sofStrip ∧ locked.st.phase ≠ .sofStrip
      ∧ (Coding.miller, Pattern.nrzZero) ∉
          [(Coding.miller, Pattern.second), (.miller, .first), (.miller, .none),
            (.manchester, .first), (.manchester, .second), (.manchester, .none), (.nrz, .nrzZero),
            (.nrz, .nrzOne), (.ppm4, .none), (.ppm4, .ppm0), (.ppm4, .ppm1), (.ppm4, .ppm2),
            (.ppm4, .ppm3)] := by decide

theorem test_witness_ByteLimit :
    let g : DecoderEnv := ⟨.aPoll106, 512, 2#32, 16#32⟩
    { StreamState.reset with bytes := 2#16 }.bytes.toNat = min g.bufCap g.maxFrame.toNat
      ∧ { StreamState.reset with bytes := 1#16 }.bytes.toNat < min g.bufCap g.maxFrame.toNat := by
  decide

theorem test_witness_ByteAssembly :
    StreamState.reset.bitcnt = 0#4 ∧ StreamState.reset.data = 0#8
      ∧ StreamState.reset.bytes.toNat
          < min (env .vPoll26).bufCap (env .vPoll26).maxFrame.toNat
      ∧ (env .vPoll26).row.framing = .plain ∧ (env .aPoll106).row.framing = .parityOdd := by decide

theorem test_witness_StartStopFraming :
    (env .bPoll106).row.framing = .startStop
      ∧ (StreamState.frameStart .startStop).phase = .bSofZeros
      ∧ { StreamState.reset with phase := .bSofOnes }.phase = .bSofOnes
      ∧ { StreamState.reset with phase := .bWaitStart }.phase = .bWaitStart
      ∧ { StreamState.reset with phase := .bChar }.phase = .bChar
      ∧ (env .bPoll106).idleLimit.toNat < (17#32).toNat ∧ ¬(env .bPoll106).idleLimit.toNat
          < (16#32).toNat := by decide

theorem test_witness_Flush :
    { StreamState.reset with phase := .data, bitcnt := 2#4 }.bitcnt = 2#4
      ∧ (env .aPoll106).row.framing = .parityOdd ∧ (env .vPoll26).row.framing ≠ .parityOdd := by
  decide

/-- FrameEnds: a frame in progress, and the three answers of the decoder to a symbol: a bit, the end of
a START_STOP frame, and a parity bit with the byte limit reached. -/
theorem test_witness_FrameEnds :
    let sym : Symbol := ⟨.first, 39#64, 47#64, 8#32, .aPoll106⟩
    let stop : StreamState := { StreamState.reset with phase := .bChar, bitcnt := 8#4 }
    let full : StreamState := { StreamState.reset with phase := .data, bitcnt := 8#4, bytes := 256#16 }
    locked.fs.cand = some .aPoll106 ∧ (locked.st.accumulate (env .aPoll106) sym).2 = .cont
      ∧ (stop.accumulate (env .bPoll106) { sym with pat := .nrzZero }).2 = .complete
      ∧ (full.accumulate (env .aPoll106) sym).2 = .abandon := by decide +kernel

/-- FrameEnds: the three outcomes of the flush, and both cases of phase 7. -/
theorem test_witness_FrameEnds_flush :
    let pending : StreamState := { StreamState.reset with phase := .data, bitcnt := 2#4 }
    let empty : StreamState := { StreamState.reset with phase := .data }
    let full : StreamState := { pending with bytes := 256#16 }
    (full.flush (env .aPoll106)).2 = .abandon
      ∧ (pending.flush (env .aPoll106)).2 ≠ .abandon
      ∧ 1 ≤ (pending.flush (env .aPoll106)).1.bytes.toNat
      ∧ (empty.flush (env .aPoll106)).2 ≠ .abandon
      ∧ (empty.flush (env .aPoll106)).1.bytes = 0#16
      ∧ locked.fs.asmStage = .accumulating ∧ slow.fs.asmStage ≠ .accumulating := by
  decide +kernel

theorem test_witness_TimeoutCheck :
    let s : State :=
      { slow with
        sig := { slow.sig with clock := 195#64 }
        tim := slow.tim.set .a ⟨0#64, 0#64, 195#64, true, 0x26#8, true⟩ }
    (s.tim.get .a).expect = true ∧ (s.tim.get .a).waitEnd.toNat ≤ s.sig.clock.toNat
      ∧ ¬(s.fs.asmStage = .accumulating ∧ s.fs.tech = .a)
      ∧ ∀ c : Row, c.tech = .a → (s.ss.get c).stage = .idle := by
  refine ⟨by decide +kernel, by decide +kernel, by decide +kernel, fun c => ?_⟩
  cases c <;> decide +kernel

theorem test_witness_QueueOrder :
    exec .cmdOutPop queued = .next { queued with queue := [], rptr := 0#16, response := none } := rfl

theorem test_witness_PipelineMovesOnlyInTicks :
    exec (.wrIrqEn 1#32) queued = .next { queued with irqEn := 1#2, response := none }
      ∧ exec .cmdStop queued = .next { queued with run := false, response := none } := ⟨rfl, rfl⟩

/-- A sample that is accepted, as QueueOrder and PipelineMovesOnlyInTicks say it. -/
theorem test_accepts :
    four.Accepts (.wrSampleReal 0xC0600000#32) 0x40600000#32 ∧ ¬five.Accepts .cmdStop 0#32 := by
  refine ⟨⟨by decide +kernel, by decide +kernel, by decide +kernel,
    .inl ⟨0xC0600000#32, rfl, by decide, by decide⟩⟩, fun h => ?_⟩
  exact absurd h.2.2.1 (by decide +kernel)

theorem test_witness_ErrorsAreSticky :
    exec (.wrErr 1#32) { State.reset with err := 1#8 }
        = .next { State.reset with err := 0#8, response := none }
      ∧ (1#8).getLsbD 0 = true ∧ (0#8).getLsbD 0 = false := by
  refine ⟨rfl, by decide, by decide⟩

theorem test_witness_OneErrorPerTransaction :
    Instr.cmdStart.wellFormed = true
      ∧ exec .cmdStart State.reset = .next { State.reset with err := 4#8, response := none }
      ∧ (0#8).getLsbD 2 = false ∧ (4#8).getLsbD 2 = true := by
  refine ⟨rfl, rfl, by decide, by decide⟩

theorem test_witness_ReadsHaveNoSideEffects :
    Instr.rdOutData.wellFormed = true ∧ Instr.rdOutData.isWrite = false
      ∧ exec .rdOutData queued = .next { queued with rptr := 1#16, response := some 0x26#32 } := by
  refine ⟨rfl, rfl, rfl⟩

/-- The LOCKED state of P3 meets the hypotheses of LockInvariantKept, with a frame in progress. -/
theorem test_witness_LockInvariantKept :
    locked.Exclusive ∧ locked.FrameMatches ∧ locked.BetweenFrames ∧ locked.IdleClear := by
  refine ⟨?_, ⟨?_, by decide, ?_⟩, ?_, ?_⟩
  · intro c d; cases c <;> cases d <;> decide +kernel
  · intro c; cases c <;> decide +kernel
  · intro c; cases c <;> decide +kernel
  · intro h; exact absurd h (by decide)
  · intro c; cases c <;> decide +kernel

theorem test_witness_QueueInvariantKept :
    { queued with rptr := 1#16 }.QueueWithin ∧ { queued with rptr := 1#16 }.RptrWithin :=
  ⟨show 1 ≤ 8 by decide, show (1#16).toNat ≤ [0x26#8].length by decide⟩

theorem test_witness_StorageInvariantKept :
    let s : State := { locked with st := { locked.st with buf := [(0, 0x26#8)], bytes := 1#16 } }
    s.StoragesWf ∧ s.BytesWithin := by
  refine ⟨⟨fun chan => ?_, by decide, by decide +kernel⟩, fun _ c => ?_, ?_⟩
  · have h : locked.hist.channel chan = [] := by
      simp [locked, slow, settled, running, State.reset, Histories.reset, Histories.channel]
    show Memory.wf (locked.hist.channel chan) = true
      ∧ Memory.within locked.params.histSize (locked.hist.channel chan) = true
    rw [h]; exact ⟨rfl, rfl⟩
  · cases c <;> decide +kernel
  · intro r hr; cases hr

theorem test_witness_ConfigurationInvariantKept : running.ConfigInUse := by
  refine ⟨fun _ => rfl, fun _ => ⟨rfl, by decide +kernel, by decide +kernel⟩⟩

end Sys2Proof.Tests
end

/-! PROOFS. The family of 20_memory.md: which transactions the decoder accepts, and what the step does
with one that it does not accept. -/

namespace Sys2Proof.Machine

/-! ## `mapped`, as arithmetic and block by block -/

section MappedBlocks

variable {write : Bool} {n : Nat}

/-- The writable offsets as linear arithmetic, for `omega`. -/
theorem mapped_write_iff :
    mapped true n = true ↔ n % 4 = 0 ∧
      (n = 0x010 ∨ n = 0x014 ∨ n = 0x0C0 ∨ n = 0x0C4 ∨ (0x040 ≤ n ∧ n ≤ 0x070)
        ∨ (0x100 ≤ n ∧ n ≤ 0x15C ∧ n % 0x20 ≤ 0x10)
        ∨ n = 0x008 ∨ n = 0x020 ∨ n = 0x024 ∨ n = 0x028) := by
  simp [mapped, inBlock, or_assoc, and_assoc]

/-- The readable offsets as linear arithmetic, for `omega`. -/
theorem mapped_read_iff :
    mapped false n = true ↔ n % 4 = 0 ∧
      (n = 0x010 ∨ n = 0x014 ∨ n = 0x0C0 ∨ n = 0x0C4 ∨ (0x040 ≤ n ∧ n ≤ 0x070)
        ∨ (0x100 ≤ n ∧ n ≤ 0x15C ∧ n % 0x20 ≤ 0x10)
        ∨ n = 0x000 ∨ n = 0x004 ∨ n = 0x00C ∨ n = 0x018 ∨ n = 0x030 ∨ n = 0x034 ∨ n = 0x0C8
        ∨ n = 0x940
        ∨ (0x080 ≤ n ∧ n ≤ 0x0A0) ∨ (0x0E0 ≤ n ∧ n ≤ 0x0EC)
        ∨ (0x180 ≤ n ∧ n ≤ 0x1DC ∧ n % 0x20 ≤ 0x18) ∨ (0x200 ≤ n ∧ n ≤ 0x35C)
        ∨ (0x400 ≤ n ∧ n ≤ 0x6BC ∧ n % 0x40 ≤ 0x38) ∨ (0x800 ≤ n ∧ n ≤ 0x81C)
        ∨ (0x900 ≤ n ∧ n ≤ 0x920)) := by
  simp [mapped, inBlock, or_assoc, and_assoc]

theorem mapped_aligned (h : mapped write n = true) : n % 4 = 0 := by
  cases write
  · exact (mapped_read_iff.mp h).1
  · exact (mapped_write_iff.mp h).1

/-! An aligned offset inside a block (30_encoding.md R139 to R150) is mapped exactly where its selectors
are in range and the block allows the direction; the selectors are the digits of the offset. -/

variable (ha : n % 4 = 0) (hlt : n < 4096)
include ha hlt

theorem mapped_cfg_iff (hb : n / 64 % 64 = 1) :
    mapped write n = true ↔ n / 4 % 16 ≤ 12 := by
  cases write <;> simp [mapped_read_iff, mapped_write_iff] <;> omega

theorem mapped_dbg_iff (hb : n / 64 % 64 = 2) :
    mapped write n = true ↔ n / 4 % 16 ≤ 8 ∧ write = false := by
  cases write <;> simp [mapped_read_iff, mapped_write_iff] <;> omega

theorem mapped_param_iff (hb : n / 16 % 256 = 14) :
    mapped write n = true ↔ write = false := by
  cases write <;> simp [mapped_read_iff, mapped_write_iff] <;> omega

theorem mapped_tcfg_iff (hb : n / 128 % 32 = 2) :
    mapped write n = true ↔ n / 32 % 4 ≤ 2 ∧ n / 4 % 8 ≤ 4 := by
  cases write <;> simp [mapped_read_iff, mapped_write_iff] <;> omega

theorem mapped_tstat_iff (hb : n / 128 % 32 = 3) :
    mapped write n = true ↔ n / 32 % 4 ≤ 2 ∧ n / 4 % 8 ≤ 6 ∧ write = false := by
  cases write <;> simp [mapped_read_iff, mapped_write_iff] <;> omega

theorem mapped_cand_iff (hb : n / 512 % 8 = 1) :
    mapped write n = true ↔ n / 32 % 16 ≤ 10 ∧ write = false := by
  cases write <;> simp [mapped_read_iff, mapped_write_iff] <;> omega

theorem mapped_ss_iff (hb : n / 1024 % 4 = 1) :
    mapped write n = true ↔ n / 64 % 16 ≤ 10 ∧ n / 4 % 16 ≤ 14 ∧ write = false := by
  cases write <;> simp [mapped_read_iff, mapped_write_iff] <;> omega

theorem mapped_asm_iff (hb : n / 32 % 128 = 64) :
    mapped write n = true ↔ write = false := by
  cases write <;> simp [mapped_read_iff, mapped_write_iff] <;> omega

theorem mapped_out_iff (hb : n / 64 % 64 = 36) :
    mapped write n = true ↔ n / 4 % 16 ≤ 8 ∧ write = false := by
  cases write <;> simp [mapped_read_iff, mapped_write_iff] <;> omega

end MappedBlocks

end Sys2Proof.Machine

namespace Sys2Proof
open Machine

/-! ## The pieces of the decoder: when they answer an instruction -/

section DecoderPieces

variable {write : Bool} {off : BitVec 12} {data : Word}

@[simp] theorem accessRO_isOk (i : Instr) : (accessRO write i).isOk = !write := by
  cases write <;> rfl

@[simp] theorem accessWO_isOk (i : Instr) : (accessWO write i).isOk = write := by
  cases write <;> rfl

@[simp] theorem accessRW_isOk (i j : Instr) : (accessRW write i j).isOk = true := rfl

@[simp] theorem accessIf_isOk (inRange : Bool) (d : Decoded) :
    (accessIf inRange d).isOk = (inRange && d.isOk) := by
  cases inRange <;> rfl

@[simp] theorem ok_isOk (i : Instr) : (Except.ok i : Decoded).isOk = true := rfl

@[simp] theorem error_isOk (e : DecodeError) : (Except.error e : Decoded).isOk = false := rfl

theorem extractLsb'_toNat_eq_digit (start len : Nat) :
    (off.extractLsb' start len).toNat = off.toNat / 2 ^ start % 2 ^ len := by
  rw [BitVec.extractLsb'_toNat, Nat.shiftRight_eq_div_pow]

theorem extractLsb'_eq_iff_digit (start : Nat) {len : Nat} (c : BitVec len) :
    off.extractLsb' start len = c ↔ off.toNat / 2 ^ start % 2 ^ len = c.toNat := by
  rw [← BitVec.toNat_inj, extractLsb'_toNat_eq_digit]

/-- The alignment test of R132, as a remainder. -/
theorem aligned_iff : off.extractLsb' 0 2 = 0#2 ↔ off.toNat % 4 = 0 := by
  rw [extractLsb'_eq_iff_digit, Nat.pow_zero, Nat.div_one]; rfl

/-- The offsets of the registers that stand alone (30_encoding.md R135, R141, R150). -/
def singleOffsets : List (BitVec 12) :=
  [0x000#12, 0x004#12, 0x008#12, 0x00C#12, 0x010#12, 0x014#12, 0x018#12, 0x020#12, 0x024#12,
    0x028#12, 0x030#12, 0x034#12, 0x0C0#12, 0x0C4#12, 0x0C8#12, 0x940#12]

theorem decodeSingle_of_notMem (h : off ∉ singleOffsets) : decodeSingle write off data = none := by
  simp only [singleOffsets, List.mem_cons, List.not_mem_nil, or_false, not_or] at h
  simp [decodeSingle, h]

/-- At its own offset each single register allows the directions that the tables list. -/
theorem decodeSingle_of_mem (h : off ∈ singleOffsets) :
    ∃ d, decodeSingle write off data = some d ∧ d.isOk = mapped write off.toNat := by
  simp only [singleOffsets, List.mem_cons, List.not_mem_nil, or_false] at h
  rcases h with rfl | rfl | rfl | rfl | rfl | rfl | rfl | rfl | rfl | rfl | rfl | rfl | rfl | rfl
    | rfl | rfl
  all_goals cases write <;> exact ⟨_, rfl, rfl⟩

/-- An aligned offset in no block and at no single register is unmapped. -/
theorem mapped_outside_blocks {n : Nat} (hlt : n < 4096)
    (hsingle : ∀ v ∈ singleOffsets, n ≠ v.toNat)
    (hcfg : n / 64 % 64 ≠ 1) (hdbg : n / 64 % 64 ≠ 2) (hparam : n / 16 % 256 ≠ 14)
    (htcfg : n / 128 % 32 ≠ 2) (htstat : n / 128 % 32 ≠ 3) (hcand : n / 512 % 8 ≠ 1)
    (hss : n / 1024 % 4 ≠ 1) (hasm : n / 32 % 128 ≠ 64) (hout : n / 64 % 64 ≠ 36) :
    mapped write n = false := by
  simp only [singleOffsets, List.forall_mem_cons, BitVec.toNat_ofNat, Nat.reducePow, Nat.reduceMod]
    at hsingle
  rw [← Bool.not_eq_true]
  cases write
  · rw [mapped_read_iff]; omega
  · rw [mapped_write_iff]; omega

/-- Branch by branch: the block that the decoder names is the block of the table. -/
theorem decodeBlock_isOk (ha : off.toNat % 4 = 0) (h : off ∉ singleOffsets) :
    (decodeBlock write off data).isOk = mapped write off.toNat := by
  have hlt : off.toNat < 4096 := off.isLt
  have hsingle : ∀ v ∈ singleOffsets, off.toNat ≠ v.toNat :=
    fun v hv e => h (BitVec.eq_of_toNat_eq e ▸ hv)
  unfold decodeBlock
  simp only [extractLsb'_eq_iff_digit, extractLsb'_toNat_eq_digit, BitVec.toNat_ofNat,
    Nat.reducePow, Nat.reduceMod]
  split_ifs with hcfg hdbg hparam htcfg htstat hcand hss hasm hout <;> rw [Bool.eq_iff_iff]
  · simp [mapped_cfg_iff ha hlt hcfg]
  · simp [mapped_dbg_iff ha hlt hdbg]
  · simp [mapped_param_iff ha hlt hparam]
  · simp [mapped_tcfg_iff ha hlt htcfg]
  · simp [mapped_tstat_iff ha hlt htstat, and_assoc]
  · simp [mapped_cand_iff ha hlt hcand]
  · simp [mapped_ss_iff ha hlt hss, and_assoc]
  · simp [mapped_asm_iff ha hlt hasm]
  · simp [mapped_out_iff ha hlt hout]
  · simp [mapped_outside_blocks hlt hsingle hcfg hdbg hparam htcfg htstat hcand hss hasm hout]

end DecoderPieces

/-! ## The decoder against the tables -/

/-- A word whose reserved bits are 0 decodes exactly where the tables map its offset (R132). -/
theorem decodeFields_isOk (write : Bool) (off : BitVec 12) (data : Word) :
    (decodeFields write off data).isOk = mapped write off.toNat := by
  unfold decodeFields
  split_ifs with hmis
  · have hunmapped : mapped write off.toNat = false :=
      Bool.eq_false_iff.mpr fun h => hmis (aligned_iff.mpr (mapped_aligned h))
    rw [hunmapped, error_isOk]
  · have haligned := aligned_iff.mp (not_not.mp hmis)
    by_cases hmem : off ∈ singleOffsets
    · obtain ⟨d, hd, hok⟩ := decodeSingle_of_mem (write := write) (data := data) hmem
      rw [hd, Option.getD_some, hok]
    · rw [decodeSingle_of_notMem hmem, Option.getD_none, decodeBlock_isOk haligned hmem]

/-- A word decodes exactly where its reserved bits are 0 and the tables map its offset (R132). -/
theorem decode_isOk (w : Txn) :
    (decode w).isOk = (decide (txnReserved w = 0#19) && mapped (txnWrite w) (txnOff w).toNat) := by
  unfold decode
  split_ifs with h
  · rw [decide_eq_false h, Bool.false_and, error_isOk]
  · rw [decide_eq_true (not_not.mp h), Bool.true_and, decodeFields_isOk]

end Sys2Proof

namespace Sys2Proof.Machine

/-! ## The step on a transaction -/

/-- The oldest input, a transaction, is taken and has its whole effect (20_memory.md R107). -/
theorem step_txn {s : State} {w : Txn} {rest : List HostInput} (h : s.inputs = .txn w :: rest) :
    step s = stepTxn w { s with inputs := rest } := by
  simp [step, State.takeInput, h]

theorem stepTxn_of_not_isOk {w : Txn} (h : (decode w).isOk = false) (s : State) :
    stepTxn w s = .next (s.malformed (txnWrite w)) := by
  unfold stepTxn
  split
  · next i hi => rw [hi, ok_isOk] at h; cases h
  · rfl

/-- The malformed transaction as one record update: ERR.BUS is bit 3 (R104, R137). -/
theorem State.malformed_eq (s : State) (write : Bool) :
    s.malformed write =
      { s with err := s.err ||| 0x08#8, response := if write then none else some 0#32 } := by
  cases write <;> rfl

end Sys2Proof.Machine

section
open Sys2Proof Sys2Proof.Machine

/-- Settles O6: both reasons are the negation of `decode_isOk`, so the step runs the malformed
transaction. -/
theorem malformedTransaction : Obligations.MalformedTransaction := by
  unfold Obligations.MalformedTransaction
  intro s w rest hin hbad
  have herr : (decode w).isOk = false := by
    rw [decode_isOk, Bool.and_eq_false_iff, decide_eq_false_iff_not]
    exact hbad
  rw [step_txn hin, stepTxn_of_not_isOk herr, State.malformed_eq]
  rfl

end

/-! PROOFS. The family of 40_signal_conditioner.md: the latch of the in-phase component, and what the
tick of an accepted sample does to the conditioner, the histories and everything else. -/

namespace Sys2Proof.Machine

/-! ## The conditioner in the words of R206 to R215 -/

section Conditioner

variable {g : SignalState} {cfg : CondCfg} {m : F32}

/-- The saturating increment as a number (00_scope.md R13). -/
theorem satinc_toNat (w : Word) : (satinc w).toNat = min (w.toNat + 1) (2 ^ 32 - 1) := by
  rw [satinc_eq, BitVec.toNat_ofNat, Nat.mod_eq_of_lt (by omega)]

theorem SignalState.update_averagesBy (alphaA alphaD : F32) :
    AveragesBy alphaA alphaD m g (g.update alphaA alphaD m) := ⟨rfl, rfl⟩

/-- Above the hysteresis level the silence ends and the live weights average (R210). -/
theorem SignalState.envelope_live (h : isLive g.average cfg.hystFactor m = true) :
    (g.envelope cfg m).silence = 0#32
      ∧ AveragesBy cfg.alphaAvgLive cfg.alphaDevLive m g (g.envelope cfg m) := by
  rw [SignalState.envelope, if_pos h]
  exact ⟨rfl, SignalState.update_averagesBy _ _⟩

/-- At or below the hysteresis level the silence grows, and the silence weights average only once it is
beyond its limit (R211). -/
theorem SignalState.envelope_silent (h : isLive g.average cfg.hystFactor m = false) :
    (g.envelope cfg m).silence.toNat = min (g.silence.toNat + 1) (2 ^ 32 - 1)
      ∧ (cfg.silenceLimit.toNat < (g.envelope cfg m).silence.toNat →
          AveragesBy cfg.alphaAvgSil cfg.alphaDevSil m g (g.envelope cfg m))
      ∧ ((g.envelope cfg m).silence.toNat ≤ cfg.silenceLimit.toNat →
          (g.envelope cfg m).average = g.average ∧ (g.envelope cfg m).deviation = g.deviation) := by
  rw [SignalState.envelope, if_neg (by simp [h])]
  dsimp only
  split
  case isTrue hbeyond =>
    exact ⟨satinc_toNat _, fun _ => SignalState.update_averagesBy _ _,
      fun hwithin => absurd hbeyond (Nat.not_lt.mpr hwithin)⟩
  case isFalse hwithin =>
    exact ⟨satinc_toNat _, fun hbeyond => absurd hbeyond hwithin, fun _ => ⟨rfl, rfl⟩⟩

/-- The conditioner and the advance of the clock together are the rules R206 to R215 and R222. -/
theorem SignalState.conditions_condition (g : SignalState) (cfg : CondCfg) (m : F32) :
    Conditions cfg m g
      { g.condition cfg m with clock := (g.condition cfg m).clock + 1#64 } := by
  refine ⟨?clock, g.condition_value cfg m, ?live, ?silent, ?edgeFast, ?edgeSlow, rfl, rfl⟩
  case clock => exact congrArg (· + 1#64) (g.condition_clock cfg m)
  case live => exact SignalState.envelope_live (g := { g with value := m })
  case silent => exact SignalState.envelope_silent (g := { g with value := m })
  case edgeFast =>
    exact congrArg (expAverage cfg.alphaEdgeFast · m)
      (SignalState.envelope_edgeFast { g with value := m } cfg m)
  case edgeSlow =>
    exact congrArg (expAverage cfg.alphaEdgeSlow · m)
      (SignalState.envelope_edgeSlow { g with value := m } cfg m)

end Conditioner

/-! ## What a tick does to the signal state, the histories and the rest -/

theorem State.tick_sig (s : State) (m : F32) :
    (s.tick m).sig =
      { s.sig.condition s.cfg m with clock := (s.sig.condition s.cfg m).clock + 1#64 } := by
  rw [s.tick_only m]

theorem State.tick_hist (s : State) (m : F32) :
    (s.tick m).hist =
      s.hist.record (ringIndex s.params s.sig.clock) (s.sig.condition s.cfg m) := by
  rw [s.tick_only m]

theorem State.tick_conditions (s : State) (m : F32) :
    Conditions s.cfg m s.sig (s.tick m).sig := by
  rw [s.tick_sig m]
  exact s.sig.conditions_condition s.cfg m

/-- The tick writes the four entries of its clock, and in canonical form a write is read back (R216 to
R219). -/
theorem State.tick_historiesAdvance {s : State} (m : F32)
    (hwf : ∀ chan : BitVec 2, Memory.wf (s.hist.channel chan) = true) :
    HistoriesAdvance s (s.tick m) := by
  intro chan a
  rw [s.tick_sig m, s.tick_hist m, Histories.channel_record, ringIndex_eq_mod]
  by_cases ha : a = s.sig.clock.toNat % s.params.histSize
  · rw [if_pos ha, ha, Memory.read_write_same (hwf chan)]
    rfl
  · rw [if_neg ha, Memory.read_write_other _ _ ha]

theorem State.tick_keeps (s : State) (m : F32) : TickKeeps s (s.tick m) := by
  simp [TickKeeps]

/-! ## The sample instructions -/

theorem State.ready_iff (s : State) :
    s.ready = true ↔
      s.run = true ∧ s.configured = true ∧ s.queue.length + 4 ≤ s.params.outqDepth := by
  simp [State.ready, and_assoc]

theorem exec_wrSampleReal_of_ready {s : State} {x : F32} (hready : s.ready = true)
    (hfinite : isfinite x = true) :
    exec (.wrSampleReal x) s = .next (s.tick (f32abs x)).quiet := by
  simp [exec, execWrSampleReal, hready, hfinite]

theorem writesAs_wrSampleReal : WritesAs 0x020#12 .wrSampleReal :=
  fun d => (decode_mkTxn true 0x020#12 d).trans rfl

theorem writesAs_wrSampleI : WritesAs 0x024#12 .wrSampleI :=
  fun d => (decode_mkTxn true 0x024#12 d).trans rfl

end Sys2Proof.Machine

section
open Sys2Proof Sys2Proof.Machine

/-- Settles O32: READY and a finite component leave only the tick, and the tick's lemmas say the rest;
`quiet` changes the returned value alone. -/
theorem realSample : Obligations.RealSample := by
  unfold Obligations.RealSample
  refine ⟨writesAs_wrSampleReal, fun s x hrun hconf hroom hfinite => ?_⟩
  have hready : s.ready = true := s.ready_iff.mpr ⟨hrun, hconf, hroom⟩
  refine ⟨(s.tick (f32abs x)).quiet, exec_wrSampleReal_of_ready hready hfinite, rfl,
    s.tick_conditions _, ?histories, s.tick_keeps _, s.tick_iValid _, rfl⟩
  rintro ⟨hchannels, -⟩
  exact State.tick_historiesAdvance _ fun chan => (hchannels chan).1

/-- Settles O30: WR_SAMPLE_I has no branch. -/
theorem sampleLatch : Obligations.SampleLatch := by
  unfold Obligations.SampleLatch
  exact ⟨writesAs_wrSampleI, fun _ _ => rfl⟩

end

/-! PROOFS. The family of 41_candidate_bank.md: the computed fields of a row as exact integers, the ROM,
and RD_CAND. -/

namespace Sys2Proof.Machine

/-! ## The period, and that it fits its registers (R253)

A period is at most 1024 carrier cycles and SAMPLE_RATE is a 32-bit word, so that PFX stays below 2^27
and every other computed field, being at most P, far below 2^32. -/

theorem Row.n_le (c : Row) : c.n ≤ 1024 := by cases c <;> decide

theorem periodFx_lt (sampleRate : Word) (c : Row) : periodFx sampleRate c < 2 ^ 27 := by
  have hnum : 256 * sampleRate.toNat * c.n ≤ 256 * 2 ^ 32 * 1024 :=
    Nat.mul_le_mul (Nat.mul_le_mul_left 256 sampleRate.isLt.le) c.n_le
  unfold periodFx carrierHz
  omega

/-- PFX with the constants of R253 written out. -/
theorem periodFx_eq_div (sampleRate : Word) (c : Row) :
    periodFx sampleRate c = (256 * sampleRate.toNat * c.n + 6780000) / 13560000 := by
  simp [periodFx, carrierHz]

/-- The shift of R253 as a division. -/
theorem period_eq_div (sampleRate : Word) (c : Row) :
    period sampleRate c = (periodFx sampleRate c + 128) / 256 :=
  Nat.shiftRight_eq_div_pow _ 8

/-- A field that is at most the period is held by its 32-bit register without loss. -/
theorem toNat_ofNat_of_le_period {sampleRate : Word} {c : Row} {v : Nat}
    (h : v ≤ period sampleRate c) : (BitVec.ofNat 32 v).toNat = v := by
  have hpfx := periodFx_lt sampleRate c
  rw [period_eq_div] at h
  rw [BitVec.toNat_ofNat, Nat.mod_eq_of_lt (by omega)]

/-! ## The lags that depend on the coding (R254) -/

/-- The shift of R254 as a division. -/
theorem tauOf_eq (coding : Coding) (e : Nat) :
    tauOf coding e =
      match coding with
      | .miller => 0
      | .manchester => e
      | .nrz => 0
      | .ppm4 => e / 4 := by
  cases coding
  case miller | manchester | nrz => rfl
  case ppm4 => exact Nat.shiftRight_eq_div_pow e 2

theorem tauOf_le (coding : Coding) (e : Nat) : tauOf coding e ≤ e := by
  cases coding
  case miller | nrz => exact Nat.zero_le e
  case manchester => exact le_rfl
  case ppm4 => exact Nat.shiftRight_le e 2

theorem slotOf_le (coding : Coding) (p : Nat) : slotOf coding p (p / 2) (p / 8) ≤ p := by
  cases coding
  case miller | manchester => exact Nat.div_le_self p 2
  case nrz => exact le_rfl
  case ppm4 => exact Nat.div_le_self p 8

/-- A correlation reads at most one period back (R254): two halves or eight eighths are no more. -/
theorem windowOf_le (coding : Coding) (p : Nat) : windowOf coding p (p / 2) (p / 8) ≤ p := by
  cases coding
  case miller | manchester => exact Nat.mul_div_le p 2
  case nrz => exact le_rfl
  case ppm4 => exact Nat.mul_div_le p 8

/-! ## The fields of a row, as integers -/

section BankRow

variable (params : Params) (cfg : CondCfg) (c : Row)

theorem bankRow_pfx_toNat : (bankRow params cfg c).pfx.toNat = periodFx cfg.sampleRate c :=
  (BitVec.toNat_ofNat _ 64).trans
    (Nat.mod_eq_of_lt ((periodFx_lt cfg.sampleRate c).trans (by decide)))

theorem bankRow_p_toNat : (bankRow params cfg c).p.toNat = period cfg.sampleRate c :=
  toNat_ofNat_of_le_period le_rfl

theorem bankRow_h_toNat : (bankRow params cfg c).h.toNat = period cfg.sampleRate c / 2 :=
  (toNat_ofNat_of_le_period (Nat.shiftRight_le _ 1)).trans (Nat.shiftRight_eq_div_pow _ 1)

theorem bankRow_q_toNat : (bankRow params cfg c).q.toNat = period cfg.sampleRate c / 4 :=
  (toNat_ofNat_of_le_period (Nat.shiftRight_le _ 2)).trans (Nat.shiftRight_eq_div_pow _ 2)

theorem bankRow_e_toNat : (bankRow params cfg c).e.toNat = period cfg.sampleRate c / 8 :=
  (toNat_ofNat_of_le_period (Nat.shiftRight_le _ 3)).trans (Nat.shiftRight_eq_div_pow _ 3)

theorem bankRow_tau_toNat :
    (bankRow params cfg c).tau.toNat = tauOf c.coding (period cfg.sampleRate c / 8) := by
  rw [← Nat.shiftRight_eq_div_pow _ 3]
  exact toNat_ofNat_of_le_period ((tauOf_le _ _).trans (Nat.shiftRight_le _ 3))

theorem bankRow_w_toNat :
    (bankRow params cfg c).w.toNat =
      windowOf c.coding (period cfg.sampleRate c) (period cfg.sampleRate c / 2)
        (period cfg.sampleRate c / 8) := by
  have hle := windowOf_le c.coding (period cfg.sampleRate c)
  rw [← Nat.shiftRight_eq_div_pow _ 1, ← Nat.shiftRight_eq_div_pow _ 3] at hle ⊢
  exact toNat_ofNat_of_le_period hle

theorem bankRow_l_toNat :
    (bankRow params cfg c).l.toNat =
      slotOf c.coding (period cfg.sampleRate c) (period cfg.sampleRate c / 2)
        (period cfg.sampleRate c / 8) := by
  have hle := slotOf_le c.coding (period cfg.sampleRate c)
  rw [← Nat.shiftRight_eq_div_pow _ 1, ← Nat.shiftRight_eq_div_pow _ 3] at hle ⊢
  exact toNat_ofNat_of_le_period hle

theorem bankRow_valid_iff :
    (bankRow params cfg c).valid = true ↔
      8 ≤ period cfg.sampleRate c ∧ period cfg.sampleRate c ≤ params.histSize := by
  simp [bankRow, rowValid]

end BankRow

/-! ## RD_CAND -/

/-- Inside the block of R147 the offset's selectors are c and k, and c alone decides whether the offset
is mapped. DATA chooses nothing, so the offsets are decided on one DATA. -/
theorem decode_candOffset (c : BitVec 4) (k : BitVec 3) (d : Word) :
    decode (mkTxn false (wordAt (0x200#12 + 0x20#12 * c.setWidth 12) k) d) =
      accessIf (c.toNat ≤ 10) (.ok (.rdCand c k)) := by
  have hzero : ∀ (c : BitVec 4) (k : BitVec 3),
      decodeFields false (wordAt (0x200#12 + 0x20#12 * c.setWidth 12) k) 0#32 =
        accessIf (c.toNat ≤ 10) (.ok (.rdCand c k)) := by decide
  rw [decode_mkTxn, ← decodeFields_withData _ _ 0#32, hzero, accessIf_withData]
  rfl

theorem Row.code_toNat_le (c : Row) : c.code.toNat ≤ 10 := by cases c <;> decide

/-- RD_CAND of a row answers the word of that row's fields and changes nothing else (R258). -/
theorem exec_rdCand_code (s : State) (c : Row) (k : BitVec 3) :
    exec (.rdCand c.code k) s =
      .next { s with response := some (candWord c (s.bank.get c) k) } := by
  show execRdCand c.code k s = _
  rw [execRdCand, Row.ofCode_code]
  rfl

end Sys2Proof.Machine

section
open Sys2Proof Sys2Proof.Machine

/-- Settles O29: each field is at most the period, which is far below 2^32, so its register holds the
integer itself; the coding chooses the lags. -/
theorem bankArithmetic : Obligations.BankArithmetic := by
  unfold Obligations.BankArithmetic
  intro params cfg c b pfx p
  have hpfx : pfx = periodFx cfg.sampleRate c := (periodFx_eq_div cfg.sampleRate c).symm
  have hp : p = period cfg.sampleRate c := by rw [period_eq_div, ← hpfx]
  rw [hpfx, hp]
  exact ⟨bankRow_pfx_toNat .., bankRow_p_toNat .., bankRow_h_toNat .., bankRow_q_toNat ..,
    bankRow_e_toNat .., (bankRow_tau_toNat ..).trans (tauOf_eq _ _), bankRow_w_toNat ..,
    bankRow_l_toNat .., bankRow_valid_iff .., rfl, rfl,
    (bankRow_w_toNat ..).trans_le (windowOf_le _ _)⟩

/-- Settles O15: the offset decodes to RD_CAND where c names a row, and RD_CAND answers `candWord`. -/
theorem candidateReads : Obligations.CandidateReads := by
  unfold Obligations.CandidateReads
  refine ⟨fun c k d => ?mapped, fun c k d hc => ?unmapped, fun s c => ⟨?info, ?words⟩⟩
  case mapped => rw [decode_candOffset, decide_eq_true c.code_toNat_le]; rfl
  case unmapped => rw [decode_candOffset, decide_eq_false (Nat.not_le.mpr hc)]; rfl
  case info =>
    rw [exec_rdCand_code, ← BitVec.shiftLeft_zero (c.tech.code.setWidth 32)]
    rfl
  case words => exact ⟨exec_rdCand_code s c 1#3, exec_rdCand_code s c 2#3, exec_rdCand_code s c 3#3,
      exec_rdCand_code s c 4#3, exec_rdCand_code s c 5#3, exec_rdCand_code s c 6#3,
      exec_rdCand_code s c 7#3⟩

/-- Settles O28: the table of R251 is a closed fact about the eleven rows. -/
theorem candidateRom : Obligations.CandidateRom := by
  unfold Obligations.CandidateRom
  decide

end

/-! PROOFS. The family of 42_symbol_correlator.md: the SEARCHING step and the peak it keeps, the
steps of phase 4 by the outcome of their window, and RD_SS. -/

namespace Sys2Proof.Machine

/-! ## The trigger pulse (R288) -/

/-- The pulse stays open while it was open and |depth| still exceeds the threshold; while open, its
width counts up to the saturation (R288, 00_scope.md R13). -/
theorem State.pulseStep_eq (s : State) (ss : SearchState) :
    s.pulseStep ss =
      let stillOpen := ss.pulseOpen && f32gt (f32abs s.sig.depth) ss.thresh
      { ss with
        pulseWidth := if stillOpen then satinc ss.pulseWidth else ss.pulseWidth
        pulseOpen := stillOpen } := by
  unfold State.pulseStep
  by_cases hopen : ss.pulseOpen = true
  · by_cases habove : f32gt (f32abs s.sig.depth) ss.thresh = true <;> simp [hopen, habove]
  · have hclosed : ss.pulseOpen = false := Bool.eq_false_of_not_eq_true hopen
    simp only [hclosed, Bool.false_and, Bool.false_eq_true, if_false]
    rw [← hclosed]

@[simp] theorem State.pulseStep_thresh (s : State) (ss : SearchState) :
    (s.pulseStep ss).thresh = ss.thresh := by
  rw [State.pulseStep_eq]

@[simp] theorem State.pulseStep_stop (s : State) (ss : SearchState) :
    (s.pulseStep ss).stop = ss.stop := by
  rw [State.pulseStep_eq]

@[simp] theorem SearchState.withCorr_stop (ss : SearchState) (r : Evaluation) :
    (ss.withCorr r).stop = ss.stop := rfl

/-! ## The kept peak (R288) -/

/-- The search state with this evaluation as its peak. -/
def SearchState.withPeak (ss : SearchState) (t : Clock) (r : Evaluation) : SearchState :=
  { ss with found := true, peakValue := r.strength, peakTime := t, peakPat := r.pat }

/-- What makes an evaluation the peak: it is valid, and the search has no peak yet or one that is less
strong, or for a HALF coding one that is as strong. -/
def Evaluation.Outranks (r : Evaluation) (coding : Coding) (ss : SearchState) : Prop :=
  r.valid = true
    ∧ (ss.found = false ∨ f32gt r.strength ss.peakValue = true
        ∨ (HalfCoding coding ∧ f32eq r.strength ss.peakValue = true))

section KeepPeak

variable {ss : SearchState} {coding : Coding} {r : Evaluation} {v peak : F32}

theorem betterPeak_iff :
    betterPeak coding v peak = true ↔
      f32gt v peak = true ∨ (HalfCoding coding ∧ f32eq v peak = true) := by
  cases coding <;> simp [betterPeak, HalfCoding]

theorem Evaluation.outranks_iff :
    r.Outranks coding ss ↔
      (r.valid && (!ss.found || betterPeak coding r.strength ss.peakValue)) = true := by
  simp only [Evaluation.Outranks, ← betterPeak_iff, Bool.and_eq_true, Bool.or_eq_true,
    Bool.not_eq_true']

theorem SearchState.keepPeak_of_outranks (h : r.Outranks coding ss) (t : Clock) :
    ss.keepPeak coding t r = ss.withPeak t r :=
  if_pos (Evaluation.outranks_iff.mp h)

theorem SearchState.keepPeak_of_not_outranks (h : ¬r.Outranks coding ss) (t : Clock) :
    ss.keepPeak coding t r = ss :=
  if_neg (mt Evaluation.outranks_iff.mpr h)

@[simp] theorem SearchState.keepPeak_stop (ss : SearchState) (coding : Coding) (t : Clock)
    (r : Evaluation) : (ss.keepPeak coding t r).stop = ss.stop := by
  unfold SearchState.keepPeak; split <;> rfl

/-- `better_peak` of two numbers in the order of their values; among equals it is true of the HALF
codings alone (R288). -/
theorem betterPeak_order (hv : isNaN v = false) (hpeak : isNaN peak = false) :
    betterPeak coding v peak = true ↔
      f32key peak < f32key v ∨ (HalfCoding coding ∧ f32key v = f32key peak) := by
  rw [betterPeak_iff, f32gt_iff hv hpeak, f32eq_iff hv hpeak]

end KeepPeak

/-! ## The SEARCHING step (R288, R289) -/

/-- The search state that the evaluation of a tick finds: the pulse measured and CORR0 and CORR1
written. -/
theorem State.withCorr_pulseStep (s : State) (ss : SearchState) (r : Evaluation) :
    (s.pulseStep ss).withCorr r =
      let stillOpen := ss.pulseOpen && f32gt (f32abs s.sig.depth) ss.thresh
      { ss with
        pulseWidth := if stillOpen then satinc ss.pulseWidth else ss.pulseWidth
        pulseOpen := stillOpen
        corr0 := r.s0
        corr1 := r.s1 } := by
  rw [State.pulseStep_eq]
  rfl

/-- The evaluation uses the THRESH, and the decision the END, that the step began with. -/
theorem State.searchStep_eq (s : State) (c : Row) (ss : SearchState) :
    s.searchStep c ss =
      let r := s.eval c s.sig.clock ss.thresh .acquire
      let kept := ((s.pulseStep ss).withCorr r).keepPeak c.coding s.sig.clock r
      if s.sig.clock = ss.stop then kept.searchDecide (s.bank.get c) else kept := by
  simp only [State.searchStep, State.pulseStep_thresh, SearchState.keepPeak_stop,
    SearchState.withCorr_stop, State.pulseStep_stop]

/-! ## The peak over the evaluations of a search (R288) -/

/-- `p` is the peak of the evaluations `before ++ p :: after`: it is the valid one of greatest strength,
the latest among equals for the HALF codings and the earliest for the others. -/
structure IsPeak (coding : Coding) (before : List (Clock × Evaluation)) (p : Clock × Evaluation)
    (after : List (Clock × Evaluation)) : Prop where
  valid : p.2.valid = true
  greatest : ∀ q ∈ before ++ p :: after, q.2.valid = true →
    f32ge p.2.strength q.2.strength = true
  latest : HalfCoding coding → ∀ q ∈ after, q.2.valid = true →
    f32gt p.2.strength q.2.strength = true
  earliest : ¬HalfCoding coding → ∀ q ∈ before, q.2.valid = true →
    f32gt p.2.strength q.2.strength = true

section SearchPeak

variable {coding : Coding} {before after evals : List (Clock × Evaluation)}
  {p q : Clock × Evaluation}

/-- The first valid evaluation is the peak. -/
theorem IsPeak.first (hq : q.2.valid = true) (hnum : isNaN q.2.strength = false)
    (hinvalid : ∀ e ∈ evals, e.2.valid = false) : IsPeak coding evals q [] where
  valid := hq
  greatest e he hvalid := by
    rcases List.mem_append.mp he with hold | hlast
    · rw [hinvalid e hold] at hvalid; cases hvalid
    · rw [List.mem_singleton.mp hlast, f32ge_iff hnum hnum]
  latest _ e he := absurd he List.not_mem_nil
  earliest _ e he hvalid := by rw [hinvalid e he] at hvalid; cases hvalid

/-- A valid evaluation that is better than the peak replaces it: it is as strong as all before it, and
stronger unless the coding is a HALF one. -/
theorem IsPeak.replaced (h : IsPeak coding before p after)
    (hnum : ∀ e ∈ before ++ p :: after, e.2.valid = true → isNaN e.2.strength = false)
    (hq : q.2.valid = true) (hqnum : isNaN q.2.strength = false)
    (hbetter : betterPeak coding q.2.strength p.2.strength = true) :
    IsPeak coding (before ++ p :: after) q [] := by
  have hpnum := hnum p (by simp) h.valid
  have hkey := (betterPeak_order hqnum hpnum).mp hbetter
  have hbelow : ∀ e ∈ before ++ p :: after, e.2.valid = true →
      f32key e.2.strength ≤ f32key p.2.strength := fun e he hvalid =>
    (f32ge_iff hpnum (hnum e he hvalid)).mp (h.greatest e he hvalid)
  refine ⟨hq, fun e he hvalid => ?greatest, fun _ e he => absurd he List.not_mem_nil,
    fun hfull e he hvalid => ?earliest⟩
  case greatest =>
    rcases List.mem_append.mp he with hold | hlast
    · rw [f32ge_iff hqnum (hnum e hold hvalid)]
      have := hbelow e hold hvalid
      omega
    · rw [List.mem_singleton.mp hlast, f32ge_iff hqnum hqnum]
  case earliest =>
    rw [f32gt_iff hqnum (hnum e he hvalid)]
    have hstronger := hkey.resolve_right fun hhalf => hfull hhalf.1
    exact (hbelow e he hvalid).trans_lt hstronger

/-- An evaluation that is not valid, or not better than the peak, leaves it: it is no stronger, and
weaker where the coding is a HALF one. -/
theorem IsPeak.kept (h : IsPeak coding before p after) (hpnum : isNaN p.2.strength = false)
    (hqnum : q.2.valid = true → isNaN q.2.strength = false)
    (hworse : q.2.valid = true → betterPeak coding q.2.strength p.2.strength ≠ true) :
    IsPeak coding before p (after ++ [q]) where
  valid := h.valid
  greatest e he hvalid := by
    rw [← List.cons_append, ← List.append_assoc] at he
    rcases List.mem_append.mp he with hold | hlast
    · exact h.greatest e hold hvalid
    · obtain rfl := List.mem_singleton.mp hlast
      have hkey := mt (betterPeak_order (hqnum hvalid) hpnum).mpr (hworse hvalid)
      rw [f32ge_iff hpnum (hqnum hvalid)]
      omega
  latest hhalf e he hvalid := by
    rcases List.mem_append.mp he with hold | hlast
    · exact h.latest hhalf e hold hvalid
    · obtain rfl := List.mem_singleton.mp hlast
      have hkey := mt (betterPeak_order (hqnum hvalid) hpnum).mpr (hworse hvalid)
      rw [f32gt_iff hpnum (hqnum hvalid)]
      simp only [hhalf, true_and] at hkey
      omega
  earliest := h.earliest

/-- Over the evaluations of a search either none is valid and nothing is kept, or the peak is kept. -/
theorem SearchState.foldl_keepPeak {ss : SearchState} (hfound : ss.found = false)
    (hnum : ∀ e ∈ evals, e.2.valid = true → isNaN e.2.strength = false) :
    let final := evals.foldl (fun e p => e.keepPeak coding p.1 p.2) ss
    ((∀ e ∈ evals, e.2.valid = false) ∧ final = ss)
      ∨ ∃ before p after, evals = before ++ p :: after ∧ IsPeak coding before p after
          ∧ final = ss.withPeak p.1 p.2 := by
  induction evals using List.reverseRecOn with
  | nil => exact .inl ⟨fun e he => absurd he List.not_mem_nil, rfl⟩
  | append_singleton evals q ih =>
    have hqnum := hnum q (by simp)
    have holdnum : ∀ e ∈ evals, e.2.valid = true → isNaN e.2.strength = false :=
      fun e he => hnum e (List.mem_append_left _ he)
    simp only [List.foldl_append, List.foldl_cons, List.foldl_nil]
    rcases ih holdnum with ⟨hinvalid, hss⟩ | ⟨before, p, after, rfl, hpeak, hpss⟩
    · rw [hss]
      by_cases hq : q.2.valid = true
      · exact .inr ⟨evals, q, [], rfl, .first hq (hqnum hq) hinvalid,
          SearchState.keepPeak_of_outranks ⟨hq, .inl hfound⟩ _⟩
      · refine .inl ⟨fun e he => ?_, SearchState.keepPeak_of_not_outranks (fun h => hq h.1) _⟩
        rcases List.mem_append.mp he with hold | hlast
        · exact hinvalid e hold
        · rw [List.mem_singleton.mp hlast, Bool.eq_false_of_not_eq_true hq]
    · rw [hpss]
      have hiff : q.2.Outranks coding (ss.withPeak p.1 p.2) ↔
          q.2.valid = true ∧ betterPeak coding q.2.strength p.2.strength = true := by
        simp [Evaluation.Outranks, SearchState.withPeak, betterPeak_iff]
      by_cases hq : q.2.valid = true ∧ betterPeak coding q.2.strength p.2.strength = true
      · exact .inr ⟨before ++ p :: after, q, [], rfl,
          hpeak.replaced holdnum hq.1 (hqnum hq.1) hq.2,
          SearchState.keepPeak_of_outranks (hiff.mpr hq) _⟩
      · exact .inr ⟨before, p, after ++ [q], by simp,
          hpeak.kept (holdnum p (by simp) hpeak.valid) hqnum fun hv hb => hq ⟨hv, hb⟩,
          SearchState.keepPeak_of_not_outranks (mt hiff.mp hq) _⟩

end SearchPeak

/-! ## The outcomes of a tracking window (R293, R297, R298) -/

section Outcomes

variable {s : State} {c : Row} {ss ss' : SearchState} {sym : Symbol}

theorem State.syncStep_waiting (h : s.track c .acquire ss = (ss', none)) :
    s.syncStep c ss = (ss', .quiet) := by
  rw [State.syncStep, h]

theorem State.syncStep_found (h : s.track c .acquire ss = (ss', some (true, sym))) :
    s.syncStep c ss = (ss', { RowOut.quiet with lockreq := some sym }) := by
  rw [State.syncStep, h]

theorem State.syncStep_missed (h : s.track c .acquire ss = (ss', some (false, sym))) :
    s.syncStep c ss = (SearchState.reset, .quiet) := by
  rw [State.syncStep, h]

theorem State.lockedStep_waiting (h : s.track c .track ss = (ss', none)) :
    s.lockedStep c ss = (ss', .quiet) := by
  rw [State.lockedStep, h]

theorem State.lockedStep_found (h : s.track c .track ss = (ss', some (true, sym))) :
    s.lockedStep c ss = ss'.lockedFound c sym := by
  rw [State.lockedStep, h]

theorem State.lockedStep_missed (h : s.track c .track ss = (ss', some (false, sym))) :
    s.lockedStep c ss = ss'.lockedMissed sym := by
  rw [State.lockedStep, h]

/-- The held symbol goes before the found one (R297). -/
theorem SearchState.lockedFound_eq (ss : SearchState) (c : Row) (sym : Symbol) :
    ss.lockedFound c sym =
      ({ ss with hold := false, miss := 0#2 },
        ⟨none, if ss.hold then [ss.heldSymbol c, sym] else [sym], false⟩) := by
  unfold SearchState.lockedFound
  split <;> rfl

/-- The first miss is held (R297). -/
theorem SearchState.lockedMissed_first (h : ss.miss = 0#2) :
    ss.lockedMissed sym =
      ({ ss with
          miss := 1#2
          hold := true
          holdStart := sym.start
          holdEnd := sym.stop
          holdNext := sym.next },
        .quiet) := by
  simp [SearchState.lockedMissed, h]

/-- A miss after a held one loses sync (R298); MISS wraps to 1 from 0 alone. -/
theorem SearchState.lockedMissed_second (h : ss.miss ≠ 0#2) :
    ss.lockedMissed sym = (SearchState.reset, { RowOut.quiet with eof := true }) :=
  if_neg fun hmiss => h (by bv_omega)

end Outcomes

/-! ## The candidate that lost sync (R298) -/

theorem eofPending_eq_none {out : PerRow RowOut} (h : ∀ c : Row, (out.get c).eof = false) :
    eofPending out = none :=
  List.find?_eq_none.mpr fun c _ => by simp [h c]

theorem eofPending_eq_some {out : PerRow RowOut} {c : Row} (hc : (out.get c).eof = true)
    (honly : ∀ d : Row, (out.get d).eof = true → d = c) : eofPending out = some c := by
  cases hfind : eofPending out with
  | none => exact absurd hc (List.find?_eq_none.mp hfind c (Row.mem_all c))
  | some d => rw [honly d (List.find?_some (p := fun c => (out.get c).eof) hfind)]

/-! ## RD_SS -/

/-- Inside the block of R148 the offset's selectors are c and k, and they decide whether the offset is
mapped. DATA chooses nothing, so the offsets are decided on one DATA. -/
theorem decode_ssOffset (c k : BitVec 4) (d : Word) :
    decode (mkTxn false (wordAt (0x400#12 + 0x40#12 * c.setWidth 12) k) d) =
      accessIf (c.toNat ≤ 10 && k.toNat ≤ 14) (.ok (.rdSs c k)) := by
  have hzero : ∀ c k : BitVec 4,
      decodeFields false (wordAt (0x400#12 + 0x40#12 * c.setWidth 12) k) 0#32 =
        accessIf (c.toNat ≤ 10 && k.toNat ≤ 14) (.ok (.rdSs c k)) := by decide
  rw [decode_mkTxn, ← decodeFields_withData _ _ 0#32, hzero, accessIf_withData]
  rfl

/-- RD_SS of a row answers the word k of that row's search state and changes nothing else (R340). -/
theorem exec_rdSs_code {s : State} {c : Row} {k : BitVec 4} {v : Word}
    (h : (s.ss.get c).word k = some v) :
    exec (.rdSs c.code k) s = .next { s with response := some v } := by
  show execRdSs c.code k s = _
  rw [execRdSs, Row.ofCode_code, Option.bind_some, h]
  rfl

end Sys2Proof.Machine

section
open Sys2Proof Sys2Proof.Machine

/-- Settles O40: the fold over a search's evaluations is `SearchState.foldl_keepPeak`; the step is its
parts in order, none of which changes THRESH or END before the decision. -/
theorem searchDecision : Obligations.SearchDecision := by
  unfold Obligations.SearchDecision
  refine ⟨fun s c ss => ?step, fun ss coding t r => ?keep, fun ss coding evals hfound hnum => ?peak,
    fun ss b => ⟨?cleared, ?synchronizes⟩⟩
  case step =>
    rw [State.searchStep_eq]
    dsimp only
    rw [State.withCorr_pulseStep, satinc_eq]
    exact ⟨fun hend => if_pos hend, fun hbefore => if_neg hbefore⟩
  case keep =>
    exact ⟨fun h => SearchState.keepPeak_of_outranks h t,
      fun h => SearchState.keepPeak_of_not_outranks h t⟩
  case peak =>
    rcases SearchState.foldl_keepPeak (coding := coding) hfound hnum with
      ⟨hinvalid, hfinal⟩ | ⟨before, ⟨t, r⟩, after, rfl, hpeak, hfinal⟩
    · refine ⟨fun _ => hfinal, fun ⟨p, hp, hvalid⟩ => ?_⟩
      rw [hinvalid p hp] at hvalid; cases hvalid
    · refine ⟨fun hinvalid => ?_, fun _ => ⟨before, after, t, r, rfl, hpeak.valid, hfinal,
        hpeak.greatest, hpeak.latest, hpeak.earliest⟩⟩
      have hvalid := hpeak.valid
      rw [hinvalid (t, r) (by simp)] at hvalid; cases hvalid
  case cleared => exact fun h => if_neg (by simp [h])
  case synchronizes => exact fun h => if_pos h

/-- Settles O16: the offset decodes to RD_SS where c names a row and k a word, and RD_SS answers
`SearchState.word`. -/
theorem searchStateReads : Obligations.SearchStateReads := by
  unfold Obligations.SearchStateReads
  refine ⟨fun c k hk d => ?mapped, fun c k d hout => ?unmapped, fun s c => ⟨?stage, ?words⟩⟩
  case mapped => rw [decode_ssOffset, decide_eq_true c.code_toNat_le, decide_eq_true hk]; rfl
  case unmapped =>
    have hrange : (decide (c.toNat ≤ 10) && decide (k.toNat ≤ 14)) = false := by
      rcases hout with hc | rfl
      · rw [decide_eq_false (Nat.not_le.mpr hc), Bool.false_and]
      · exact Bool.and_false _
    rw [decode_ssOffset, hrange]; rfl
  case stage =>
    rw [← BitVec.shiftLeft_zero ((s.ss.get c).stage.code.setWidth 32)]
    exact exec_rdSs_code rfl
  case words =>
    rw [← SearchState.xp_eq]
    exact ⟨exec_rdSs_code rfl, exec_rdSs_code rfl, exec_rdSs_code rfl, exec_rdSs_code rfl,
      exec_rdSs_code rfl, exec_rdSs_code rfl, exec_rdSs_code rfl, exec_rdSs_code rfl,
      exec_rdSs_code rfl, exec_rdSs_code rfl, exec_rdSs_code rfl, exec_rdSs_code rfl,
      exec_rdSs_code rfl, exec_rdSs_code rfl⟩

/-- Settles O42: phase 4 builds the row's step for each row, and each step is its outcome's case. -/
theorem lockedTracking : Obligations.LockedTracking := by
  unfold Obligations.LockedTracking
  refine ⟨fun s c => ?stages, State.track_stage, fun s c ss ss' => ?sync, fun s c ss ss' => ?locked,
    fun out => ⟨eofPending_eq_none, fun c => eofPending_eq_some⟩⟩
  case stages =>
    have hafter : (s.correlators.1.ss.get c, s.correlators.2.get c) = s.rowStep s.lockedAny c := by
      rw [State.correlators_ss, State.correlators_out]
    dsimp only
    rw [hafter]
    exact ⟨rfl, s.lockedAny_iff, fun h => State.rowStep_idle h _, fun h => State.rowStep_searching h _,
      fun h => State.rowStep_synchronizing h _, fun h => State.rowStep_locked h _⟩
  case sync =>
    exact ⟨State.syncStep_waiting, fun sym2 => ⟨State.syncStep_found, State.syncStep_missed⟩⟩
  case locked =>
    refine ⟨State.lockedStep_waiting, fun sym h => ?found, fun sym h hmiss => ?first,
      fun sym h hmiss => ?second⟩
    case found => rw [State.lockedStep_found h]; exact ss'.lockedFound_eq c sym
    case first => rw [State.lockedStep_missed h]; exact SearchState.lockedMissed_first hmiss
    case second => rw [State.lockedStep_missed h]; exact SearchState.lockedMissed_second hmiss

end

/-! PROOFS. The family of 43_stream_decoder.md: the byte limit, the flush, the symbol-to-bit map, and
START_STOP frames bit by bit and a character at a time. -/

namespace Sys2Proof.Machine

/-! ## Bytes and the flush (R362, R364) -/

section Bytes

variable {t : StreamState} {g : DecoderEnv}

theorem StreamState.store_at_limit (h : t.bytes.toNat = g.limit) (v : Byte) :
    t.store g v = (t, .abandon) := if_pos h

theorem StreamState.store_below_limit (h : t.bytes.toNat < g.limit) (v : Byte) :
    t.store g v =
      ({ t with buf := Memory.write t.buf t.bytes.toNat v, bytes := t.bytes + 1#16 }, .cont) := by
  rcases t.store_cases g v h.le with ⟨hat, -⟩ | ⟨-, hstored⟩
  · exact absurd hat h.ne
  · exact hstored

/-- The pending bits that make a partial byte, in the words of R364. -/
theorem StreamState.flushBits_eq (t : StreamState) :
    t.flushBits =
      let pending := if t.phase = .sofStrip then 0#4 else t.bitcnt
      if pending = 1#4 ∨ pending = 8#4 then pending - 1#4 else pending := by
  simp only [StreamState.flushBits, Bool.or_eq_true, decide_eq_true_eq]

theorem StreamState.flush_partial (hframing : g.row.framing = .parityOdd)
    (hbits : 1 ≤ t.flushBits.toNat) :
    t.flush g =
      StreamState.store { t with lastbits := t.flushBits } g
        (t.data &&& ((1#8 <<< t.flushBits.toNat) - 1#8)) := by
  unfold StreamState.flush
  rw [hframing]
  exact if_pos hbits

theorem StreamState.flush_whole (h : g.row.framing ≠ .parityOdd ∨ t.flushBits = 0#4) :
    t.flush g = ({ t with lastbits := 8#4 }, .cont) := by
  unfold StreamState.flush
  cases hframing : g.row.framing with
  | parityOdd =>
    have hnone : t.flushBits = 0#4 := h.resolve_left fun hne => hne hframing
    exact if_neg (by simp [hnone])
  | startStop => rfl
  | plain => rfl

end Bytes

/-! ## Symbols (R352 to R354) -/

section Symbols

variable {t : StreamState} {g : DecoderEnv} {sym : Symbol}

theorem StreamState.accumulate_sofStrip (h : t.phase = .sofStrip) :
    t.accumulate g sym = ({ t with phase := .data, prevPat := sym.pat }, .cont) := if_pos h

theorem StreamState.accumulate_bits (h : t.phase ≠ .sofStrip) :
    t.accumulate g sym =
      let e := symbolBits g.row.coding g.row.pol sym.pat
      let r := StreamState.bits { t with parErr := t.parErr || e.2 } g e.1
      ({ r.1 with prevPat := sym.pat }, r.2) := if_neg h

theorem StreamState.accumulate_prevPat (t : StreamState) (g : DecoderEnv) (sym : Symbol) :
    (t.accumulate g sym).1.prevPat = sym.pat := by
  by_cases h : t.phase = .sofStrip
  · rw [StreamState.accumulate_sofStrip h]
  · rw [StreamState.accumulate_bits h]

/-- PPM_j carries the two bits of j, the low one first. -/
theorem symbolBits_ppm (pol : Bool) (j : BitVec 2) :
    symbolBits .ppm4 pol (Pattern.ppm j) = ([j.getLsbD 0, j.getLsbD 1], false) := by
  have hj : j = 0#2 ∨ j = 1#2 ∨ j = 2#2 ∨ j = 3#2 := by bv_omega
  rcases hj with rfl | rfl | rfl | rfl <;> rfl

/-- A pattern that is not one of its coding's own is a coding error with the bit 0. -/
theorem symbolBits_foreign {coding : Coding} {pol : Bool} {pat : Pattern}
    (h : (coding, pat) ∉
      [(.miller, .second), (.miller, .first), (.miller, .none), (.manchester, .first),
        (.manchester, .second), (.manchester, .none), (.nrz, .nrzZero), (.nrz, .nrzOne),
        (.ppm4, .none), (.ppm4, .ppm0), (.ppm4, .ppm1), (.ppm4, .ppm2), (.ppm4, .ppm3)]) :
    symbolBits coding pol pat = ([false], true) := by
  fun_cases symbolBits coding pol pat
  case case14 => rfl
  all_goals exact absurd (by decide) h

end Symbols

/-! ## Lists of bits (R353) and the accumulator (R357, R361) -/

section BitLists

variable {t u : StreamState} {g : DecoderEnv}

theorem StreamState.bits_cons_cont {b : Bool} (h : t.bit g b = (u, .cont)) (rest : List Bool) :
    t.bits g (b :: rest) = u.bits g rest := by
  rw [StreamState.bits, h]

theorem StreamState.bits_singleton (t : StreamState) (g : DecoderEnv) (b : Bool) :
    t.bits g [b] = t.bit g b := by
  rcases h : t.bit g b with ⟨u, a⟩
  cases a <;> simp only [StreamState.bits, h]

/-- Bits received into the partial byte one after the other. -/
def StreamState.addBits (t : StreamState) (l : List Bool) : StreamState :=
  l.foldl StreamState.addBit t

/-- Received bits change only the partial byte and its count. -/
theorem StreamState.addBits_eq (t : StreamState) (l : List Bool) :
    t.addBits l =
      { t with data := (t.addBits l).data, bitcnt := t.bitcnt + BitVec.ofNat 4 l.length } := by
  induction l generalizing t with
  | nil => simp [StreamState.addBits]
  | cons b rest ih =>
    have hcount : t.bitcnt + 1#4 + BitVec.ofNat 4 rest.length
        = t.bitcnt + BitVec.ofNat 4 (rest.length + 1) := by
      rw [BitVec.add_assoc, BitVec.ofNat_add, BitVec.add_comm 1#4]
    have hrest := ih (t.addBit b)
    rw [show (t.addBit b).bitcnt = t.bitcnt + 1#4 from rfl, hcount] at hrest
    exact hrest

theorem StreamState.addBits_phase (t : StreamState) (l : List Bool) :
    (t.addBits l).phase = t.phase := by rw [t.addBits_eq l]

theorem StreamState.addBit_bitcnt_toNat (h : t.bitcnt.toNat < 8) (b : Bool) :
    (t.addBit b).bitcnt.toNat = t.bitcnt.toNat + 1 := by
  show (t.bitcnt + 1#4).toNat = t.bitcnt.toNat + 1
  bv_omega

/-- One bit sets its place and leaves the others. -/
theorem StreamState.addBit_data_getLsbD (t : StreamState) (b : Bool) {i : Nat} (hi : i < 8) :
    (t.addBit b).data.getLsbD i = (t.data.getLsbD i || (decide (i = t.bitcnt.toNat) && b)) := by
  have hbit (n : Nat) : ((BitVec.ofBool b).setWidth 8).getLsbD n = (decide (n = 0) && b) := by
    cases n <;> simp
  have hplace : (decide ¬i < t.bitcnt.toNat && (decide (i - t.bitcnt.toNat = 0) && b))
      = (decide (i = t.bitcnt.toNat) && b) := by
    rw [← Bool.and_assoc, ← Bool.decide_and]
    congr 2
    exact propext (by omega)
  rw [StreamState.addBit, BitVec.getLsbD_or, BitVec.getLsbD_shiftLeft, hbit,
    decide_eq_true hi, Bool.true_and, ← decide_not, hplace]

/-- The first bit received is the lowest of the byte: bit BITCNT + n is the n-th bit received. -/
theorem StreamState.addBits_data_getLsbD (t : StreamState) (l : List Bool)
    (h : t.bitcnt.toNat + l.length ≤ 8) {i : Nat} (hi : i < 8) :
    (t.addBits l).data.getLsbD i =
      (t.data.getLsbD i
        || (decide (t.bitcnt.toNat ≤ i) && (l[i - t.bitcnt.toNat]?).getD false)) := by
  induction l generalizing t with
  | nil => simp [StreamState.addBits]
  | cons b rest ih =>
    rw [List.length_cons] at h
    have hcount := StreamState.addBit_bitcnt_toNat (t := t) (by omega) b
    have hrest := ih (t.addBit b) (by omega)
    rw [hcount, t.addBit_data_getLsbD b hi] at hrest
    refine hrest.trans ?_
    rcases Nat.lt_trichotomy i t.bitcnt.toNat with hlow | rfl | hhigh
    · simp [show ¬t.bitcnt.toNat ≤ i by omega, show ¬t.bitcnt.toNat + 1 ≤ i by omega, hlow.ne]
    · simp
    · have hindex : i - t.bitcnt.toNat = i - (t.bitcnt.toNat + 1) + 1 := by omega
      simp [hindex, hhigh.le, hhigh.ne', Nat.succ_le_of_lt hhigh]

/-- From an empty accumulator eight bits make the byte whose bits from bit 0 up they are. -/
theorem StreamState.addBits_data_bits (hcount : t.bitcnt = 0#4) (hdata : t.data = 0#8)
    {l : List Bool} (hlen : l.length = 8) :
    (List.range 8).map (t.addBits l).data.getLsbD = l := by
  refine List.ext_getElem (by simp [hlen]) fun i hi hil => ?_
  have hplace := t.addBits_data_getLsbD l (by simp [hcount, hlen]) (hlen ▸ hil)
  simpa [hcount, hdata, hil] using hplace

end BitLists

/-! ## START_STOP frames (R360, R361) -/

section StartStop

variable {t : StreamState} {g : DecoderEnv}

/-- The saturating increment as the comparison with the greatest word (00_scope.md R13). -/
theorem satinc_eq_ite (w : Word) :
    satinc w = if w = 0xFFFFFFFF#32 then w else w + 1#32 := by
  by_cases hmax : w = 0xFFFFFFFF#32
  · rw [if_pos hmax, hmax]; rfl
  · rw [if_neg hmax, satinc, if_pos (by bv_omega)]

theorem StreamState.bit_startStop (h : g.row.framing = .startStop) (b : Bool) :
    t.bit g b = t.bitStartStop g b := by
  rw [StreamState.bit, h]

theorem StreamState.bitStartStop_bSofZeros (h : t.phase = .bSofZeros) :
    t.bitStartStop g false = t.runOn g
      ∧ t.bitStartStop g true = ({ t with phase := .bSofOnes, run := 1#32 }, .cont) := by
  unfold StreamState.bitStartStop; rw [h]; exact ⟨rfl, rfl⟩

/-- The ones of the start of frame and those between characters wait alike for a start bit. -/
theorem StreamState.bitStartStop_ones (h : t.phase = .bSofOnes ∨ t.phase = .bWaitStart) :
    t.bitStartStop g true = t.runOn g
      ∧ t.bitStartStop g false = ({ t with phase := .bChar, data := 0#8, bitcnt := 0#4 }, .cont) := by
  unfold StreamState.bitStartStop
  rcases h with h | h <;> rw [h] <;> exact ⟨rfl, rfl⟩

theorem StreamState.bitStartStop_bChar (h : t.phase = .bChar) (b : Bool) :
    t.bitStartStop g b = t.charBit g b := by
  unfold StreamState.bitStartStop; rw [h]

theorem StreamState.charBit_data (h : t.bitcnt.toNat < 8) (b : Bool) :
    t.charBit g b = (t.addBit b, .cont) := if_pos h

/-- The tenth zero of a character, its start bit among them, ends the frame. -/
theorem StreamState.charBit_ten_zeros (hcount : t.bitcnt = 8#4) (hdata : t.data = 0#8) :
    t.charBit g false = (t, .complete) := by
  simp [StreamState.charBit, hcount, hdata]

/-- Any other stop bit stores the byte, a stop bit 0 with PAR_ERR set. -/
theorem StreamState.charBit_stop {stop : Bool} (hcount : t.bitcnt = 8#4)
    (hstop : stop = true ∨ t.data ≠ 0#8) (hlimit : t.bytes.toNat < g.limit) :
    t.charBit g stop =
      ({ t with
          data := 0#8
          bitcnt := 0#4
          phase := .bWaitStart
          run := 0#32
          parErr := t.parErr || !stop
          buf := Memory.write t.buf t.bytes.toNat t.data
          bytes := t.bytes + 1#16 }, .cont) := by
  have hnotEnd : ¬(!stop && decide (t.data = 0#8)) = true := by
    rcases hstop with rfl | hne
    · simp
    · simp [hne]
  rw [StreamState.charBit, if_neg (by simp [hcount]), if_neg hnotEnd,
    StreamState.store_below_limit (t := { t with parErr := t.parErr || !stop }) hlimit]

/-- Up to eight bits of a character go to the partial byte; what follows is received after them. -/
theorem StreamState.bits_character_data (hframing : g.row.framing = .startStop)
    (hphase : t.phase = .bChar) (l rest : List Bool) (h : t.bitcnt.toNat + l.length ≤ 8) :
    t.bits g (l ++ rest) = (t.addBits l).bits g rest := by
  induction l generalizing t with
  | nil => rfl
  | cons b tail ih =>
    rw [List.length_cons] at h
    have hlt : t.bitcnt.toNat < 8 := by omega
    have hbit : t.bit g b = (t.addBit b, .cont) := by
      rw [StreamState.bit_startStop hframing, StreamState.bitStartStop_bChar hphase,
        StreamState.charBit_data hlt]
    rw [List.cons_append, StreamState.bits_cons_cont hbit]
    exact ih (t := t.addBit b) hphase (by rw [StreamState.addBit_bitcnt_toNat hlt]; omega)

/-- A whole character: the ninth bit is the stop bit of the byte that the eight before it make. -/
theorem StreamState.bits_character (hframing : g.row.framing = .startStop)
    (hphase : t.phase = .bChar) (hcount : t.bitcnt = 0#4) {l : List Bool} (hlen : l.length = 8)
    (stop : Bool) :
    t.bits g (l ++ [stop]) =
      StreamState.charBit { t with data := (t.addBits l).data, bitcnt := 8#4 } g stop := by
  have hreceived : t.addBits l = { t with data := (t.addBits l).data, bitcnt := 8#4 } := by
    have hadded := t.addBits_eq l
    rwa [hcount, hlen, show 0#4 + BitVec.ofNat 4 8 = 8#4 from rfl] at hadded
  rw [StreamState.bits_character_data hframing hphase l [stop] (by simp [hcount, hlen]),
    StreamState.bits_singleton, StreamState.bit_startStop hframing, ← hreceived]
  exact StreamState.bitStartStop_bChar ((t.addBits_phase l).trans hphase) stop

end StartStop

end Sys2Proof.Machine

section
open Sys2Proof Sys2Proof.Machine

/-- Settles O47: the waits bit by bit, and a character as the byte its eight data bits make. -/
theorem startStopFraming : Obligations.StartStopFraming := by
  unfold Obligations.StartStopFraming
  intro t g hframing
  simp only [StreamState.bit_startStop hframing]
  rw [← satinc_eq_ite]
  refine ⟨StreamState.bitStartStop_bSofZeros, StreamState.bitStartStop_ones, ?character⟩
  intro hphase hcount hdata hlimit b0 b1 b2 b3 b4 b5 b6 b7 stop
  have hcharacter := StreamState.bits_character hframing hphase hcount
    (l := [b0, b1, b2, b3, b4, b5, b6, b7]) rfl stop
  refine ⟨(t.addBits [b0, b1, b2, b3, b4, b5, b6, b7]).data,
    StreamState.addBits_data_bits hcount hdata rfl, ?ended, ?stored⟩
  case ended =>
    rintro ⟨rfl, hzero⟩
    have hended := hcharacter.trans (StreamState.charBit_ten_zeros rfl hzero)
    exact ⟨congrArg Prod.snd hended, congrArg (·.1.bytes) hended⟩
  case stored =>
    intro hstop
    have hstored := hcharacter.trans (StreamState.charBit_stop rfl hstop hlimit)
    rwa [← hdata, ← hcount] at hstored

/-- Settles O44: the start of frame, the bits of a symbol, and the map by coding and pattern. -/
theorem symbolProcessing : Obligations.SymbolProcessing := by
  unfold Obligations.SymbolProcessing
  refine ⟨fun t g sym => ⟨t.accumulate_prevPat g sym, StreamState.accumulate_sofStrip,
    StreamState.accumulate_bits⟩, fun pol => ?_, fun _ _ _ => symbolBits_foreign⟩
  exact ⟨rfl, rfl, rfl, rfl, rfl, rfl, rfl, rfl, rfl, symbolBits_ppm pol⟩

/-- Settles O45: the two branches of a store, which BUF_CAP does not cut further below the limit. -/
theorem byteLimit : Obligations.ByteLimit := by
  unfold Obligations.ByteLimit
  exact fun t g v => ⟨fun hat => StreamState.store_at_limit hat v,
    fun hbelow => StreamState.store_below_limit hbelow v⟩

/-- Settles O48: the bits of the partial byte are `StreamState.flushBits`. -/
theorem flush : Obligations.Flush := by
  unfold Obligations.Flush
  intro t g
  have hbits := t.flushBits_eq
  dsimp only at hbits ⊢
  rw [← hbits]
  exact ⟨StreamState.flush_partial, StreamState.flush_whole⟩

end

/-! PROOFS. The family of 44_frame_assembler.md: the records of a tick, the timeout check, how a frame
in progress ends, and RD_TSTAT and RD_ASM. -/

namespace Sys2Proof.Machine

/-! ## The records of a tick (R412) -/

section TickRecords

variable {s t : State} {l : List Tech}

/-- `t` holds the records of `s` and then TIMEOUT records, each of another technology of `l`, in the
order of `l`. -/
def State.PushesTimeouts (l : List Tech) (s t : State) : Prop :=
  ∃ new : List Record, t.queue = s.queue ++ new ∧ (∀ r ∈ new, r.kind = .timeout)
    ∧ (new.map (fun r => r.tech)).Sublist l

/-- A timeout check before those of `l` puts at most its own record before theirs. -/
theorem State.PushesTimeouts.cons {x : Tech} (h : State.PushesTimeouts l (s.timeoutCheck x) t) :
    State.PushesTimeouts (x :: l) s t := by
  obtain ⟨new, hqueue, hkind, htech⟩ := h
  rw [s.timeoutCheck_queue x] at hqueue
  split at hqueue
  · refine ⟨s.timeoutRecord x s.sig.clock :: new, by simpa using hqueue, ?_, htech.cons_cons x⟩
    exact List.forall_mem_cons.mpr ⟨rfl, hkind⟩
  · exact ⟨new, by simpa using hqueue, hkind, htech.cons x⟩

theorem State.foldl_timeoutCheck_pushes (s : State) (l : List Tech) :
    State.PushesTimeouts l s (l.foldl State.timeoutCheck s) := by
  induction l generalizing s with
  | nil => exact ⟨[], by simp⟩
  | cons x rest ih => exact (ih (s.timeoutCheck x)).cons

/-- Phase 3 checks the technologies in their order (R409). -/
theorem State.timeouts_pushesTimeouts (s : State) : State.PushesTimeouts Tech.all s s.timeouts :=
  s.foldl_timeoutCheck_pushes Tech.all

@[simp] theorem State.startupPhase_queue (s : State) : s.startupPhase.queue = s.queue := by
  unfold State.startupPhase
  split <;> rfl

/-- Phases 1 and 2 push nothing, so phase 3 alone pushes before phase 4. -/
theorem State.tickFront_pushesTimeouts (s : State) (m : F32) :
    State.PushesTimeouts Tech.all s (s.tickFront m) := by
  obtain ⟨new, hqueue, hnew⟩ := (s.startupPhase.conditioner m).timeouts_pushesTimeouts
  exact ⟨new, hqueue.trans (by simp), hnew⟩

theorem Kind.frame_or_abandoned_of_ne_timeout {k : Kind} (h : k ≠ .timeout) :
    k = .frame ∨ k = .abandoned := by
  cases k with
  | frame => exact .inl rfl
  | timeout => exact absurd rfl h
  | abandoned => exact .inr rfl

end TickRecords

/-! ## The timeout check (R409, R410) -/

section Timeout

variable {s : State} {x : Tech}

theorem State.techIdle_iff :
    s.techIdle x = true ↔ ∀ c : Row, c.tech = x → (s.ss.get c).stage = .idle := by
  simp [State.techIdle, List.all_eq_true, ← imp_iff_not_or]

theorem State.timedOut_iff :
    s.timedOut x = true ↔
      (s.tim.get x).expect = true ∧ (s.tim.get x).waitEnd.toNat ≤ s.sig.clock.toNat
        ∧ ¬(s.fs.asmStage = .accumulating ∧ s.fs.tech = x)
        ∧ ∀ c : Row, c.tech = x → (s.ss.get c).stage = .idle := by
  rw [← State.techIdle_iff]
  simp [State.timedOut, and_assoc, not_and_or, -not_and]

theorem State.timeoutCheck_of_timedOut (h : s.timedOut x = true) :
    s.timeoutCheck x = (s.push (s.timeoutRecord x s.sig.clock)).unexpect x := if_pos h

theorem State.timeoutCheck_of_not_timedOut (h : ¬s.timedOut x = true) : s.timeoutCheck x = s :=
  if_neg h

end Timeout

/-! ## Delivery and the end of a frame (R401, R402) -/

section FrameEnd

variable {s u : State} {c : Row} {eof : Option Row} {sym : Symbol} {rest : List Symbol}

theorem State.clearFrameRow_of_frame (h : s.fs.cand = some c) :
    s.clearFrameRow = { s with ss := s.ss.set c SearchState.reset } := by
  rw [State.clearFrameRow, h]

theorem State.deliver_cont (hcand : s.fs.cand = some c) (h : s.deliverOne c sym = (u, .cont)) :
    s.deliver eof (sym :: rest) = u.deliver eof rest := by
  simp only [State.deliver, hcand, h]

theorem State.deliver_complete (hcand : s.fs.cand = some c)
    (h : s.deliverOne c sym = (u, .complete)) :
    s.deliver eof (sym :: rest) = (u.clearFrameRow.endFrame u.sig.clock, none) := by
  simp only [State.deliver, hcand, h]

theorem State.deliver_abandon (hcand : s.fs.cand = some c)
    (h : s.deliverOne c sym = (u, .abandon)) :
    s.deliver eof (sym :: rest) = (u.clearFrameRow.abandon u.sig.clock, none) := by
  simp only [State.deliver, hcand, h]

theorem State.correlatorEof_pending (heof : eof ≠ none) (hstage : s.fs.asmStage = .accumulating) :
    s.correlatorEof eof = s.endFrame s.sig.clock :=
  if_pos (by simp [Option.isSome_iff_ne_none, heof, hstage])

theorem State.correlatorEof_idle (h : eof = none ∨ s.fs.asmStage ≠ .accumulating) :
    s.correlatorEof eof = s := by
  refine if_neg ?_
  rcases h with rfl | hstage
  · simp
  · simp [hstage]

end FrameEnd

/-! ## The outcomes of the flush (R402) -/

section FlushOutcome

variable {s : State} {c : Row} (hcand : s.fs.cand = some c) (t : Clock)
include hcand

theorem State.endFrame_abandon (h : (s.st.flush (s.decoderEnv c)).2 = .abandon) :
    s.endFrame t = State.abandon { s with st := (s.st.flush (s.decoderEnv c)).1 } t := by
  simp only [State.endFrame, hcand, h]

/-- CONTINUE and COMPLETE end the frame alike: with a byte it completes, without one it is silent. -/
theorem State.endFrame_not_abandon (h : (s.st.flush (s.decoderEnv c)).2 ≠ .abandon) :
    s.endFrame t =
      if 1 ≤ (s.st.flush (s.decoderEnv c)).1.bytes.toNat then
        State.complete { s with st := (s.st.flush (s.decoderEnv c)).1 }
      else s.clearFrame := by
  cases hanswer : (s.st.flush (s.decoderEnv c)).2 with
  | abandon => exact absurd hanswer h
  | cont => simp only [State.endFrame, hcand, hanswer]; rfl
  | complete => simp only [State.endFrame, hcand, hanswer]; rfl

end FlushOutcome

/-! ## Completion and abandonment (R403, R405, R406, R414) -/

@[simp] theorem PerTech.set_get {α : Type} (m : PerTech α) (x : Tech) : m.set x (m.get x) = m := by
  cases x <;> rfl

section Ended

variable {s : State}

theorem State.complete_poll (h : s.fs.dir = .poll) :
    s.complete = ((s.push s.frameRecord).pollDone s.fs.tech).clearFrame := by
  rw [State.complete, h]

theorem State.complete_listen (h : s.fs.dir = .listen) :
    s.complete = ((s.push s.frameRecord).unexpect s.fs.tech).clearFrame := by
  rw [State.complete, h]; rfl

theorem State.abandon_poll (h : s.fs.dir = .poll) (t : Clock) :
    s.abandon t = (s.push (s.abandonedRecord t)).clearFrame := by
  rw [State.abandon, h]

theorem State.abandon_listen (h : s.fs.dir = .listen) (t : Clock) :
    s.abandon t = ((s.push (s.abandonedRecord t)).unexpect s.fs.tech).clearFrame := by
  rw [State.abandon, h]

/-- The deadlines of a poll frame, WAIT_END kept where no response is awaited (R405). -/
theorem Timing.pollDone_eq (m : Timing) (g : TechCfg) (f : FrameState) (firstByte : Byte) :
    m.pollDone g f firstByte =
      { guardPoll := f.frameStart + g.requestGuardTime.setWidth 64
        guardListen := f.lastEnd + g.frameGuardTime.setWidth 64
        waitEnd :=
          if g.frameWaitingTime = 0#32 then m.waitEnd
          else f.lastEnd + g.frameWaitingTime.setWidth 64
        expect := decide (g.frameWaitingTime ≠ 0#32)
        lastCmd := firstByte
        lastCmdValid := true } := by
  simp [Timing.pollDone]

end Ended

/-! ## RD_TSTAT and RD_ASM (R420, R421) -/

/-- Inside the block of R146 the offset's selectors are x and k, and they decide whether the offset is
mapped. -/
theorem decode_tstatOffset (x : BitVec 2) (k : BitVec 3) (d : Word) :
    decode (mkTxn false (wordAt (0x180#12 + 0x20#12 * x.setWidth 12) k) d) =
      accessIf (x.toNat ≤ 2 && k.toNat ≤ 6) (.ok (.rdTstat x k)) := by
  have hzero : ∀ (x : BitVec 2) (k : BitVec 3),
      decodeFields false (wordAt (0x180#12 + 0x20#12 * x.setWidth 12) k) 0#32 =
        accessIf (x.toNat ≤ 2 && k.toNat ≤ 6) (.ok (.rdTstat x k)) := by decide
  rw [decode_mkTxn, ← decodeFields_withData _ _ 0#32, hzero, accessIf_withData]
  rfl

theorem Tech.code_toNat_le (x : Tech) : x.code.toNat ≤ 2 := by cases x <;> decide

/-- RD_TSTAT of a technology answers the word k of its timing state and changes nothing else. -/
theorem exec_rdTstat_code {s : State} {x : Tech} {k : BitVec 3} {v : Word}
    (h : (s.tim.get x).word k = some v) :
    exec (.rdTstat x.code k) s = .next { s with response := some v } := by
  show execRdTstat x.code k s = _
  rw [execRdTstat, Tech.ofCode_code, Option.bind_some, h]
  rfl

/-- Every offset of the block of R149 is mapped. -/
theorem readsAs_rdAsm (k : BitVec 3) : ReadsAs (wordAt 0x800#12 k) (.rdAsm k) := by
  intro d
  have hzero : ∀ k : BitVec 3, decodeFields false (wordAt 0x800#12 k) 0#32 = .ok (.rdAsm k) := by
    decide
  rw [decode_mkTxn, ← decodeFields_withData _ _ 0#32, hzero]
  rfl

theorem exec_rdAsm (s : State) (k : BitVec 3) :
    exec (.rdAsm k) s = .next { s with response := some (s.asmWord k) } := rfl

theorem rowField_some (c : Row) : rowField (some c) = c.code := rfl

theorem rowField_none : rowField none = 0xF#4 := rfl

/-- ASM_STATUS, its lowest field without a shift. -/
theorem FrameState.statusWord_eq (f : FrameState) :
    f.statusWord =
      (f.asmStage.code.setWidth 32 ||| f.tech.code.setWidth 32 <<< 4
        ||| f.dir.code.setWidth 32 <<< 6 ||| (rowField f.cand).setWidth 32 <<< 8
        ||| f.rate.setWidth 32 <<< 16) := by
  rw [← BitVec.shiftLeft_zero (f.asmStage.code.setWidth 32)]; rfl

/-- STREAM_STATUS, its lowest field without a shift. -/
theorem StreamState.statusWord_eq (t : StreamState) :
    t.statusWord =
      (t.phase.code.setWidth 32 ||| t.bitcnt.setWidth 32 <<< 4
        ||| t.data.setWidth 32 <<< 8 ||| (BitVec.ofBool t.parErr).setWidth 32 <<< 16
        ||| t.prevPat.code.setWidth 32 <<< 20 ||| t.lastbits.setWidth 32 <<< 24) := by
  rw [← BitVec.shiftLeft_zero (t.phase.code.setWidth 32)]; rfl

end Sys2Proof.Machine

section
open Sys2Proof Sys2Proof.Machine

/-- Settles O51: the TIMEOUTs are those of phases 1 to 3, the record that ends a frame is that of
phases 4 to 7, and the clock of phase 8 pushes nothing. -/
theorem recordsPerTick : Obligations.RecordsPerTick := by
  unfold Obligations.RecordsPerTick
  intro s m
  obtain ⟨timeouts, hfront, htimeout, htech⟩ := s.tickFront_pushesTimeouts m
  obtain ⟨ended, hback, hlength, hended⟩ := (s.tickFront m).tickBack_pushes
  refine ⟨timeouts, ended, ?_, htimeout, htech, hlength,
    fun r hr => Kind.frame_or_abandoned_of_ne_timeout (hended r hr)⟩
  calc (s.tick m).queue = (s.tickFront m).tickBack.queue := rfl
    _ = s.queue ++ timeouts ++ ended := by rw [hback, hfront]

/-- Settles O17: the offset decodes to RD_TSTAT where x names a technology and k a word, and RD_TSTAT
answers `Timing.word`. -/
theorem timingReads : Obligations.TimingReads := by
  unfold Obligations.TimingReads
  refine ⟨fun x k hk d => ?mapped, fun x k d hout => ?unmapped, fun s x => ?words⟩
  case mapped => rw [decode_tstatOffset, decide_eq_true x.code_toNat_le, decide_eq_true hk]; rfl
  case unmapped =>
    have hrange : (decide (x.toNat ≤ 2) && decide (k.toNat ≤ 6)) = false := by
      rcases hout with rfl | rfl
      · rfl
      · exact Bool.and_false _
    rw [decode_tstatOffset, hrange]; rfl
  case words =>
    dsimp only
    rw [← BitVec.shiftLeft_zero ((s.tim.get x).lastCmd.setWidth 32)]
    exact ⟨exec_rdTstat_code rfl, exec_rdTstat_code rfl, exec_rdTstat_code rfl,
      exec_rdTstat_code rfl, exec_rdTstat_code rfl, exec_rdTstat_code rfl, exec_rdTstat_code rfl⟩

/-- Settles O18: RD_ASM answers `State.asmWord`; `rowField` is the row's code, or 0xF without a
frame. -/
theorem streamAndFrameReads : Obligations.StreamAndFrameReads := by
  unfold Obligations.StreamAndFrameReads
  refine ⟨readsAs_rdAsm, fun s cand ⟨hrow, hnone⟩ => ?frame, fun s => ?words⟩
  case frame =>
    have hfield : rowField s.fs.cand = cand := by
      cases hcand : s.fs.cand with
      | none => rw [rowField_none, hnone hcand]
      | some c => rw [rowField_some, hrow c hcand]
    rw [← hfield, ← FrameState.statusWord_eq]
    rfl
  case words =>
    rw [← StreamState.statusWord_eq, ← BitVec.shiftLeft_zero (s.st.bytes.setWidth 32)]
    exact ⟨exec_rdAsm s 1#3, exec_rdAsm s 2#3, exec_rdAsm s 3#3, exec_rdAsm s 4#3,
      exec_rdAsm s 5#3, exec_rdAsm s 6#3, exec_rdAsm s 7#3⟩

/-- Settles O49: a decoder answer per case of delivery, an outcome of the flush per case of the end,
and a direction per case of completion and abandonment. -/
theorem frameEnds : Obligations.FrameEnds := by
  unfold Obligations.FrameEnds
  refine ⟨fun _ _ => rfl, fun s eof c sym rest hcand => ?delivery,
    fun s eof => ⟨State.correlatorEof_pending, State.correlatorEof_idle⟩,
    fun s t c hcand => ?ended, fun s => ?completed, fun s t => ?abandoned⟩
  case delivery =>
    intro a s1 s2
    have hrow : s1.clearFrameRow = s2 := State.clearFrameRow_of_frame hcand
    rw [← hrow]
    have hone {answer : Answer} (h : a.2 = answer) : s.deliverOne c sym = (s1, answer) :=
      congrArg (Prod.mk s1) h
    exact ⟨fun h => State.deliver_cont hcand (hone h),
      fun h => State.deliver_complete hcand (hone h),
      fun h => State.deliver_abandon hcand (hone h)⟩
  case ended =>
    refine ⟨State.endFrame_abandon hcand t, fun h hbytes => ?_, fun h hbytes => ?_⟩
    · exact (State.endFrame_not_abandon hcand t h).trans (if_pos hbytes)
    · refine (State.endFrame_not_abandon hcand t h).trans (if_neg ?_)
      exact fun hle => absurd (congrArg BitVec.toNat hbytes) (Nat.ne_of_gt hle)
  case completed =>
    dsimp only
    cases hdir : s.fs.dir with
    | poll => rw [State.complete_poll hdir, ← Timing.pollDone_eq, State.frameRecord, hdir]; rfl
    | listen => rw [State.complete_listen hdir, State.frameRecord, hdir]; rfl
  case abandoned =>
    dsimp only
    cases hdir : s.fs.dir with
    | poll => rw [State.abandon_poll hdir, State.abandonedRecord, hdir, PerTech.set_get]; rfl
    | listen => rw [State.abandon_listen hdir, State.abandonedRecord, hdir]; rfl

/-- Settles O50: the condition is `State.timedOut`, and a timeout pushes its record before it clears
EXPECT. -/
theorem timeoutCheck : Obligations.TimeoutCheck := by
  unfold Obligations.TimeoutCheck
  intro s x
  dsimp only
  rw [← State.timedOut_iff]
  exact ⟨State.timeoutCheck_of_timedOut, State.timeoutCheck_of_not_timedOut⟩

end

/-! PROOFS. The family of 45_host_interface.md: the offsets of the host's registers, the fields of STATUS
and IRQ_STATUS, what each read answers, and what the writes and the commands change. -/

namespace Sys2Proof.Machine

/-! ## The offsets of the registers (30_encoding.md R135 to R150)

DATA does not choose the register, so each offset is decided on DATA 0. -/

section Offsets

theorem readsAs_of_decodeFields {off : BitVec 12} {i : Instr}
    (h : decodeFields false off 0#32 = .ok i) (hdata : ∀ d : Word, i.withData d = i) :
    ReadsAs off i := by
  intro d
  rw [decode_mkTxn, ← decodeFields_withData _ _ 0#32, h, Decoded.withData, hdata]

theorem writesAs_of_decodeFields {off : BitVec 12} {f : Word → Instr}
    (h : decodeFields true off 0#32 = .ok (f 0#32))
    (hdata : ∀ d : Word, (f 0#32).withData d = f d) : WritesAs off f := by
  intro d
  rw [decode_mkTxn, ← decodeFields_withData _ _ 0#32, h, Decoded.withData, hdata]

theorem readsAs_rdId : ReadsAs 0x000#12 .rdId := readsAs_of_decodeFields rfl fun _ => rfl

theorem readsAs_rdVersion : ReadsAs 0x004#12 .rdVersion := readsAs_of_decodeFields rfl fun _ => rfl

theorem readsAs_rdStatus : ReadsAs 0x00C#12 .rdStatus := readsAs_of_decodeFields rfl fun _ => rfl

theorem readsAs_rdErr : ReadsAs 0x010#12 .rdErr := readsAs_of_decodeFields rfl fun _ => rfl

theorem readsAs_rdIrqEn : ReadsAs 0x014#12 .rdIrqEn := readsAs_of_decodeFields rfl fun _ => rfl

theorem readsAs_rdIrqStatus : ReadsAs 0x018#12 .rdIrqStatus :=
  readsAs_of_decodeFields rfl fun _ => rfl

theorem readsAs_rdClock (k : BitVec 1) : ReadsAs (wordAt 0x030#12 k) (.rdClock k) := by
  have hoff : ∀ k : BitVec 1, decodeFields false (wordAt 0x030#12 k) 0#32 = .ok (.rdClock k) := by
    decide
  exact readsAs_of_decodeFields (hoff k) fun _ => rfl

theorem readsAs_rdCfg {k : BitVec 4} (hk : k.toNat ≤ 12) :
    ReadsAs (wordAt 0x040#12 k) (.rdCfg k) := by
  have hoff : ∀ k : BitVec 4, k.toNat ≤ 12 →
      decodeFields false (wordAt 0x040#12 k) 0#32 = .ok (.rdCfg k) := by decide
  exact readsAs_of_decodeFields (hoff k hk) fun _ => rfl

theorem writesAs_wrCfg {k : BitVec 4} (hk : k.toNat ≤ 12) :
    WritesAs (wordAt 0x040#12 k) (.wrCfg k) := by
  have hoff : ∀ k : BitVec 4, k.toNat ≤ 12 →
      decodeFields true (wordAt 0x040#12 k) 0#32 = .ok (.wrCfg k 0#32) := by decide
  exact writesAs_of_decodeFields (hoff k hk) fun _ => rfl

theorem readsAs_rdTcfg (x : Tech) {k : BitVec 3} (hk : k.toNat ≤ 4) :
    ReadsAs (wordAt (0x100#12 + 0x20#12 * x.code.setWidth 12) k) (.rdTcfg x.code k) := by
  have hoff : ∀ (y : BitVec 2) (k : BitVec 3), y.toNat ≤ 2 → k.toNat ≤ 4 →
      decodeFields false (wordAt (0x100#12 + 0x20#12 * y.setWidth 12) k) 0#32 =
        .ok (.rdTcfg y k) := by decide
  exact readsAs_of_decodeFields (hoff x.code k x.code_toNat_le hk) fun _ => rfl

theorem writesAs_wrTcfg (x : Tech) {k : BitVec 3} (hk : k.toNat ≤ 4) :
    WritesAs (wordAt (0x100#12 + 0x20#12 * x.code.setWidth 12) k) (.wrTcfg x.code k) := by
  have hoff : ∀ (y : BitVec 2) (k : BitVec 3), y.toNat ≤ 2 → k.toNat ≤ 4 →
      decodeFields true (wordAt (0x100#12 + 0x20#12 * y.setWidth 12) k) 0#32 =
        .ok (.wrTcfg y k 0#32) := by decide
  exact writesAs_of_decodeFields (hoff x.code k x.code_toNat_le hk) fun _ => rfl

theorem readsAs_rdParam (k : BitVec 2) : ReadsAs (wordAt 0x0E0#12 k) (.rdParam k) := by
  have hoff : ∀ k : BitVec 2, decodeFields false (wordAt 0x0E0#12 k) 0#32 = .ok (.rdParam k) := by
    decide
  exact readsAs_of_decodeFields (hoff k) fun _ => rfl

theorem readsAs_rdDbg {k : BitVec 4} (hk : k.toNat ≤ 8) :
    ReadsAs (wordAt 0x080#12 k) (.rdDbg k) := by
  have hoff : ∀ k : BitVec 4, k.toNat ≤ 8 →
      decodeFields false (wordAt 0x080#12 k) 0#32 = .ok (.rdDbg k) := by decide
  exact readsAs_of_decodeFields (hoff k hk) fun _ => rfl

theorem readsAs_rdHistChan : ReadsAs 0x0C0#12 .rdHistChan :=
  readsAs_of_decodeFields rfl fun _ => rfl

theorem readsAs_rdHistIndex : ReadsAs 0x0C4#12 .rdHistIndex :=
  readsAs_of_decodeFields rfl fun _ => rfl

theorem readsAs_rdHistData : ReadsAs 0x0C8#12 .rdHistData :=
  readsAs_of_decodeFields rfl fun _ => rfl

theorem readsAs_rdOut {k : BitVec 4} (hk : k.toNat ≤ 8) :
    ReadsAs (wordAt 0x900#12 k) (.rdOut k) := by
  have hoff : ∀ k : BitVec 4, k.toNat ≤ 8 →
      decodeFields false (wordAt 0x900#12 k) 0#32 = .ok (.rdOut k) := by decide
  exact readsAs_of_decodeFields (hoff k hk) fun _ => rfl

theorem readsAs_rdOutData : ReadsAs 0x940#12 .rdOutData := readsAs_of_decodeFields rfl fun _ => rfl

theorem writesAs_wrErr : WritesAs 0x010#12 .wrErr := writesAs_of_decodeFields rfl fun _ => rfl

theorem writesAs_wrIrqEn : WritesAs 0x014#12 .wrIrqEn := writesAs_of_decodeFields rfl fun _ => rfl

theorem writesAs_wrHistChan : WritesAs 0x0C0#12 .wrHistChan :=
  writesAs_of_decodeFields rfl fun _ => rfl

theorem writesAs_wrHistIndex : WritesAs 0x0C4#12 .wrHistIndex :=
  writesAs_of_decodeFields rfl fun _ => rfl

/-- A write of CMD is the command that DATA names (R143). -/
theorem decode_cmd (d : Word) : decode (mkTxn true 0x008#12 d) = .ok (decodeCmd d) :=
  (decode_mkTxn true 0x008#12 d).trans rfl

end Offsets

/-! ## Fields of a register word -/

section Fields

variable {n : Nat}

@[simp] theorem field_zero (v : BitVec n) : field v 0 = v.setWidth 32 := BitVec.shiftLeft_zero _

theorem getLsbD_field (v : BitVec n) (pos : Nat) {i : Nat} (hi : i < 32) :
    (field v pos).getLsbD i = (decide (pos ≤ i) && v.getLsbD (i - pos)) := by
  have hsub : i - pos < 32 := by omega
  rw [field, BitVec.getLsbD_shiftLeft, BitVec.getLsbD_setWidth, decide_eq_true hi,
    decide_eq_true hsub, Bool.true_and, Bool.true_and, ← decide_not, decide_eq_decide.mpr Nat.not_lt]

theorem getLsbD_flagBit (b : Bool) (pos : Nat) {i : Nat} (hi : i < 32) :
    (flagBit b pos).getLsbD i = (decide (i = pos) && b) := by
  have hplace : (pos ≤ i ∧ i - pos = 0) ↔ i = pos := by omega
  rw [flagBit, getLsbD_field _ _ hi, BitVec.getLsbD_ofBool, ← Bool.and_assoc, ← Bool.decide_and,
    decide_eq_decide.mpr hplace]

/-- A field reads back at its own place. -/
theorem extractLsb'_field_same (v : BitVec n) {pos : Nat} (h : pos + n ≤ 32) :
    (field v pos).extractLsb' pos n = v := by
  apply BitVec.eq_of_getLsbD_eq
  intro i hi
  rw [BitVec.getLsbD_extractLsb', getLsbD_field v pos (by omega)]
  simp [hi]

/-- A field shows nothing at a place that it does not meet. -/
theorem extractLsb'_field_disjoint (v : BitVec n) {pos start len : Nat}
    (h : pos + n ≤ start ∨ start + len ≤ pos) (hlen : start + len ≤ 32) :
    (field v pos).extractLsb' start len = 0#len := by
  apply BitVec.eq_of_getLsbD_eq
  intro i hi
  rw [BitVec.getLsbD_extractLsb', getLsbD_field v pos (by omega), BitVec.getLsbD_zero]
  rcases h with habove | hbelow
  · rw [BitVec.getLsbD_of_ge v _ (by omega), Bool.and_false, Bool.and_false]
  · rw [decide_eq_false (by omega : ¬pos ≤ start + i), Bool.false_and, Bool.and_false]

theorem extractLsb'_flagBit_disjoint (b : Bool) {pos start len : Nat}
    (h : pos + 1 ≤ start ∨ start + len ≤ pos) (hlen : start + len ≤ 32) :
    (flagBit b pos).extractLsb' start len = 0#len :=
  extractLsb'_field_disjoint _ h hlen

end Fields

/-! ## STATUS (R453, 30_encoding.md R136) -/

section Status

variable {s : State}

theorem State.isLocked_iff {c : Row} : s.isLocked c = true ↔ (s.ss.get c).stage = .locked :=
  decide_eq_true_iff

theorem State.lockedRow_isSome_iff :
    s.lockedRow.isSome = true ↔ ∃ c : Row, (s.ss.get c).stage = .locked := by
  simp [State.lockedRow, State.isLocked_iff]

theorem State.lockedRow_eq_none (h : ∀ c : Row, (s.ss.get c).stage ≠ .locked) :
    s.lockedRow = none :=
  List.find?_eq_none.mpr fun c _ hc => h c (State.isLocked_iff.mp hc)

/-- The row that is LOCKED alone is found wherever it stands in the order of the rows. -/
theorem State.lockedRow_eq_some {c : Row} (hc : (s.ss.get c).stage = .locked)
    (honly : ∀ d : Row, (s.ss.get d).stage = .locked → d = c) : s.lockedRow = some c := by
  obtain ⟨d, hd⟩ := Option.isSome_iff_exists.mp (State.lockedRow_isSome_iff.mpr ⟨c, hc⟩)
  rw [hd, honly d (State.isLocked_iff.mp (List.find?_some (p := s.isLocked) hd))]

/-- The bits of STATUS below the LOCKED_CAND field, each of a flag of its own; bit 7 is reserved. -/
theorem State.statusWord_flags (s : State) :
    s.statusWord.getLsbD 0 = s.run ∧ s.statusWord.getLsbD 1 = s.configured
      ∧ s.statusWord.getLsbD 2 = s.ready ∧ s.statusWord.getLsbD 3 = s.outValid
      ∧ s.statusWord.getLsbD 4 = s.lockedRow.isSome
      ∧ s.statusWord.getLsbD 5 = s.fs.asmStage.code.getLsbD 0
      ∧ s.statusWord.getLsbD 6 = s.iValid ∧ s.statusWord.getLsbD 7 = false := by
  simp [State.statusWord, getLsbD_flagBit, getLsbD_field, -BitVec.getLsbD_eq_getElem]

theorem State.statusWord_lockedCand (s : State) :
    s.statusWord.extractLsb' 8 4 = rowField s.lockedRow := by
  simp [State.statusWord, BitVec.extractLsb'_or, extractLsb'_flagBit_disjoint,
    extractLsb'_field_disjoint, extractLsb'_field_same]

theorem State.statusWord_qcount (s : State) :
    s.statusWord.extractLsb' 16 8 = BitVec.ofNat 8 s.queue.length := by
  simp [State.statusWord, BitVec.extractLsb'_or, extractLsb'_flagBit_disjoint,
    extractLsb'_field_disjoint, extractLsb'_field_same]

/-- Bits 15:12 and 31:24 are reserved. -/
theorem State.statusWord_reserved (s : State) :
    s.statusWord.extractLsb' 12 4 = 0#4 ∧ s.statusWord.extractLsb' 24 8 = 0#8 := by
  simp [State.statusWord, BitVec.extractLsb'_or, extractLsb'_flagBit_disjoint,
    extractLsb'_field_disjoint]

theorem AsmStage.code_getLsbD_zero (g : AsmStage) :
    g.code.getLsbD 0 = true ↔ g = .accumulating := by
  cases g <;> decide

end Status

/-! ## IRQ_STATUS and the interrupt output (R458, 60_exceptions.md R533) -/

theorem State.irq_iff (s : State) :
    s.irq = true ↔
      (0 < s.queue.length ∧ s.irqEn.getLsbD 0 = true)
        ∨ (s.err ≠ 0#8 ∧ s.irqEn.getLsbD 1 = true) := by
  simp [State.irq, State.qirq, State.eirq, State.outValid]

theorem State.irqStatusWord_flags (s : State) :
    s.irqStatusWord.getLsbD 0 = s.qirq ∧ s.irqStatusWord.getLsbD 1 = s.eirq
      ∧ s.irqStatusWord.getLsbD 2 = s.irq := by
  simp [State.irqStatusWord, getLsbD_flagBit, -BitVec.getLsbD_eq_getElem]

theorem State.irqStatusWord_reserved (s : State) :
    s.irqStatusWord.extractLsb' 3 29 = 0#29 := by
  simp [State.irqStatusWord, BitVec.extractLsb'_or, extractLsb'_flagBit_disjoint]

theorem State.eirq_eq (s : State) : s.eirq = (decide (s.err ≠ 0#8) && s.irqEn.getLsbD 1) := by
  rw [State.eirq, bne, beq_eq_decide, ← decide_not]

/-! ## Reads of the blocks (R460, R462, R464, R481) -/

section Reads

variable {s : State} {v : Word}

theorem exec_rdCfg {k : BitVec 4} (h : s.cfg.read k = some v) :
    exec (.rdCfg k) s = .next { s with response := some v } := by
  show execRdCfg k s = _
  rw [execRdCfg, h]
  rfl

theorem exec_rdTcfg_code {x : Tech} {k : BitVec 3} (h : (s.tcfg.get x).read k = some v) :
    exec (.rdTcfg x.code k) s = .next { s with response := some v } := by
  show execRdTcfg x.code k s = _
  rw [execRdTcfg, Tech.ofCode_code, Option.bind_some, h]
  rfl

theorem exec_rdParam (s : State) (k : BitVec 2) :
    exec (.rdParam k) s = .next { s with response := some (paramWord s.params k) } := rfl

theorem exec_rdDbg {k : BitVec 4} (h : s.dbgWord k = some v) :
    exec (.rdDbg k) s = .next { s with response := some v } := by
  show execRdDbg k s = _
  rw [execRdDbg, h]
  rfl

end Reads

/-! ## The history port (R484) -/

/-- HIST_INDEX masked by HIST_SIZE - 1 is its remainder: HIST_SIZE is a power of two, at most 2^20. -/
theorem histIndex_mask (p : Params) (i : Word) :
    (i &&& BitVec.ofNat 32 (p.histSize - 1)).toNat = i.toNat % p.histSize := by
  have hsize : p.histSize ≤ 2 ^ 20 := Nat.pow_le_pow_right (by decide) (by omega)
  rw [BitVec.toNat_and, BitVec.toNat_ofNat, Nat.mod_eq_of_lt (by omega), Params.histSize,
    Nat.and_two_pow_sub_one_eq_mod]

theorem State.histWord_eq (s : State) :
    s.histWord =
      Memory.read (s.hist.channel s.histChan) (s.histIndex.toNat % s.params.histSize) := by
  rw [State.histWord, histIndex_mask]

/-! ## The output port (R500, R501) -/

section OutputPort

variable {s : State} {r : Record} {rest : List Record}

/-- ERR.OUT is bit 6 (30_encoding.md R137). -/
theorem State.outEmpty_eq (s : State) :
    s.outEmpty = { s with err := s.err ||| 0x40#8, response := some 0x00000000#32 } := rfl

theorem exec_rdOut_empty {k : BitVec 4} (hk : k.toNat ≤ 8) (hq : s.queue = []) :
    exec (.rdOut k) s = .next s.outEmpty := by
  show execRdOut k s = _
  rw [execRdOut, if_neg (Nat.not_lt.mpr hk), hq]

theorem exec_rdOut_head {k : BitVec 4} (hk : k.toNat ≤ 8) (hq : s.queue = r :: rest) :
    exec (.rdOut k) s = .next (s.completeRead (r.word s.rptr k)) := by
  show execRdOut k s = _
  rw [execRdOut, if_neg (Nat.not_lt.mpr hk), hq]

theorem rowField_eq {c : Option Row} {code : BitVec 4}
    (hrow : ∀ d : Row, c = some d → code = d.code) (hnone : c = none → code = 0xF#4) :
    rowField c = code := by
  cases c with
  | none => exact (hnone rfl).symm
  | some d => exact (hrow d rfl).symm

/-- OUT_STATUS, its lowest field without a shift. -/
theorem Record.statusWord_eq (r : Record) :
    r.statusWord =
      (r.kind.code.setWidth 32 ||| r.tech.code.setWidth 32 <<< 2
        ||| r.dir.code.setWidth 32 <<< 4 ||| (rowField r.cand).setWidth 32 <<< 8
        ||| (BitVec.ofBool r.parErr).setWidth 32 <<< 12
        ||| (BitVec.ofBool r.crcErr).setWidth 32 <<< 13
        ||| r.lastbits.setWidth 32 <<< 16) := by
  rw [← BitVec.shiftLeft_zero (r.kind.code.setWidth 32)]; rfl

theorem exec_rdOutData_empty (hq : s.queue = []) : exec .rdOutData s = .next s.outEmpty := by
  show execRdOutData s = _
  rw [execRdOutData, hq]

theorem exec_rdOutData_past (hq : s.queue = r :: rest) (h : r.bytes.length ≤ s.rptr.toNat) :
    exec .rdOutData s = .next s.outEmpty := by
  show execRdOutData s = _
  rw [execRdOutData, hq]
  dsimp only
  rw [List.getElem?_eq_none h]

theorem exec_rdOutData_byte (hq : s.queue = r :: rest) (h : s.rptr.toNat < r.bytes.length) :
    exec .rdOutData s =
      .next { s with
        rptr := s.rptr + 1#16
        response := some ((r.bytes[s.rptr.toNat]'h).setWidth 32) } := by
  show execRdOutData s = _
  rw [execRdOutData, hq]
  dsimp only
  rw [List.getElem?_eq_getElem h]
  dsimp only
  rw [field_zero]
  rfl

end OutputPort

/-! ## Writes of the configuration (R461, R463)

A refused write is `(s.raise e).quiet`: ERR with the mask of `e` set, and nothing returned. -/

section ConfigurationWrites

variable {s : State}

theorem CondCfg.write_isSome (g : CondCfg) {k : BitVec 4} (hk : k.toNat ≤ 12) (d : Word) :
    (g.write k d).isSome = true := by
  fun_cases CondCfg.write g k d
  case case14 => simp only [imp_false] at *; omega
  all_goals rfl

theorem TechCfg.write_isSome (g : TechCfg) {k : BitVec 3} (hk : k.toNat ≤ 4) (d : Word) :
    (g.write k d).isSome = true := by
  fun_cases TechCfg.write g k d
  case case6 => simp only [imp_false] at *; omega
  all_goals rfl

/-- A write through a technology's own selector sets that technology's element. -/
theorem writeTcfg_code {g : PerTech TechCfg} {x : Tech} {k : BitVec 3} {d : Word} {z : TechCfg}
    (h : (g.get x).write k d = some z) : writeTcfg g x.code k d = some (g.set x z) := by
  rw [writeTcfg, Tech.ofCode_code, Option.bind_some, h, Option.map_some]

theorem exec_wrCfg_running {k : BitVec 4} (hk : k.toNat ≤ 12) (d : Word) (hrun : s.run = true) :
    exec (.wrCfg k d) s = .next (s.raise .cfgLocked).quiet := by
  obtain ⟨g, hg⟩ := Option.isSome_iff_exists.mp (s.cfg.write_isSome hk d)
  show execWrCfg k d s = _
  rw [execWrCfg, hg]
  exact if_pos hrun

theorem exec_wrCfg_stopped {k : BitVec 4} {d : Word} {g : CondCfg} (hrun : s.run = false)
    (h : s.cfg.write k d = some g) :
    exec (.wrCfg k d) s = .next { s with cfg := g, configured := false, response := none } := by
  show execWrCfg k d s = _
  rw [execWrCfg, h]
  exact if_neg (Bool.not_eq_true _ ▸ hrun)

theorem exec_wrTcfg_running (x : Tech) {k : BitVec 3} (hk : k.toNat ≤ 4) (d : Word)
    (hrun : s.run = true) : exec (.wrTcfg x.code k d) s = .next (s.raise .cfgLocked).quiet := by
  obtain ⟨z, hz⟩ := Option.isSome_iff_exists.mp ((s.tcfg.get x).write_isSome hk d)
  show execWrTcfg x.code k d s = _
  rw [execWrTcfg, writeTcfg_code hz]
  exact if_pos hrun

theorem exec_wrTcfg_stopped {x : Tech} {k : BitVec 3} {d : Word} {z : TechCfg}
    (hrun : s.run = false) (h : (s.tcfg.get x).write k d = some z) :
    exec (.wrTcfg x.code k d) s =
      .next { s with tcfg := s.tcfg.set x z, configured := false, response := none } := by
  show execWrTcfg x.code k d s = _
  rw [execWrTcfg, writeTcfg_code h]
  exact if_neg (Bool.not_eq_true _ ▸ hrun)

end ConfigurationWrites

/-! ## Commands (R470 to R477) -/

section Commands

variable {s : State}

theorem decodeCmd_reserved {d : Word} (h : d ∉ [1#32, 2#32, 3#32, 4#32, 5#32, 6#32, 7#32]) :
    decodeCmd d = .cmdReserved d := by
  simp only [List.mem_cons, List.not_mem_nil, or_false, not_or] at h
  simp [decodeCmd, h]

theorem exec_cmdStart_unconfigured (h : s.configured = false) :
    exec .cmdStart s = .next (s.raise .cmd).quiet :=
  if_pos (by rw [h]; rfl)

theorem exec_cmdStart_configured (h : s.configured = true) :
    exec .cmdStart s = .next { s with run := true, response := none } :=
  if_neg (by rw [h]; decide)

theorem exec_cmdResetCapture_running (h : s.run = true) :
    exec .cmdResetCapture s = .next (s.raise .cmd).quiet := if_pos h

theorem exec_cmdResetCapture_stopped (h : s.run = false) :
    exec .cmdResetCapture s = .next s.captureReset.quiet := if_neg (Bool.not_eq_true _ ▸ h)

theorem exec_cmdOutPop_empty (hq : s.queue = []) :
    exec .cmdOutPop s = .next (s.raise .out).quiet := by
  show execCmdOutPop s = _
  rw [execCmdOutPop, hq]

theorem exec_cmdOutPop_head {r : Record} {rest : List Record} (hq : s.queue = r :: rest) :
    exec .cmdOutPop s = .next { s with queue := rest, rptr := 0#16, response := none } := by
  show execCmdOutPop s = _
  rw [execCmdOutPop, hq]
  rfl

@[simp] theorem Histories.channel_reset (chan : BitVec 2) : Histories.reset.channel chan = [] := by
  unfold Histories.channel
  split_ifs <;> rfl

/-- `capture_reset()` leaves every element of the capture at its reset value
(70_reset_and_hazards.md R581). -/
theorem State.captureReset_captureClear (s : State) : s.captureReset.CaptureClear := by
  refine ⟨rfl, fun chan a => ?_, fun c => ?_, rfl, rfl, fun x => ?_, rfl, rfl, rfl, rfl⟩
  · rw [State.captureReset_hist, Histories.channel_reset, Memory.read_nil]
  · rw [State.captureReset_ss, PerRow.get_build]; rfl
  · rw [State.captureReset_tim, PerTech.get_build]; rfl

end Commands

/-! ## The checks of CMD_CONFIGURE (R476) -/

section ConfigureChecks

theorem inUnit_iff {v : F32} :
    inUnit v = true ↔ f32ge v 0x00000000#32 = true ∧ f32ge 0x3F800000#32 v = true :=
  Bool.and_eq_true_iff

theorem finiteNonneg_iff {v : F32} :
    finiteNonneg v = true ↔ isfinite v = true ∧ f32ge v 0x00000000#32 = true :=
  Bool.and_eq_true_iff

theorem frameSizesLegal_iff {p : Params} {g : PerTech TechCfg} :
    frameSizesLegal p g = true ↔
      ∀ x : Tech, 1 ≤ (g.get x).maxFrameSize.toNat ∧ (g.get x).maxFrameSize.toNat ≤ p.bufCap := by
  simp [frameSizesLegal]

theorem State.configLegal_iff (s : State) :
    configLegal s.params s.cfg s.tcfg = true ↔ s.LegalConfig := by
  simp only [configLegal, State.LegalConfig, Bool.and_eq_true, inUnit_iff, finiteNonneg_iff,
    frameSizesLegal_iff, decide_eq_true_iff, List.forall_mem_cons, List.not_mem_nil,
    IsEmpty.forall_iff, implies_true, and_true, and_assoc]

theorem someActive_bankOf_iff {p : Params} {g : CondCfg} :
    someActive (bankOf p g) = true ↔ ∃ c : Row, (bankRow p g c).active = true := by
  simp [someActive, bankOf]

variable {s : State}

theorem exec_cmdConfigure_running (h : s.run = true) :
    exec .cmdConfigure s = .next (s.raise .cmd).quiet := if_pos h

theorem exec_cmdConfigure_refused (hrun : s.run = false)
    (h : ¬(s.LegalConfig ∧ ∃ c : Row, (bankRow s.params s.cfg c).active = true)) :
    exec .cmdConfigure s = .next (s.raise .config).quiet := by
  rw [← s.configLegal_iff, ← someActive_bankOf_iff, ← Bool.and_eq_true_iff, Bool.not_eq_true] at h
  show execCmdConfigure s = _
  simp [execCmdConfigure, hrun, h]

theorem exec_cmdConfigure_accepted (h : s.Configures) :
    exec .cmdConfigure s =
      .next (State.captureReset
        { s with bank := bankOf s.params s.cfg, configured := true }).quiet := by
  obtain ⟨hrun, hlegal, hactive⟩ := h
  rw [← s.configLegal_iff] at hlegal
  rw [← someActive_bankOf_iff] at hactive
  show execCmdConfigure s = _
  simp [execCmdConfigure, hrun, hlegal, hactive]

end ConfigureChecks

end Sys2Proof.Machine

section
open Sys2Proof Sys2Proof.Machine

/-- Settles O11: each field of STATUS is read back from the word at its own place, where no other field
stands; LOCKED_CAND is the code of `State.lockedRow`. -/
theorem statusRead : Obligations.StatusRead := by
  unfold Obligations.StatusRead
  refine ⟨readsAs_rdStatus, fun s => ⟨s.statusWord, rfl, ?_⟩⟩
  obtain ⟨hrun, hconf, hready, hvalid, hlocked, hasm, hlatch, hreserved⟩ := s.statusWord_flags
  obtain ⟨hlow, hhigh⟩ := s.statusWord_reserved
  refine ⟨hrun, hconf, hready, hvalid, ?locked, ?accumulating, hlatch, hreserved, ?lockedCand,
    ?noCand, hlow, s.statusWord_qcount, hhigh⟩
  case locked => rw [hlocked, State.lockedRow_isSome_iff]
  case accumulating => rw [hasm, AsmStage.code_getLsbD_zero]
  case lockedCand =>
    intro c hc honly
    rw [s.statusWord_lockedCand, State.lockedRow_eq_some hc honly, rowField_some]
  case noCand =>
    intro hnone
    rw [s.statusWord_lockedCand, State.lockedRow_eq_none hnone, rowField_none]

/-- Settles O26: the two checks of the model are LegalConfig and an active row, and `capture_reset()`
keeps the configuration and the new bank. -/
theorem configure : Obligations.Configure := by
  unfold Obligations.Configure
  refine ⟨decode_cmd 2#32, fun _ => exec_cmdConfigure_running, fun _ => exec_cmdConfigure_refused,
    fun s hrun hlegal hactive => ?_⟩
  exact ⟨_, exec_cmdConfigure_accepted ⟨hrun, hlegal, hactive⟩,
    State.captureReset_captureClear { s with bank := bankOf s.params s.cfg, configured := true },
    PerRow.get_build _, rfl, hrun, rfl, rfl, rfl, rfl, rfl, rfl, rfl, rfl, rfl⟩

/-- Settles O10: none of the three reads has a branch but the half of CLOCK. -/
theorem idVersionClockReads : Obligations.IdVersionClockReads := by
  unfold Obligations.IdVersionClockReads
  exact ⟨⟨readsAs_rdId, readsAs_rdVersion, readsAs_rdClock⟩, fun _ => ⟨rfl, rfl, rfl, rfl⟩⟩

/-- Settles O12: the registers stand at bit 0 of their words, and IRQ_STATUS shows the interrupt output
and its two causes. -/
theorem errAndInterruptReads : Obligations.ErrAndInterruptReads := by
  unfold Obligations.ErrAndInterruptReads
  refine ⟨⟨readsAs_rdErr, readsAs_rdIrqEn, readsAs_rdIrqStatus⟩, fun s => ?_⟩
  obtain ⟨hq, he, hirq⟩ := s.irqStatusWord_flags
  rw [← field_zero s.err, ← field_zero s.irqEn]
  exact ⟨rfl, rfl, s.irq_iff, s.irqStatusWord, rfl, hq, he.trans s.eirq_eq, hirq,
    s.irqStatusWord_reserved⟩

/-- Settles O13: each element is the word that the block's read function gives at its selector. -/
theorem configurationReads : Obligations.ConfigurationReads := by
  unfold Obligations.ConfigurationReads
  refine ⟨⟨fun k => readsAs_rdCfg, fun x k => readsAs_rdTcfg x, readsAs_rdParam⟩,
    fun s => ?cfg, fun s x => ?tcfg, fun s => ?param⟩
  case cfg =>
    rw [← field_zero s.cfg.candEnable]
    exact ⟨exec_rdCfg rfl, exec_rdCfg rfl, exec_rdCfg rfl, exec_rdCfg rfl, exec_rdCfg rfl,
      exec_rdCfg rfl, exec_rdCfg rfl, exec_rdCfg rfl, exec_rdCfg rfl, exec_rdCfg rfl,
      exec_rdCfg rfl, exec_rdCfg rfl, exec_rdCfg rfl⟩
  case tcfg =>
    exact ⟨exec_rdTcfg_code rfl, exec_rdTcfg_code rfl, exec_rdTcfg_code rfl, exec_rdTcfg_code rfl,
      exec_rdTcfg_code rfl⟩
  case param =>
    exact ⟨exec_rdParam s 0#2, exec_rdParam s 1#2, exec_rdParam s 2#2, exec_rdParam s 3#2⟩

/-- Settles O14: HIST_DATA reads the channel of HIST_CHAN at HIST_INDEX modulo HIST_SIZE
(`State.histWord_eq`). -/
theorem debugAndHistoryReads : Obligations.DebugAndHistoryReads := by
  unfold Obligations.DebugAndHistoryReads
  refine ⟨⟨fun k => readsAs_rdDbg, readsAs_rdHistChan, readsAs_rdHistIndex, readsAs_rdHistData⟩,
    fun s => ?_⟩
  have hchannel {chan : BitVec 2} (h : s.histChan = chan) :
      s.histWord = Memory.read (s.hist.channel chan) (s.histIndex.toNat % s.params.histSize) := by
    rw [← h, s.histWord_eq]
  rw [← field_zero s.histChan]
  exact ⟨exec_rdDbg rfl, exec_rdDbg rfl, exec_rdDbg rfl, exec_rdDbg rfl, exec_rdDbg rfl,
    exec_rdDbg rfl, exec_rdDbg rfl, exec_rdDbg rfl, exec_rdDbg rfl, rfl, rfl, s.histWord, rfl,
    fun h => hchannel h, fun h => hchannel h, fun h => hchannel h, fun h => hchannel h⟩

/-- Settles O19: the head record's word at each selector is `Record.word`; `rowField` is the row's code,
or 0xF in a record without a row. -/
theorem outputReads : Obligations.OutputReads := by
  unfold Obligations.OutputReads
  refine ⟨fun k => readsAs_rdOut, fun s k => exec_rdOut_empty,
    fun s r rest cand hq ⟨hrow, hnone⟩ => ?_⟩
  have hword {k : BitVec 4} {v : Word} (hk : k.toNat ≤ 8) (h : r.word s.rptr k = some v) :
      exec (.rdOut k) s = .next { s with response := some v } := by
    rw [exec_rdOut_head hk hq, h]; rfl
  rw [← rowField_eq hrow hnone, ← Record.statusWord_eq, ← field_zero (BitVec.ofNat 16 r.bytes.length),
    ← BitVec.shiftLeft_zero (r.cmd.setWidth 32), ← field_zero r.rate, ← field_zero s.rptr]
  exact ⟨hword (by decide) rfl, hword (by decide) rfl, hword (by decide) rfl,
    hword (by decide) rfl, hword (by decide) rfl, hword (by decide) rfl, hword (by decide) rfl,
    hword (by decide) rfl, hword (by decide) rfl⟩

/-- Settles O20: the queue and RPTR choose one of the three answers. -/
theorem outputDataRead : Obligations.OutputDataRead := by
  unfold Obligations.OutputDataRead
  exact ⟨readsAs_rdOutData, fun _ => exec_rdOutData_empty, fun _ _ _ => exec_rdOutData_past,
    fun _ _ _ hlt hq => exec_rdOutData_byte hq hlt⟩

/-- Settles O21: WR_ERR masks ERR by the complement of DATA, bit by bit. -/
theorem hostRegisterWrites : Obligations.HostRegisterWrites := by
  unfold Obligations.HostRegisterWrites
  refine ⟨⟨writesAs_wrErr, writesAs_wrIrqEn, writesAs_wrHistChan, writesAs_wrHistIndex⟩,
    fun s d => ⟨⟨s.err &&& ~~~(d.extractLsb' 0 8), rfl, fun j hj => ?_⟩, rfl, rfl, rfl⟩⟩
  simp [hj]

/-- Settles O22: a selector up to 12 names an element, so RUN alone decides; a stored write is
`CondCfg.write`. -/
theorem configurationWrite : Obligations.ConfigurationWrite := by
  unfold Obligations.ConfigurationWrite
  refine ⟨fun k => writesAs_wrCfg, fun s k d hk => exec_wrCfg_running hk d, fun s d hrun => ?_⟩
  exact ⟨exec_wrCfg_stopped hrun rfl, exec_wrCfg_stopped hrun rfl, exec_wrCfg_stopped hrun rfl,
    exec_wrCfg_stopped hrun rfl, exec_wrCfg_stopped hrun rfl, exec_wrCfg_stopped hrun rfl,
    exec_wrCfg_stopped hrun rfl, exec_wrCfg_stopped hrun rfl, exec_wrCfg_stopped hrun rfl,
    exec_wrCfg_stopped hrun rfl, exec_wrCfg_stopped hrun rfl, exec_wrCfg_stopped hrun rfl,
    exec_wrCfg_stopped hrun rfl⟩

/-- Settles O23: a selector up to 4 names an element of each technology, so RUN alone decides; a stored
write is `TechCfg.write`. -/
theorem protocolWrite : Obligations.ProtocolWrite := by
  unfold Obligations.ProtocolWrite
  refine ⟨fun x k => writesAs_wrTcfg x, fun s x k d hk => exec_wrTcfg_running x hk d,
    fun s x d hrun => ?_⟩
  exact ⟨exec_wrTcfg_stopped hrun rfl, exec_wrTcfg_stopped hrun rfl, exec_wrTcfg_stopped hrun rfl,
    exec_wrTcfg_stopped hrun rfl, exec_wrTcfg_stopped hrun rfl⟩

/-- Settles O24: CONFIGURED decides CMD_START, and the other three have no branch. -/
theorem simpleCommands : Obligations.SimpleCommands := by
  unfold Obligations.SimpleCommands
  refine ⟨fun d hd => ?reserved, decode_cmd 3#32, decode_cmd 4#32, decode_cmd 7#32,
    fun s d => ⟨rfl, exec_cmdStart_unconfigured, exec_cmdStart_configured, rfl, rfl⟩⟩
  rw [decode_cmd, decodeCmd_reserved hd]

/-- Settles O25: not running, CMD_RESET_CAPTURE is `State.captureReset`. -/
theorem captureReset : Obligations.CaptureReset := by
  unfold Obligations.CaptureReset
  refine ⟨decode_cmd 5#32, fun _ => exec_cmdResetCapture_running, fun s hrun => ?_⟩
  exact ⟨_, exec_cmdResetCapture_stopped hrun, s.captureReset_captureClear, hrun, rfl, rfl, rfl, rfl,
    rfl, rfl, rfl, rfl, rfl, rfl, rfl⟩

/-- Settles O27: the queue alone decides. -/
theorem outPop : Obligations.OutPop := by
  unfold Obligations.OutPop
  exact ⟨decode_cmd 6#32, fun _ => exec_cmdOutPop_empty, fun _ _ _ => exec_cmdOutPop_head⟩

end

/-! PROOFS. The encoding (30_encoding.md): the word of an instruction decodes to it, a decoded word is
that of its instruction, and the words written out in the spec. -/

namespace Sys2Proof
open Machine

/-! ## The offset of an instruction as an element of its block -/

section BlockOffsets

theorem off_rdClock (k : BitVec 1) : (Instr.rdClock k).off = wordAt 0x030#12 k := by
  revert k; decide

theorem off_cfg (k : BitVec 4) (d : Word) :
    (Instr.rdCfg k).off = wordAt 0x040#12 k ∧ (Instr.wrCfg k d).off = wordAt 0x040#12 k := by
  have hoff : ∀ k : BitVec 4, (Instr.rdCfg k).off = wordAt 0x040#12 k := by decide
  exact ⟨hoff k, hoff k⟩

theorem off_rdDbg (k : BitVec 4) : (Instr.rdDbg k).off = wordAt 0x080#12 k := by
  revert k; decide

theorem off_rdParam (k : BitVec 2) : (Instr.rdParam k).off = wordAt 0x0E0#12 k := by
  revert k; decide

theorem off_tcfg (x : BitVec 2) (k : BitVec 3) (d : Word) :
    (Instr.rdTcfg x k).off = wordAt (0x100#12 + 0x20#12 * x.setWidth 12) k
      ∧ (Instr.wrTcfg x k d).off = wordAt (0x100#12 + 0x20#12 * x.setWidth 12) k := by
  have hoff : ∀ (x : BitVec 2) (k : BitVec 3),
      (Instr.rdTcfg x k).off = wordAt (0x100#12 + 0x20#12 * x.setWidth 12) k := by decide
  exact ⟨hoff x k, hoff x k⟩

theorem off_rdTstat (x : BitVec 2) (k : BitVec 3) :
    (Instr.rdTstat x k).off = wordAt (0x180#12 + 0x20#12 * x.setWidth 12) k := by
  revert x k; decide

theorem off_rdCand (c : BitVec 4) (k : BitVec 3) :
    (Instr.rdCand c k).off = wordAt (0x200#12 + 0x20#12 * c.setWidth 12) k := by
  revert c k; decide

theorem off_rdSs (c k : BitVec 4) :
    (Instr.rdSs c k).off = wordAt (0x400#12 + 0x40#12 * c.setWidth 12) k := by
  revert c k; decide

theorem off_rdAsm (k : BitVec 3) : (Instr.rdAsm k).off = wordAt 0x800#12 k := by
  revert k; decide

theorem off_rdOut (k : BitVec 4) : (Instr.rdOut k).off = wordAt 0x900#12 k := by
  revert k; decide

end BlockOffsets

/-! ## Decoding an encoded instruction -/

theorem decode_encode_of_readsAs {i : Instr} {off : BitVec 12} (hoff : i.off = off)
    (h : ReadsAs off i) (hread : i.isWrite = false) : decode (encode i) = .ok i := by
  rw [encode, hoff, hread]
  exact h i.data

theorem decode_encode_of_writesAs {f : Word → Instr} {d : Word} {off : BitVec 12}
    (hoff : (f d).off = off) (h : WritesAs off f) (hwrite : (f d).isWrite = true)
    (hdata : (f d).data = d) : decode (encode (f d)) = .ok (f d) := by
  rw [encode, hoff, hwrite, hdata]
  exact h d

theorem writesAs_wrSampleQ : WritesAs 0x028#12 .wrSampleQ :=
  writesAs_of_decodeFields rfl fun _ => rfl

/-- A legal technology selector is the code of a technology. -/
theorem Machine.Tech.exists_code {x : BitVec 2} (h : x.toNat ≤ 2) : ∃ y : Tech, y.code = x := by
  have hx : x = 0#2 ∨ x = 1#2 ∨ x = 2#2 := by bv_omega
  rcases hx with rfl | rfl | rfl
  · exact ⟨.a, rfl⟩
  · exact ⟨.b, rfl⟩
  · exact ⟨.v, rfl⟩

/-- A reserved command code is none of the seven commands (30_encoding.md R143). -/
theorem decodeCmd_of_wellFormed {d : Word} (h : (Instr.cmdReserved d).wellFormed = true) :
    decodeCmd d = .cmdReserved d := by
  refine decodeCmd_reserved fun hmem => ?_
  simp only [List.mem_cons, List.not_mem_nil, or_false] at hmem
  rcases hmem with rfl | rfl | rfl | rfl | rfl | rfl | rfl <;> exact absurd h (by decide)

theorem decode_encode {i : Instr} (hi : i.wellFormed = true) : decode (encode i) = .ok i := by
  cases i with
  | rdId => exact readsAs_rdId _
  | rdVersion => exact readsAs_rdVersion _
  | cmdReset => exact decode_cmd 1#32
  | cmdConfigure => exact decode_cmd 2#32
  | cmdStart => exact decode_cmd 3#32
  | cmdStop => exact decode_cmd 4#32
  | cmdResetCapture => exact decode_cmd 5#32
  | cmdOutPop => exact decode_cmd 6#32
  | cmdOutRewind => exact decode_cmd 7#32
  | cmdReserved d => exact (decode_cmd d).trans (congrArg _ (decodeCmd_of_wellFormed hi))
  | rdStatus => exact readsAs_rdStatus _
  | rdErr => exact readsAs_rdErr _
  | wrErr d => exact writesAs_wrErr d
  | rdIrqEn => exact readsAs_rdIrqEn _
  | wrIrqEn d => exact writesAs_wrIrqEn d
  | rdIrqStatus => exact readsAs_rdIrqStatus _
  | wrSampleReal d => exact writesAs_wrSampleReal d
  | wrSampleI d => exact writesAs_wrSampleI d
  | wrSampleQ d => exact writesAs_wrSampleQ d
  | rdClock k => exact decode_encode_of_readsAs (off_rdClock k) (readsAs_rdClock k) rfl
  | rdCfg k =>
    exact decode_encode_of_readsAs (off_cfg k 0#32).1 (readsAs_rdCfg (of_decide_eq_true hi)) rfl
  | wrCfg k d =>
    exact decode_encode_of_writesAs (off_cfg k d).2 (writesAs_wrCfg (of_decide_eq_true hi)) rfl rfl
  | rdDbg k =>
    exact decode_encode_of_readsAs (off_rdDbg k) (readsAs_rdDbg (of_decide_eq_true hi)) rfl
  | rdHistChan => exact readsAs_rdHistChan _
  | wrHistChan d => exact writesAs_wrHistChan d
  | rdHistIndex => exact readsAs_rdHistIndex _
  | wrHistIndex d => exact writesAs_wrHistIndex d
  | rdHistData => exact readsAs_rdHistData _
  | rdParam k => exact decode_encode_of_readsAs (off_rdParam k) (readsAs_rdParam k) rfl
  | rdTcfg x k =>
    simp only [Instr.wellFormed, Bool.and_eq_true, decide_eq_true_iff] at hi
    obtain ⟨y, rfl⟩ := Tech.exists_code hi.1
    exact decode_encode_of_readsAs (off_tcfg _ k 0#32).1 (readsAs_rdTcfg y hi.2) rfl
  | wrTcfg x k d =>
    simp only [Instr.wellFormed, Bool.and_eq_true, decide_eq_true_iff] at hi
    obtain ⟨y, rfl⟩ := Tech.exists_code hi.1
    exact decode_encode_of_writesAs (off_tcfg _ k d).2 (writesAs_wrTcfg y hi.2) rfl rfl
  | rdTstat x k =>
    refine decode_encode_of_readsAs (off_rdTstat x k) (fun d => ?_) rfl
    rw [decode_tstatOffset, accessIf]
    exact if_pos hi
  | rdCand c k =>
    refine decode_encode_of_readsAs (off_rdCand c k) (fun d => ?_) rfl
    rw [decode_candOffset, accessIf]
    exact if_pos hi
  | rdSs c k =>
    refine decode_encode_of_readsAs (off_rdSs c k) (fun d => ?_) rfl
    rw [decode_ssOffset, accessIf]
    exact if_pos hi
  | rdAsm k => exact decode_encode_of_readsAs (off_rdAsm k) (readsAs_rdAsm k) rfl
  | rdOut k =>
    exact decode_encode_of_readsAs (off_rdOut k) (readsAs_rdOut (of_decide_eq_true hi)) rfl
  | rdOutData => exact readsAs_rdOutData _

/-! ## Encoding a decoded instruction

An instruction fits the fields of a word when it is well-formed and they are its own; the DATA of a read
is ignored (30_encoding.md R131). Each piece of the decoder answers only what fits the fields. -/

/-- The instruction is well-formed and its word has these fields, but for the DATA of a read. -/
def Instr.Fits (write : Bool) (off : BitVec 12) (data : Word) (i : Instr) : Prop :=
  i.wellFormed = true ∧ i.isWrite = write ∧ i.off = off ∧ (write = true → i.data = data)

/-- An instruction that the decoder answers fits the fields. -/
def Decoded.Fits (write : Bool) (off : BitVec 12) (data : Word) (r : Decoded) : Prop :=
  ∀ i : Instr, r = .ok i → i.Fits write off data

section Fits

variable {write : Bool} {off : BitVec 12} {data : Word} {i j : Instr}

theorem Instr.Fits.ofRead (hwf : i.wellFormed = true) (hread : i.isWrite = false)
    (hoff : i.off = off) : i.Fits false off data :=
  ⟨hwf, hread, hoff, fun h => absurd h (by decide)⟩

theorem Instr.Fits.ofWrite (hwf : i.wellFormed = true) (hwrite : i.isWrite = true)
    (hoff : i.off = off) (hdata : i.data = data) : i.Fits true off data :=
  ⟨hwf, hwrite, hoff, fun _ => hdata⟩

theorem Decoded.Fits.ok (h : i.Fits write off data) : Decoded.Fits write off data (.ok i) :=
  fun _ hj => Except.ok.inj hj ▸ h

theorem Decoded.Fits.error (e : DecodeError) : Decoded.Fits write off data (.error e) :=
  fun _ h => nomatch h

theorem Decoded.Fits.accessRO (h : i.Fits false off data) :
    Decoded.Fits write off data (accessRO write i) := by
  cases write
  · exact .ok h
  · exact .error _

theorem Decoded.Fits.accessWO (h : i.Fits true off data) :
    Decoded.Fits write off data (accessWO write i) := by
  cases write
  · exact .error _
  · exact .ok h

theorem Decoded.Fits.accessRW (hi : i.Fits false off data) (hj : j.Fits true off data) :
    Decoded.Fits write off data (accessRW write i j) := by
  cases write
  · exact .ok hi
  · exact .ok hj

theorem Decoded.Fits.accessIf {inRange : Bool} {r : Decoded}
    (h : inRange = true → r.Fits write off data) :
    Decoded.Fits write off data (accessIf inRange r) := by
  cases inRange
  · exact .error _
  · exact h rfl

/-- The command that DATA selects has DATA as its code (R143). -/
theorem decodeCmd_fits (data : Word) : (decodeCmd data).Fits true 0x008#12 data := by
  by_cases hcmd : data ∈ [1#32, 2#32, 3#32, 4#32, 5#32, 6#32, 7#32]
  · simp only [List.mem_cons, List.not_mem_nil, or_false] at hcmd
    rcases hcmd with rfl | rfl | rfl | rfl | rfl | rfl | rfl <;> exact ⟨rfl, rfl, rfl, fun _ => rfl⟩
  · rw [decodeCmd_reserved hcmd]
    simp only [List.mem_cons, List.not_mem_nil, or_false, not_or] at hcmd
    refine ⟨?_, rfl, rfl, fun _ => rfl⟩
    simp only [Instr.wellFormed, Bool.or_eq_true, decide_eq_true_iff]
    bv_omega

theorem decodeSingle_fits (h : off ∈ singleOffsets) :
    ∃ r, decodeSingle write off data = some r ∧ r.Fits write off data := by
  simp only [singleOffsets, List.mem_cons, List.not_mem_nil, or_false] at h
  rcases h with rfl | rfl | rfl | rfl | rfl | rfl | rfl | rfl | rfl | rfl | rfl | rfl | rfl | rfl
    | rfl | rfl
  · exact ⟨_, rfl, .accessRO (.ofRead rfl rfl rfl)⟩
  · exact ⟨_, rfl, .accessRO (.ofRead rfl rfl rfl)⟩
  · exact ⟨_, rfl, .accessWO (decodeCmd_fits data)⟩
  · exact ⟨_, rfl, .accessRO (.ofRead rfl rfl rfl)⟩
  · exact ⟨_, rfl, .accessRW (.ofRead rfl rfl rfl) (.ofWrite rfl rfl rfl rfl)⟩
  · exact ⟨_, rfl, .accessRW (.ofRead rfl rfl rfl) (.ofWrite rfl rfl rfl rfl)⟩
  · exact ⟨_, rfl, .accessRO (.ofRead rfl rfl rfl)⟩
  · exact ⟨_, rfl, .accessWO (.ofWrite rfl rfl rfl rfl)⟩
  · exact ⟨_, rfl, .accessWO (.ofWrite rfl rfl rfl rfl)⟩
  · exact ⟨_, rfl, .accessWO (.ofWrite rfl rfl rfl rfl)⟩
  · exact ⟨_, rfl, .accessRO (.ofRead rfl rfl rfl)⟩
  · exact ⟨_, rfl, .accessRO (.ofRead rfl rfl rfl)⟩
  · exact ⟨_, rfl, .accessRW (.ofRead rfl rfl rfl) (.ofWrite rfl rfl rfl rfl)⟩
  · exact ⟨_, rfl, .accessRW (.ofRead rfl rfl rfl) (.ofWrite rfl rfl rfl rfl)⟩
  · exact ⟨_, rfl, .accessRO (.ofRead rfl rfl rfl)⟩
  · exact ⟨_, rfl, .accessRO (.ofRead rfl rfl rfl)⟩

/-- An aligned offset is its block's digits, its selector and two zeros. -/
theorem append_selector {a b : Nat} {p : BitVec a} (ha : off.extractLsb' 0 2 = 0#2)
    (hp : off.extractLsb' (b + 2) a = p) :
    p ++ off.extractLsb' 2 b ++ 0#2 = off.extractLsb' 0 (a + b + 2) := by
  rw [← hp, ← ha, BitVec.extractLsb'_append_extractLsb'_eq_extractLsb' (Nat.add_comm b 2),
    BitVec.extractLsb'_append_extractLsb'_eq_extractLsb' (Nat.zero_add 2).symm]

/-- The same with two selectors. -/
theorem append_selectors {a b c : Nat} {p : BitVec a} (ha : off.extractLsb' 0 2 = 0#2)
    (hp : off.extractLsb' (b + (c + 2)) a = p) :
    p ++ off.extractLsb' (c + 2) b ++ off.extractLsb' 2 c ++ 0#2
      = off.extractLsb' 0 (a + b + c + 2) := by
  rw [← hp, BitVec.extractLsb'_append_extractLsb'_eq_extractLsb' (Nat.add_comm b (c + 2))]
  exact append_selector ha rfl

/-- Branch by branch: the offset is put together again from the block's digits and its selectors. -/
theorem decodeBlock_fits (ha : off.extractLsb' 0 2 = 0#2) :
    (decodeBlock write off data).Fits write off data := by
  have hself : off.extractLsb' 0 12 = off := BitVec.extractLsb'_eq_self
  unfold decodeBlock
  dsimp only
  split_ifs with hcfg hdbg hparam htcfg htstat hcand hss hasm hout
  · have hoff := (append_selector (b := 4) ha hcfg).trans hself
    exact .accessIf fun hk => .accessRW (.ofRead hk rfl hoff) (.ofWrite hk rfl hoff rfl)
  · have hoff := (append_selector (b := 4) ha hdbg).trans hself
    exact .accessIf fun hk => .accessRO (.ofRead hk rfl hoff)
  · have hoff := (append_selector (b := 2) ha hparam).trans hself
    exact .accessRO (.ofRead rfl rfl hoff)
  · have hoff := (append_selectors (b := 2) (c := 3) ha htcfg).trans hself
    exact .accessIf fun hk => .accessRW (.ofRead hk rfl hoff) (.ofWrite hk rfl hoff rfl)
  · have hoff := (append_selectors (b := 2) (c := 3) ha htstat).trans hself
    exact .accessIf fun hk => .accessRO (.ofRead hk rfl hoff)
  · have hoff := (append_selectors (b := 4) (c := 3) ha hcand).trans hself
    exact .accessIf fun hk => .accessRO (.ofRead hk rfl hoff)
  · have hoff := (append_selectors (b := 4) (c := 4) ha hss).trans hself
    exact .accessIf fun hk => .accessRO (.ofRead hk rfl hoff)
  · have hoff := (append_selector (b := 3) ha hasm).trans hself
    exact .accessRO (.ofRead rfl rfl hoff)
  · have hoff := (append_selector (b := 4) ha hout).trans hself
    exact .accessIf fun hk => .accessRO (.ofRead hk rfl hoff)
  · exact .error _

theorem decodeFields_fits : (decodeFields write off data).Fits write off data := by
  unfold decodeFields
  split_ifs with hmis
  · exact .error _
  · by_cases hmem : off ∈ singleOffsets
    · obtain ⟨r, hr, hfits⟩ := decodeSingle_fits (write := write) (data := data) hmem
      rwa [hr, Option.getD_some]
    · rw [decodeSingle_of_notMem hmem, Option.getD_none]
      exact decodeBlock_fits (not_not.mp hmis)

end Fits

/-- The decoder answers an instruction that fits the fields of the word (R132). -/
theorem decode_fits {w : Txn} {i : Instr} (h : decode w = .ok i) :
    i.Fits (txnWrite w) (txnOff w) (txnData w) := by
  refine decodeFields_fits i ?_
  rwa [← decode_mkTxn, mkTxn_fields (decode_ok_reserved h)]

/-- The upper half of a word does not depend on DATA. -/
theorem mkTxn_upper_congr (write : Bool) (off : BitVec 12) (data data' : Word) :
    mkTxn write off data &&& 0xFFFFFFFF00000000#64 =
      mkTxn write off data' &&& 0xFFFFFFFF00000000#64 :=
  (mkTxn_and_upper write off data 0xFFFFFFFF#32).trans
    (mkTxn_and_upper write off data' 0xFFFFFFFF#32).symm

end Sys2Proof

section
open Sys2Proof Sys2Proof.Machine

/-- Settles O1: each row's offset is the one its register is read or written at. -/
theorem decodeOfEncode : Obligations.DecodeOfEncode := by
  unfold Obligations.DecodeOfEncode
  exact fun _ => decode_encode

/-- Settles O2: the decoded instruction fits the word's fields, and a word that decodes is the assembly
of its fields. -/
theorem encodeOfDecode : Obligations.EncodeOfDecode := by
  unfold Obligations.EncodeOfDecode
  intro w i h
  obtain ⟨hwf, hwrite, hoff, hdata⟩ := decode_fits h
  have hw := mkTxn_fields (decode_ok_reserved h)
  refine ⟨hwf, ?upper, fun hbit => ?whole⟩
  case upper =>
    rw [← hw, encode, hwrite, hoff]
    exact mkTxn_upper_congr _ _ _ _
  case whole =>
    conv_rhs => rw [← hw]
    rw [encode, hwrite, hoff, hdata hbit]

/-- Settles O3: `decode_isOk` says where a word decodes, and the direction is one of the fields that the
instruction fits. -/
theorem mappedTransactionsDecode : Obligations.MappedTransactionsDecode := by
  unfold Obligations.MappedTransactionsDecode
  intro w
  have hok : (∃ i, decode w = .ok i) ↔ (decode w).isOk = true := by
    cases decode w with
    | ok i => simp
    | error e => simp
  have hdir : (∃ i, decode w = .ok i ∧ i.isWrite = w.getLsbD 63) ↔ ∃ i, decode w = .ok i :=
    exists_congr fun i => and_iff_left_of_imp fun h => (decode_fits h).2.1
  rw [hdir, hok, decode_isOk, Bool.and_eq_true, decide_eq_true_iff]
  rfl

/-- Settles O4: twelve closed words. -/
theorem tableWordsDecode : Obligations.TableWordsDecode := by
  unfold Obligations.TableWordsDecode
  decide

end

/-! PROOFS. The invariants: what every step keeps, derived from the effects of a transaction (`Effect`)
and the phases of a tick. -/

namespace Sys2Proof.Machine

/-! ## From effects to steps -/

/-- The reset input is the full reset, which returns nothing (70_reset_and_hazards.md R580). -/
theorem Effect.fullReset (s : State) : Effect s s.fullReset := .reset

/-- What does not depend on the waiting inputs and survives every effect of a transaction survives every
step. -/
theorem step_keeps {P : State → Prop} {s t : State}
    (hinputs : ∀ (s : State) (rest : List HostInput), P s → P { s with inputs := rest })
    (heffect : ∀ s t : State, P s → Effect s t → P t) (hs : P s) (h : step s = .next t) : P t := by
  rcases step_effect h with ⟨-, rfl⟩ | ⟨i, rest, -, rfl | heff⟩
  · exact hs
  · exact heffect _ _ (hinputs s rest hs) (.fullReset _)
  · exact heffect _ _ (hinputs s rest hs) heff

/-! ## With and without a frame

The four lock invariants leave two kinds of states: no candidate LOCKED and nothing of a frame held, or
one candidate LOCKED, every other clear, and its frame in progress. -/

/-- The four invariants of candidates and frames. -/
structure State.LockSafe (s : State) : Prop where
  exclusive : s.Exclusive
  frameMatches : s.FrameMatches
  betweenFrames : s.BetweenFrames
  idleClear : s.IdleClear

/-- No candidate is LOCKED and no frame is in progress. -/
structure State.Unframed (s : State) : Prop where
  fs : s.fs = FrameState.reset
  st : s.st = StreamState.reset
  unlocked : ∀ c : Row, (s.ss.get c).stage ≠ .locked
  idleClear : s.IdleClear

/-- The frame state is that of a frame of row `w` in progress. -/
structure FrameState.Of (f : FrameState) (w : Row) : Prop where
  asmStage : f.asmStage = .accumulating
  cand : f.cand = some w
  tech : f.tech = w.tech
  dir : f.dir = w.dir
  rate : f.rate = w.rate

/-- Row `w` is LOCKED, every other candidate is clear, and the frame in progress is that of `w`. -/
structure State.Framed (s : State) (w : Row) : Prop where
  frame : s.fs.Of w
  locked : (s.ss.get w).stage = .locked
  others : ∀ c : Row, c ≠ w → s.ss.get c = SearchState.reset

section LockSafe

variable {s t : State} {w : Row}

theorem State.Unframed.lockSafe (h : s.Unframed) : s.LockSafe where
  exclusive c _ hc := absurd hc (h.unlocked c)
  frameMatches := by
    rw [State.FrameMatches, h.fs]
    exact ⟨fun c => iff_of_false nofun (h.unlocked c), iff_of_false nofun nofun, nofun⟩
  betweenFrames _ := ⟨h.fs, h.st⟩
  idleClear := h.idleClear

theorem State.Framed.lockSafe (h : s.Framed w) : s.LockSafe where
  exclusive c d hc hd := by
    have hcw : c = w := by
      by_contra hne
      rw [h.others c hne] at hc; cases hc
    rw [h.others d (hcw ▸ hd)]; rfl
  frameMatches := by
    rw [State.FrameMatches, h.frame.cand]
    refine ⟨fun c => ⟨fun hc => Option.some.inj hc ▸ h.locked, fun hc => ?_⟩,
      iff_of_true h.frame.asmStage rfl,
      fun c hc => Option.some.inj hc ▸ ⟨h.frame.tech, h.frame.dir, h.frame.rate⟩⟩
    by_contra hne
    rw [h.others c fun e => hne (e ▸ rfl)] at hc; cases hc
  betweenFrames hstage := by rw [h.frame.asmStage] at hstage; cases hstage
  idleClear c hc := by
    by_cases hcw : c = w
    · rw [hcw, h.locked] at hc; cases hc
    · exact h.others c hcw

/-- The two kinds are all there is. -/
theorem State.LockSafe.unframed_or_framed (h : s.LockSafe) : s.Unframed ∨ ∃ w, s.Framed w := by
  obtain ⟨hlocked, hstage, hrom⟩ := h.frameMatches
  cases hcand : s.fs.cand with
  | none =>
    left
    have hwaiting : s.fs.asmStage = .waitingStart := by
      cases hasm : s.fs.asmStage with
      | waitingStart => rfl
      | accumulating => rw [hcand] at hstage; exact absurd (hstage.mp hasm) nofun
    obtain ⟨hfs, hst⟩ := h.betweenFrames hwaiting
    refine ⟨hfs, hst, fun c hc => ?_, h.idleClear⟩
    rw [(hlocked c).mpr hc] at hcand; cases hcand
  | some w =>
    right
    have hw := (hlocked w).mp hcand
    obtain ⟨htech, hdir, hrate⟩ := hrom w hcand
    exact ⟨w, ⟨hstage.mpr (by rw [hcand]; rfl), hcand, htech, hdir, hrate⟩, hw,
      fun c hc => h.idleClear c (h.exclusive w c hw hc)⟩

theorem State.Framed.congr (h : s.Framed w) (hss : t.ss = s.ss) (hfs : t.fs = s.fs) :
    t.Framed w := by
  obtain ⟨hframe, hlocked, hothers⟩ := h
  constructor <;> simp only [hss, hfs] <;> assumption

theorem State.Unframed.congr (h : s.Unframed) (hss : t.ss = s.ss) (hst : t.st = s.st)
    (hfs : t.fs = s.fs) : t.Unframed := by
  obtain ⟨hf, hs, hunlocked, hclear⟩ := h
  constructor <;> simp only [State.IdleClear, hss, hst, hfs] <;> assumption

/-- Only the search, the stream and the frame state matter. -/
theorem State.LockSafe.congr (h : s.LockSafe) (hss : t.ss = s.ss) (hst : t.st = s.st)
    (hfs : t.fs = s.fs) : t.LockSafe := by
  rcases h.unframed_or_framed with hu | ⟨w, hw⟩
  · exact (hu.congr hss hst hfs).lockSafe
  · exact (hw.congr hss hfs).lockSafe

/-- Where everything of the decoder is clear, no frame is in progress. -/
theorem State.Unframed.of_clear (hfs : s.fs = FrameState.reset) (hst : s.st = StreamState.reset)
    (hss : ∀ c : Row, s.ss.get c = SearchState.reset) : s.Unframed :=
  ⟨hfs, hst, fun c => by rw [hss c]; nofun, fun c _ => hss c⟩

end LockSafe

/-! ## How the phases of a tick change the decoder -/

section Phases

variable {s : State} {w : Row} {eof : Option Row}

@[simp] theorem State.startupPhase_ss (s : State) : s.startupPhase.ss = s.ss := by
  unfold State.startupPhase; split <;> rfl

@[simp] theorem State.startupPhase_st (s : State) : s.startupPhase.st = s.st := by
  unfold State.startupPhase; split <;> rfl

@[simp] theorem State.startupPhase_fs (s : State) : s.startupPhase.fs = s.fs := by
  unfold State.startupPhase; split <;> rfl

@[simp] theorem State.timeoutCheck_ss (s : State) (x : Tech) : (s.timeoutCheck x).ss = s.ss := by
  unfold State.timeoutCheck; split <;> rfl

@[simp] theorem State.timeoutCheck_st (s : State) (x : Tech) : (s.timeoutCheck x).st = s.st := by
  unfold State.timeoutCheck; split <;> rfl

@[simp] theorem State.timeoutCheck_fs (s : State) (x : Tech) : (s.timeoutCheck x).fs = s.fs := by
  unfold State.timeoutCheck; split <;> rfl

/-- Phases 1 to 3 leave the search, the stream and the frame state (40_signal_conditioner.md R200). -/
@[simp] theorem State.tickFront_ss (s : State) (m : F32) : (s.tickFront m).ss = s.ss := by
  simp [State.tickFront, State.timeouts]

@[simp] theorem State.tickFront_st (s : State) (m : F32) : (s.tickFront m).st = s.st := by
  simp [State.tickFront, State.timeouts]

@[simp] theorem State.tickFront_fs (s : State) (m : F32) : (s.tickFront m).fs = s.fs := by
  simp [State.tickFront, State.timeouts]

/-- Ending a frame, however it ends, clears the stream and the frame state and keeps the search
states. -/
theorem State.complete_cleared (s : State) :
    s.complete.fs = FrameState.reset ∧ s.complete.st = StreamState.reset
      ∧ s.complete.ss = s.ss := by
  cases hdir : s.fs.dir with
  | poll => rw [State.complete_poll hdir]; exact ⟨rfl, rfl, rfl⟩
  | listen => rw [State.complete_listen hdir]; exact ⟨rfl, rfl, rfl⟩

theorem State.abandon_cleared (s : State) (t : Clock) :
    (s.abandon t).fs = FrameState.reset ∧ (s.abandon t).st = StreamState.reset
      ∧ (s.abandon t).ss = s.ss := by
  cases hdir : s.fs.dir with
  | poll => rw [State.abandon_poll hdir]; exact ⟨rfl, rfl, rfl⟩
  | listen => rw [State.abandon_listen hdir]; exact ⟨rfl, rfl, rfl⟩

theorem State.endFrame_cleared (s : State) (t : Clock) :
    (s.endFrame t).fs = FrameState.reset ∧ (s.endFrame t).st = StreamState.reset
      ∧ (s.endFrame t).ss = s.ss := by
  rcases s.endFrame_cases t with h | ⟨st, h | ⟨h, -⟩ | h⟩ <;> rw [h]
  · exact ⟨rfl, rfl, rfl⟩
  · exact ⟨rfl, rfl, rfl⟩
  · exact State.complete_cleared _
  · exact State.abandon_cleared _ t

/-- The frame of a LOCKED row ends with the row cleared: nothing is left (44_frame_assembler.md
R401). -/
theorem State.Framed.clearFrameRow_clear (h : s.Framed w) (c : Row) :
    s.clearFrameRow.ss.get c = SearchState.reset := by
  rw [State.clearFrameRow_of_frame h.frame.cand]
  by_cases hc : c = w
  · rw [hc]; exact PerRow.get_set_same _ _ _
  · exact (PerRow.get_set_other _ _ hc).trans (h.others c hc)

theorem State.Unframed.of_endFrame (hss : ∀ c : Row, s.ss.get c = SearchState.reset) (t : Clock) :
    (s.endFrame t).Unframed := by
  obtain ⟨hfs, hst, hkept⟩ := s.endFrame_cleared t
  exact .of_clear hfs hst fun c => by rw [hkept]; exact hss c

theorem State.Unframed.of_abandon (hss : ∀ c : Row, s.ss.get c = SearchState.reset) (t : Clock) :
    (s.abandon t).Unframed := by
  obtain ⟨hfs, hst, hkept⟩ := s.abandon_cleared t
  exact .of_clear hfs hst fun c => by rw [hkept]; exact hss c

/-- Phase 6 goes on with the frame, or ends it and drops the end-of-frame request. -/
theorem State.Framed.deliver (h : s.Framed w) (eof : Option Row) (l : List Symbol) :
    ((s.deliver eof l).1.Framed w ∧ (s.deliver eof l).2 = eof)
      ∨ ((s.deliver eof l).1.Unframed ∧ (s.deliver eof l).2 = none) := by
  induction l generalizing s with
  | nil => exact .inl ⟨h, rfl⟩
  | cons sym rest ih =>
    have hcand := h.frame.cand
    have hone : (s.deliverOne w sym).1.Framed w :=
      ⟨⟨h.frame.asmStage, h.frame.cand, h.frame.tech, h.frame.dir, h.frame.rate⟩, h.locked, h.others⟩
    rcases hans : s.deliverOne w sym with ⟨u, answer⟩
    rw [hans] at hone
    cases answer with
    | cont => rw [State.deliver_cont hcand hans]; exact ih hone
    | complete =>
      rw [State.deliver_complete hcand hans]
      exact .inr ⟨.of_endFrame hone.clearFrameRow_clear _, rfl⟩
    | abandon =>
      rw [State.deliver_abandon hcand hans]
      exact .inr ⟨.of_abandon hone.clearFrameRow_clear _, rfl⟩

/-- Phase 7 without a sync loss changes nothing. -/
theorem State.correlatorEof_none (s : State) : s.correlatorEof none = s :=
  State.correlatorEof_idle (.inl rfl)

/-! ### Phases 4 and 5 -/

theorem delivered_eq_nil {out : PerRow RowOut} (h : ∀ c : Row, (out.get c).deliver = []) :
    delivered out = [] :=
  List.flatMap_eq_nil_iff.mpr fun c _ => h c

theorem lockRequests_eq_nil {out : PerRow RowOut} (h : ∀ c : Row, (out.get c).lockreq = none) :
    lockRequests out = [] :=
  List.filterMap_eq_nil_iff.mpr fun c _ => by rw [h c]; rfl

theorem mem_lockRequests {out : PerRow RowOut} {c : Row} {sym : Symbol} :
    (c, sym) ∈ lockRequests out ↔ (out.get c).lockreq = some sym := by
  simp [lockRequests]

theorem State.arbitrate_nil {out : PerRow RowOut} (h : lockRequests out = []) :
    s.arbitrate out = (s, delivered out) := by
  rw [State.arbitrate, h]

theorem State.arbitrate_cons {out : PerRow RowOut} {r : Row × Symbol} {rest : List (Row × Symbol)}
    (h : lockRequests out = r :: rest) :
    s.arbitrate out =
      (((s.lockRow (s.winner r rest).1).frameStart (s.winner r rest).1),
        delivered out ++
          [(s.ss.get (s.winner r rest).1).firstSymbol (s.bank.get (s.winner r rest).1)
            (s.winner r rest).1, (s.winner r rest).2]) := by
  rw [State.arbitrate, h]

/-- The winner of an arbitration is LOCKED, every other candidate is clear, and its frame starts
(42_symbol_correlator.md R295). -/
theorem State.lockRow_frameStart_framed (s : State) (w : Row) :
    ((s.lockRow w).frameStart w).Framed w := by
  refine ⟨⟨rfl, rfl, rfl, rfl, rfl⟩, ?_, fun c hc => ?_⟩
  · simp [State.lockRow, State.frameStart]
  · simp [State.lockRow, State.frameStart, hc]

theorem State.idleStep_cases (s : State) (c : Row) (b : Bool) (ss : SearchState) :
    s.idleStep c b ss = ss ∨ (s.idleStep c b ss).stage = .searching := by
  unfold State.idleStep
  split
  · exact .inr rfl
  · exact .inl rfl

/-- A candidate that is not LOCKED does not lock in its step, is clear where it ends IDLE, and delivers
nothing and loses no sync. -/
theorem State.rowStep_unlocked {c : Row} (hstage : (s.ss.get c).stage ≠ .locked)
    (hclear : s.IdleClear) (b : Bool) :
    (s.rowStep b c).1.stage ≠ .locked
      ∧ ((s.rowStep b c).1.stage = .idle → (s.rowStep b c).1 = SearchState.reset)
      ∧ (s.rowStep b c).2.deliver = [] ∧ (s.rowStep b c).2.eof = false := by
  have hreset : SearchState.reset.stage ≠ .locked := nofun
  cases hs : (s.ss.get c).stage with
  | idle =>
    rw [State.rowStep_idle hs]
    rcases s.idleStep_cases c b (s.ss.get c) with h | h
    · rw [h, hclear c hs]; exact ⟨hreset, fun _ => rfl, rfl, rfl⟩
    · rw [h]; exact ⟨nofun, nofun, rfl, rfl⟩
  | searching =>
    rw [State.rowStep_searching hs]
    rcases s.searchStep_cases c _ hs with h | h | h
    · rw [h]; exact ⟨nofun, nofun, rfl, rfl⟩
    · rw [h]; exact ⟨nofun, nofun, rfl, rfl⟩
    · rw [h]; exact ⟨hreset, fun _ => rfl, rfl, rfl⟩
  | synchronizing =>
    rw [State.rowStep_synchronizing hs]
    rcases s.syncStep_cases c _ hs with ⟨h, hout⟩ | h
    · rw [h]
      rcases hout with hout | ⟨sym, hout⟩ <;> rw [hout] <;> exact ⟨nofun, nofun, rfl, rfl⟩
    · rw [h]; exact ⟨hreset, fun _ => rfl, rfl, rfl⟩
  | locked => exact absurd hs hstage

/-- While a row is LOCKED every other candidate waits, clear. -/
theorem State.Framed.rowStep_other (h : s.Framed w) {c : Row} (hc : c ≠ w) :
    s.rowStep s.lockedAny c = (SearchState.reset, .quiet) := by
  have hany : s.lockedAny = true := s.lockedAny_iff.mpr ⟨w, h.locked⟩
  have hidle : (s.ss.get c).stage = .idle := by rw [h.others c hc]; rfl
  rw [State.rowStep_idle hidle, hany, State.idleStep_while_locked, h.others c hc]

end Phases

/-! ## The tick keeps the lock invariants -/

section TickBack

variable {s : State} {w : Row}

/-- With a frame in progress phase 4 makes no lock request, and the LOCKED row stays LOCKED, or loses
sync and delivers nothing (R297, R298). -/
theorem State.Framed.correlators (h : s.Framed w) :
    lockRequests s.correlators.2 = []
      ∧ ((s.correlators.1.Framed w ∧ eofPending s.correlators.2 = none)
        ∨ ((∀ c : Row, s.correlators.1.ss.get c = SearchState.reset)
          ∧ delivered s.correlators.2 = [] ∧ eofPending s.correlators.2 = some w)) := by
  have hstep := State.rowStep_locked h.locked s.lockedAny
  have hother (c : Row) (hc : c ≠ w) :
      s.correlators.1.ss.get c = SearchState.reset ∧ s.correlators.2.get c = .quiet := by
    rw [State.correlators_ss, State.correlators_out, h.rowStep_other hc]
    exact ⟨rfl, rfl⟩
  -- What holds of every row holds of `w` and of a quiet one.
  have hall (P : RowOut → Prop) (hw : P (s.lockedStep w (s.ss.get w)).2) (hq : P .quiet) (c : Row) :
      P (s.correlators.2.get c) := by
    by_cases hc : c = w
    · rw [hc, State.correlators_out, hstep]; exact hw
    · rw [(hother c hc).2]; exact hq
  rcases s.lockedStep_cases w _ h.locked with ⟨hstage, hreq, heof⟩ | hlost
  · refine ⟨lockRequests_eq_nil (hall (·.lockreq = none) hreq rfl),
      .inl ⟨⟨h.frame, ?_, fun c hc => (hother c hc).1⟩,
        eofPending_eq_none (hall (·.eof = false) heof rfl)⟩⟩
    rw [State.correlators_ss, hstep]; exact hstage
  · refine ⟨lockRequests_eq_nil (hall (·.lockreq = none) (by rw [hlost]; rfl) rfl),
      .inr ⟨fun c => ?_, delivered_eq_nil (hall (·.deliver = []) (by rw [hlost]; rfl) rfl),
        eofPending_eq_some ?_ fun d hd => ?_⟩⟩
    · by_cases hc : c = w
      · rw [hc, State.correlators_ss, hstep, hlost]
      · exact (hother c hc).1
    · rw [State.correlators_out, hstep, hlost]
    · by_contra hdw
      rw [(hother d hdw).2] at hd; cases hd

/-- Without a frame phase 4 locks nothing and delivers nothing. -/
theorem State.Unframed.correlators (h : s.Unframed) :
    s.correlators.1.Unframed ∧ delivered s.correlators.2 = []
      ∧ eofPending s.correlators.2 = none := by
  have hrow (c : Row) := State.rowStep_unlocked (h.unlocked c) h.idleClear s.lockedAny
  simp only [← State.correlators_ss, ← State.correlators_out] at hrow
  exact ⟨⟨h.fs, h.st, fun c => (hrow c).1, fun c => (hrow c).2.1⟩,
    delivered_eq_nil fun c => (hrow c).2.2.1, eofPending_eq_none fun c => (hrow c).2.2.2⟩

/-- After a lock, or while one goes on, phases 6 and 7 keep the frame or end it. -/
theorem State.Framed.deliver_lockSafe (h : s.Framed w) (l : List Symbol) :
    ((s.deliver none l).1.correlatorEof (s.deliver none l).2).LockSafe := by
  rcases h.deliver none l with ⟨hu, heof⟩ | ⟨hu, heof⟩ <;> rw [heof, State.correlatorEof_none]
  · exact hu.lockSafe
  · exact hu.lockSafe

/-- Phases 6 and 7 on what the arbitration leaves. -/
theorem State.tickBack_eq {u : State} {l : List Symbol}
    (h : s.correlators.1.arbitrate s.correlators.2 = (u, l)) :
    s.tickBack =
      (u.deliver (eofPending s.correlators.2) l).1.correlatorEof
        (u.deliver (eofPending s.correlators.2) l).2 := by
  unfold State.tickBack
  dsimp only
  rw [h]

/-- Phases 4 to 7 with a frame in progress. -/
theorem State.Framed.tickBack (h : s.Framed w) : s.tickBack.LockSafe := by
  obtain ⟨hreq, ⟨hframed, heof⟩ | ⟨hclear, hdel, heof⟩⟩ := h.correlators
  · rw [State.tickBack_eq (State.arbitrate_nil hreq), heof]
    exact hframed.deliver_lockSafe _
  · rw [State.tickBack_eq (State.arbitrate_nil hreq), hdel, heof]
    show (s.correlators.1.correlatorEof (some w)).LockSafe
    rw [State.correlatorEof_pending (s := s.correlators.1) (Option.some_ne_none w) h.frame.asmStage]
    exact (State.Unframed.of_endFrame hclear _).lockSafe

/-- Phases 4 to 7 without a frame in progress: a frame starts only by an arbitration. -/
theorem State.Unframed.tickBack (h : s.Unframed) : s.tickBack.LockSafe := by
  obtain ⟨hunframed, hdel, heof⟩ := h.correlators
  cases hreq : lockRequests s.correlators.2 with
  | nil =>
    rw [State.tickBack_eq (State.arbitrate_nil hreq), hdel, heof]
    exact hunframed.lockSafe
  | cons r rest =>
    rw [State.tickBack_eq (State.arbitrate_cons hreq), heof]
    exact (State.lockRow_frameStart_framed _ _).deliver_lockSafe _

theorem State.LockSafe.tick (h : s.LockSafe) (m : F32) : (s.tick m).LockSafe := by
  have hfront : (s.tickFront m).LockSafe := h.congr (by simp) (by simp) (by simp)
  have hback : (s.tickFront m).tickBack.LockSafe := by
    rcases hfront.unframed_or_framed with hu | ⟨w, hw⟩
    · exact hu.tickBack
    · exact hw.tickBack
  exact hback.congr rfl rfl rfl

end TickBack

/-- A capture reset leaves no candidate and no frame (70_reset_and_hazards.md R581). -/
theorem State.captureReset_lockSafe (s : State) : s.captureReset.LockSafe :=
  (State.Unframed.of_clear rfl rfl fun c => by simp).lockSafe

theorem State.fullReset_lockSafe (s : State) : s.fullReset.LockSafe :=
  (State.Unframed.of_clear rfl rfl fun c => by simp [State.reset]).lockSafe

/-- Only a tick and the resets touch the search, the stream and the frame state. -/
theorem State.LockSafe.effect {s t : State} (h : s.LockSafe) (heff : Effect s t) : t.LockSafe := by
  cases heff with
  | host | outData | rewind | pop | config | start | stop => exact h.congr rfl rfl rfl
  | reset => exact s.fullReset_lockSafe.congr rfl rfl rfl
  | resetCapture | configure => exact s.captureReset_lockSafe.congr rfl rfl rfl
  | sample iValid m =>
    have hlatch : State.LockSafe { s with iValid := iValid } := h.congr rfl rfl rfl
    exact (hlatch.tick m).congr rfl rfl rfl

end Sys2Proof.Machine

section
open Sys2Proof Sys2Proof.Machine

/-- Settles O57: the four invariants are one of two kinds of states, with and without a frame, and each
phase of a tick leads from one kind to the other or stays. -/
theorem lockInvariantKept : Obligations.LockInvariantKept := by
  unfold Obligations.LockInvariantKept
  intro s t hexclusive hmatches hbetween hclear hstep
  obtain ⟨h1, h2, h3, h4⟩ := step_keeps (P := State.LockSafe) (fun _ _ h => h.congr rfl rfl rfl)
    (fun _ _ h => h.effect) ⟨hexclusive, hmatches, hbetween, hclear⟩ hstep
  exact ⟨h1, h2, h3, h4⟩

end

namespace Sys2Proof.Machine

/-! ## The queue and the read pointer -/

section Queue

variable {s t : State}

/-- The invariants of the output queue. -/
structure State.QueueSafe (s : State) : Prop where
  within : s.QueueWithin
  rptr : s.RptrWithin

theorem State.rptrWithin_of_zero (h : s.rptr = 0#16) : s.RptrWithin := by
  unfold State.RptrWithin
  split
  · exact h
  · rw [h]; exact Nat.zero_le _

theorem State.rptrWithin_cons {r : Record} {rest : List Record} (hq : s.queue = r :: rest) :
    s.RptrWithin ↔ s.rptr.toNat ≤ r.bytes.length := by
  rw [State.RptrWithin, hq]

/-- Only the queue, RPTR and the parameters matter. -/
theorem State.QueueSafe.congr (h : s.QueueSafe) (hq : t.queue = s.queue) (hr : t.rptr = s.rptr)
    (hp : t.params = s.params) : t.QueueSafe := by
  obtain ⟨hwithin, hrptr⟩ := h
  constructor
  · rw [State.QueueWithin, hq, hp]; exact hwithin
  · rw [State.RptrWithin, hq, hr]; exact hrptr

theorem State.QueueSafe.of_empty (hq : t.queue = []) (hr : t.rptr = 0#16) : t.QueueSafe :=
  ⟨by rw [State.QueueWithin, hq]; exact Nat.zero_le _, State.rptrWithin_of_zero hr⟩

/-- Records that join at the tail leave RPTR within the head record: an empty queue has RPTR 0. -/
theorem State.RptrWithin.append (h : s.RptrWithin) {new : List Record}
    (hq : t.queue = s.queue ++ new) (hr : t.rptr = s.rptr) : t.RptrWithin := by
  cases hs : s.queue with
  | nil =>
    rw [State.RptrWithin, hs] at h
    exact State.rptrWithin_of_zero (hr.trans h)
  | cons r rest =>
    rw [hs, List.cons_append] at hq
    rw [State.rptrWithin_cons hq, hr]
    exact (State.rptrWithin_cons hs).mp h

/-- A tick pushes at most four records, at the tail (44_frame_assembler.md R412). -/
theorem State.tick_queue (s : State) (m : F32) :
    ∃ new : List Record, (s.tick m).queue = s.queue ++ new ∧ new.length ≤ 4 := by
  obtain ⟨timeouts, ended, hqueue, -, htech, hended, -⟩ := recordsPerTick s m
  have htimeouts : timeouts.length ≤ 3 := by
    simpa using htech.length_le
  exact ⟨timeouts ++ ended, by rw [hqueue, List.append_assoc],
    by rw [List.length_append]; omega⟩

theorem State.QueueSafe.effect (h : s.QueueSafe) (heff : Effect s t) : t.QueueSafe := by
  cases heff with
  | host | config | start | stop => exact h.congr rfl rfl rfl
  | reset | resetCapture | configure => exact .of_empty rfl rfl
  | rewind => exact ⟨h.within, State.rptrWithin_of_zero rfl⟩
  | pop r rest hq =>
    refine ⟨?_, State.rptrWithin_of_zero rfl⟩
    have hlen := h.within
    rw [State.QueueWithin, hq, List.length_cons] at hlen
    exact Nat.le_of_succ_le hlen
  | outData r rest v hq hv =>
    refine ⟨h.within, Iff.mpr (State.rptrWithin_cons (r := r) (rest := rest) hq) ?_⟩
    obtain ⟨hlt, -⟩ := List.getElem?_eq_some_iff.mp hv
    show (s.rptr + 1#16).toNat ≤ r.bytes.length
    rw [BitVec.toNat_add]
    exact (Nat.mod_le _ _).trans hlt
  | sample iValid m hready =>
    obtain ⟨-, -, hroom⟩ := s.ready_iff.mp hready
    obtain ⟨new, hqueue, hnew⟩ := State.tick_queue { s with iValid := iValid } m
    refine ⟨?_, h.rptr.append hqueue (State.tick_rptr _ m)⟩
    show (State.tick { s with iValid := iValid } m).queue.length
      ≤ (State.tick { s with iValid := iValid } m).params.outqDepth
    rw [hqueue, List.length_append, State.tick_params]
    show s.queue.length + new.length ≤ s.params.outqDepth
    omega

end Queue

/-! ## The storages and the bytes -/

section Storage

variable {s t : State} {c : Row}

/-- The invariants of the storages and of the bytes of frames and records. -/
structure State.StorageSafe (s : State) : Prop where
  storages : s.StoragesWf
  bytes : s.BytesWithin

/-- The stream state fits the frame of row `c` (43_stream_decoder.md R362). -/
def State.StreamFits (s : State) (c : Row) : Prop :=
  s.st.Fits (s.decoderEnv c).bufCap (s.decoderEnv c).limit

/-- What a tick of a configured block keeps: the byte buffer in canonical form within BUF_CAP, the bytes
of the frame in progress within its limit, and those of every record within BUF_CAP. -/
structure State.FrameBytes (s : State) : Prop where
  wf : Memory.wf s.st.buf = true
  within : Memory.within s.params.bufCap s.st.buf = true
  frame : ∀ c : Row, s.fs.cand = some c → s.st.bytes.toNat ≤ (s.decoderEnv c).limit
  records : ∀ r ∈ s.queue, r.bytes.length ≤ s.params.bufCap

theorem State.FrameBytes.fits (h : s.FrameBytes) (hc : s.fs.cand = some c) : s.StreamFits c :=
  ⟨h.wf, h.within, h.frame c hc⟩

/-- The search, the timing and the signal state do not matter. -/
theorem State.FrameBytes.congr (h : s.FrameBytes) (hst : t.st = s.st)
    (hcand : t.fs.cand = s.fs.cand) (hqueue : t.queue = s.queue) (hparams : t.params = s.params)
    (htcfg : t.tcfg = s.tcfg) : t.FrameBytes := by
  obtain ⟨hwf, hwithin, hframe, hrecords⟩ := h
  constructor <;>
    simp only [State.decoderEnv, DecoderEnv.limit, hst, hcand, hqueue, hparams, htcfg] <;> assumption

/-- A stream state that fits the frame's row, the queue as it was. -/
theorem State.FrameBytes.of_fits (h : s.FrameBytes) (hfits : t.StreamFits c)
    (hcand : t.fs.cand = some c) (hqueue : t.queue = s.queue) (hparams : t.params = s.params) :
    t.FrameBytes := by
  obtain ⟨hwf, hwithin, hbytes⟩ := hfits
  refine ⟨hwf, hwithin, fun d hd => ?_, by rw [hqueue, hparams]; exact h.records⟩
  rw [hcand] at hd
  exact Option.some.inj hd ▸ hbytes

/-- Where no frame is in progress only the records matter. -/
theorem State.FrameBytes.of_cleared (hfs : t.fs = FrameState.reset) (hst : t.st = StreamState.reset)
    (hrecords : ∀ r ∈ t.queue, r.bytes.length ≤ t.params.bufCap) : t.FrameBytes :=
  ⟨by rw [hst]; rfl, by rw [hst]; rfl, fun c hc => absurd (hfs ▸ hc) nofun, hrecords⟩

theorem State.FrameBytes.push (h : s.FrameBytes) {r : Record}
    (hr : r.bytes.length ≤ s.params.bufCap) : (s.push r).FrameBytes := by
  refine ⟨h.wf, h.within, h.frame, fun q hq => ?_⟩
  rw [State.push_queue, List.mem_append, List.mem_singleton] at hq
  rcases hq with hq | rfl
  · exact h.records q hq
  · exact hr

theorem State.FrameBytes.timeoutCheck (h : s.FrameBytes) (x : Tech) :
    (s.timeoutCheck x).FrameBytes := by
  by_cases hout : s.timedOut x = true
  · rw [State.timeoutCheck_of_timedOut hout]
    exact (h.push (r := s.timeoutRecord x s.sig.clock) (Nat.zero_le _)).congr rfl rfl rfl rfl rfl
  · rwa [State.timeoutCheck_of_not_timedOut hout]

theorem State.FrameBytes.tickFront (h : s.FrameBytes) (m : F32) : (s.tickFront m).FrameBytes := by
  have honly := s.only_startupPhase
  have hconditioned : (s.startupPhase.conditioner m).FrameBytes :=
    h.congr s.startupPhase_st (congrArg FrameState.cand s.startupPhase_fs) s.startupPhase_queue
      honly.params honly.tcfg
  exact ((hconditioned.timeoutCheck .a).timeoutCheck .b).timeoutCheck .v

/-! ### The end of a frame -/

theorem StreamState.frameBytes_length (u : StreamState) : u.frameBytes.length = u.bytes.toNat := by
  simp [StreamState.frameBytes]

/-- A FRAME record holds the bytes of its frame, within BUF_CAP. -/
theorem State.FrameBytes.complete (h : s.FrameBytes) (hc : s.fs.cand = some c) :
    s.complete.FrameBytes := by
  obtain ⟨hfs, hst, -⟩ := s.complete_cleared
  have hrecord : s.frameRecord.bytes.length ≤ s.params.bufCap := by
    show s.st.frameBytes.length ≤ _
    rw [s.st.frameBytes_length]
    exact (h.frame c hc).trans (s.decoderEnv c).limit_le
  refine .of_cleared hfs hst ?_
  rw [s.complete_queue, s.only_complete.params]
  exact (h.push hrecord).records

/-- An ABANDONED record holds no bytes. -/
theorem State.FrameBytes.abandon (h : s.FrameBytes) (k : Clock) : (s.abandon k).FrameBytes := by
  obtain ⟨hfs, hst, -⟩ := s.abandon_cleared k
  refine .of_cleared hfs hst ?_
  rw [s.abandon_queue, (s.only_abandon k).params]
  exact (h.push (r := s.abandonedRecord k) (Nat.zero_le _)).records

theorem State.FrameBytes.endFrame (h : s.FrameBytes) (k : Clock) : (s.endFrame k).FrameBytes := by
  have hsilent : s.clearFrame.FrameBytes := .of_cleared rfl rfl h.records
  cases hc : s.fs.cand with
  | none => rwa [State.endFrame, hc]
  | some c =>
    have hflushed : State.FrameBytes { s with st := (s.st.flush (s.decoderEnv c)).1 } :=
      h.of_fits (c := c) (StreamState.Fits.flush (h.fits hc)) hc rfl rfl
    by_cases hans : (s.st.flush (s.decoderEnv c)).2 = .abandon
    · rw [State.endFrame_abandon hc k hans]
      exact hflushed.abandon k
    · rw [State.endFrame_not_abandon hc k hans]
      split
      · exact hflushed.complete hc
      · exact hsilent

theorem State.FrameBytes.clearFrameRow (h : s.FrameBytes) : s.clearFrameRow.FrameBytes := by
  unfold State.clearFrameRow
  split
  · exact h.congr rfl rfl rfl rfl rfl
  · exact h

/-! ### Phases 4 to 7 -/

theorem State.FrameBytes.arbitrate (h : s.FrameBytes) (out : PerRow RowOut) :
    (s.arbitrate out).1.FrameBytes := by
  cases hreq : lockRequests out with
  | nil => rwa [State.arbitrate_nil hreq]
  | cons r rest =>
    rw [State.arbitrate_cons hreq]
    exact h.of_fits (c := (s.winner r rest).1) (StreamState.Fits.frameStart _ _ _) rfl rfl rfl

theorem State.FrameBytes.deliver (h : s.FrameBytes) (eof : Option Row) (l : List Symbol) :
    (s.deliver eof l).1.FrameBytes := by
  induction l generalizing s with
  | nil => exact h
  | cons sym rest ih =>
    cases hc : s.fs.cand with
    | none => rwa [State.deliver, hc]
    | some c =>
      have hone : (s.deliverOne c sym).1.FrameBytes :=
        h.of_fits (c := c) (StreamState.Fits.accumulate (h.fits hc) sym) hc rfl rfl
      rcases hans : s.deliverOne c sym with ⟨u, answer⟩
      rw [hans] at hone
      cases answer with
      | cont => rw [State.deliver_cont hc hans]; exact ih hone
      | complete => rw [State.deliver_complete hc hans]; exact hone.clearFrameRow.endFrame _
      | abandon => rw [State.deliver_abandon hc hans]; exact hone.clearFrameRow.abandon _

theorem State.FrameBytes.correlatorEof (h : s.FrameBytes) (eof : Option Row) :
    (s.correlatorEof eof).FrameBytes := by
  unfold State.correlatorEof
  split
  · exact h.endFrame _
  · exact h

theorem State.FrameBytes.tick (h : s.FrameBytes) (m : F32) : (s.tick m).FrameBytes := by
  have hcorrelated : (s.tickFront m).correlators.1.FrameBytes :=
    (h.tickFront m).congr rfl rfl rfl rfl rfl
  exact (((hcorrelated.arbitrate _).deliver _ _).correlatorEof _).congr rfl rfl rfl rfl rfl

/-! ### The effects -/

theorem State.StorageSafe.frameBytes (h : s.StorageSafe) (hconf : s.configured = true) :
    s.FrameBytes := by
  obtain ⟨⟨-, hwf, hwithin⟩, hframe, hrecords⟩ := h
  exact ⟨hwf, hwithin, hframe hconf, hrecords⟩

/-- The storages as they were, no record new, and the frame's limit as it was while configured. -/
theorem State.StorageSafe.congr (h : s.StorageSafe) (hhist : t.hist = s.hist) (hst : t.st = s.st)
    (hfs : t.fs = s.fs) (hparams : t.params = s.params) (hqueue : ∀ r ∈ t.queue, r ∈ s.queue)
    (hconf : t.configured = true → s.configured = true ∧ t.tcfg = s.tcfg) : t.StorageSafe := by
  obtain ⟨hstorages, hframe, hrecords⟩ := h
  refine ⟨?_, fun hc => ?_, fun r hr => ?_⟩
  · rw [State.StoragesWf, hhist, hst, hparams]; exact hstorages
  · obtain ⟨hsc, htcfg⟩ := hconf hc
    rw [hfs, hst, hparams, htcfg]; exact hframe hsc
  · rw [hparams]; exact hrecords r (hqueue r hr)

/-- Storages, stream and frame state at their reset values, and no record. -/
theorem State.StorageSafe.of_reset (hhist : t.hist = Histories.reset) (hst : t.st = StreamState.reset)
    (hfs : t.fs = FrameState.reset) (hqueue : t.queue = []) : t.StorageSafe := by
  refine ⟨⟨fun chan => ?_, ?_, ?_⟩, fun _ c hc => ?_, fun r hr => ?_⟩
  · rw [hhist, Histories.channel_reset]; exact ⟨rfl, rfl⟩
  · rw [hst]; rfl
  · rw [hst]; rfl
  · rw [hfs] at hc; cases hc
  · rw [hqueue] at hr; cases hr

/-- The history writes of a tick are inside the histories (20_memory.md R113). -/
theorem State.tick_channel_wf (h : s.StoragesWf) (m : F32) (chan : BitVec 2) :
    Memory.wf ((s.tick m).hist.channel chan) = true
      ∧ Memory.within s.params.histSize ((s.tick m).hist.channel chan) = true := by
  obtain ⟨hchannels, -, -⟩ := h
  obtain ⟨hwf, hwithin⟩ := hchannels chan
  rw [s.tick_hist m, Histories.channel_record]
  exact ⟨Memory.wf_write hwf _ _, Memory.within_write hwithin (ringIndex_lt _ _) _⟩

theorem State.StorageSafe.tick (h : s.StorageSafe) (hconf : s.configured = true) (m : F32) :
    (s.tick m).StorageSafe := by
  obtain ⟨hwf, hwithin, hframe, hrecords⟩ := (h.frameBytes hconf).tick m
  refine ⟨⟨fun chan => ?_, hwf, hwithin⟩, fun _ => hframe, hrecords⟩
  rw [State.tick_params]
  exact State.tick_channel_wf h.storages m chan

theorem State.StorageSafe.effect (h : s.StorageSafe) (heff : Effect s t) : t.StorageSafe := by
  cases heff with
  | host | outData | rewind | start | stop =>
    exact h.congr rfl rfl rfl rfl (fun _ => id) fun hc => ⟨hc, rfl⟩
  | pop r rest hq =>
    refine h.congr rfl rfl rfl rfl (fun q hmem => ?_) fun hc => ⟨hc, rfl⟩
    rw [hq]; exact List.mem_cons_of_mem r hmem
  | config => exact h.congr rfl rfl rfl rfl (fun _ => id) nofun
  | reset | resetCapture | configure => exact .of_reset rfl rfl rfl rfl
  | sample iValid m hready =>
    obtain ⟨-, hconf, -⟩ := s.ready_iff.mp hready
    have hlatch : State.StorageSafe { s with iValid := iValid } :=
      h.congr rfl rfl rfl rfl (fun _ => id) fun hc => ⟨hc, rfl⟩
    exact (hlatch.tick hconf m).congr rfl rfl rfl rfl (fun _ => id) fun hc => ⟨hc, rfl⟩

end Storage

/-! ## The configuration in use -/

section Configuration

variable {s t : State}

/-- Only the configuration, the bank, the parameters, RUN and CONFIGURED matter. -/
theorem State.ConfigInUse.congr (h : s.ConfigInUse) (hrun : t.run = true → t.configured = true)
    (hconf : t.configured = true → s.configured = true ∧ t.bank = s.bank ∧ t.cfg = s.cfg
      ∧ t.tcfg = s.tcfg ∧ t.params = s.params) : t.ConfigInUse := by
  refine ⟨hrun, fun hc => ?_⟩
  obtain ⟨hsc, hbank, hcfg, htcfg, hparams⟩ := hconf hc
  rw [hbank, hcfg, htcfg, hparams]
  exact h.2 hsc

theorem State.ConfigInUse.effect (h : s.ConfigInUse) (heff : Effect s t) : t.ConfigInUse := by
  obtain ⟨hrun, -⟩ := id h
  cases heff with
  | host | outData | rewind | pop | resetCapture =>
    exact h.congr hrun fun hc => ⟨hc, rfl, rfl, rfl, rfl⟩
  | start hc => exact h.congr (fun _ => hc) fun hc => ⟨hc, rfl, rfl, rfl, rfl⟩
  | stop => exact h.congr nofun fun hc => ⟨hc, rfl, rfl, rfl, rfl⟩
  | config cfg tcfg hstopped =>
    refine h.congr (fun hr => ?_) nofun
    exact absurd (hstopped.symm.trans hr) nofun
  | reset => exact h.congr nofun nofun
  | configure hstopped hlegal hactive => exact ⟨fun _ => rfl, fun _ => ⟨rfl, hlegal, hactive⟩⟩
  | sample iValid m =>
    exact h.congr (by simpa using hrun) fun hc => by simpa using hc

end Configuration

/-! ## The step and the reset -/

/-- Every transaction completes (60_exceptions.md R537): whichever way an instruction with a choice goes,
it answers a next state, and the others have one answer. -/
theorem exec_completes (i : Instr) (s : State) : ∃ t, exec i s = .next t := by
  cases i
  case cmdConfigure =>
    simp only [exec, execCmdConfigure]
    split
    · exact ⟨_, rfl⟩
    · split <;> exact ⟨_, rfl⟩
  case cmdStart => simp only [exec, execCmdStart]; split <;> exact ⟨_, rfl⟩
  case cmdResetCapture => simp only [exec, execCmdResetCapture]; split <;> exact ⟨_, rfl⟩
  case cmdOutPop => simp only [exec, execCmdOutPop]; split <;> exact ⟨_, rfl⟩
  case wrSampleReal x =>
    simp only [exec, execWrSampleReal]
    split
    · exact ⟨_, rfl⟩
    · split <;> exact ⟨_, rfl⟩
  case wrSampleQ q =>
    simp only [exec, execWrSampleQ]
    split
    · exact ⟨_, rfl⟩
    · split
      · exact ⟨_, rfl⟩
      · split <;> exact ⟨_, rfl⟩
  case wrCfg k d =>
    simp only [exec, execWrCfg]
    split
    · exact ⟨_, rfl⟩
    · split <;> exact ⟨_, rfl⟩
  case wrTcfg x k d =>
    simp only [exec, execWrTcfg]
    split
    · exact ⟨_, rfl⟩
    · split <;> exact ⟨_, rfl⟩
  case rdOut k =>
    simp only [exec, execRdOut]
    split
    · exact ⟨_, rfl⟩
    · split <;> exact ⟨_, rfl⟩
  case rdOutData =>
    simp only [exec, execRdOutData]
    split
    · exact ⟨_, rfl⟩
    · split <;> exact ⟨_, rfl⟩
  all_goals exact ⟨_, rfl⟩

theorem step_nil {s : State} (h : s.inputs = []) : step s = .next s := by
  simp [step, State.takeInput, h]

theorem step_reset {s : State} {rest : List HostInput} (h : s.inputs = .reset :: rest) :
    step s = .next (State.fullReset { s with inputs := rest }) := by
  simp [step, State.takeInput, h]

theorem stepTxn_of_decode {w : Txn} {i : Instr} (h : decode w = .ok i) (s : State) :
    stepTxn w s = exec i s := by
  rw [stepTxn, h]

theorem stepTxn_completes (w : Txn) (s : State) : ∃ t, stepTxn w s = .next t := by
  unfold stepTxn
  split
  · exact exec_completes _ s
  · exact ⟨_, rfl⟩

theorem step_completes (s : State) : ∃ t, step s = .next t := by
  cases hin : s.inputs with
  | nil => exact ⟨_, step_nil hin⟩
  | cons i rest =>
    cases i with
    | txn w => rw [step_txn hin]; exact stepTxn_completes w _
    | reset => exact ⟨_, step_reset hin⟩

/-- After a full reset no row is LOCKED, so that STATUS shows LOCKED_CAND 0xF alone (R453). -/
theorem State.fullReset_statusWord (s : State) : s.fullReset.statusWord = 0x00000F00#32 := by
  have hreset : s.fullReset.statusWord = State.reset.statusWord := rfl
  rw [hreset]
  decide

/-- Every element of a full reset holds its reset value (70_reset_and_hazards.md R580). -/
theorem State.fullReset_resetValues (s : State) : s.fullReset.ResetValues := by
  refine ⟨rfl, rfl, rfl, rfl, rfl, rfl, rfl, fun x => ?tcfg, fun c => ?bank,
    State.captureReset_captureClear s.fullReset, ?status, ?irq⟩
  case tcfg => simp [State.reset, TechCfg.reset]
  case bank => simp [State.reset, BankRow.reset]
  case status => exact congrArg (fun v => Host.Outcome.next (s.fullReset.answer v)) s.fullReset_statusWord
  case irq => rfl

/-- CMD_RESET has the code 1 alone (30_encoding.md R143). -/
theorem decodeCmd_eq_cmdReset_iff {d : Word} : decodeCmd d = .cmdReset ↔ d = 1#32 := by
  refine ⟨fun h => ?_, fun h => h ▸ rfl⟩
  obtain ⟨-, -, -, hdata⟩ := decodeCmd_fits d
  rw [h] at hdata
  exact (hdata rfl).symm

/-- The state after reset holds every invariant: nothing is LOCKED, stored or queued. -/
theorem State.reset_safe : State.reset.Safe := by
  have hlock : State.reset.LockSafe := State.fullReset_lockSafe State.reset
  have hqueue : State.reset.QueueSafe := .of_empty rfl rfl
  have hstorage : State.reset.StorageSafe := .of_reset rfl rfl rfl rfl
  exact ⟨hlock.exclusive, hlock.frameMatches, hlock.betweenFrames, hlock.idleClear, hqueue.within,
    hqueue.rptr, hstorage.storages, hstorage.bytes, nofun, nofun⟩

end Sys2Proof.Machine

section
open Sys2Proof Sys2Proof.Machine

/-- Settles O58: records join at the tail, at most four by a sample for which four entries are free, and
leave from the head with RPTR cleared. -/
theorem queueInvariantKept : Obligations.QueueInvariantKept := by
  unfold Obligations.QueueInvariantKept
  intro s t hwithin hrptr hstep
  obtain ⟨h1, h2⟩ := step_keeps (P := State.QueueSafe) (fun _ _ h => h.congr rfl rfl rfl)
    (fun _ _ h => h.effect) ⟨hwithin, hrptr⟩ hstep
  exact ⟨h1, h2⟩

/-- Settles O59: a tick writes the histories at an index inside them and the byte buffer below the
frame's limit; its records hold the bytes of a frame or none. -/
theorem storageInvariantKept : Obligations.StorageInvariantKept := by
  unfold Obligations.StorageInvariantKept
  intro s t hstorages hbytes hstep
  obtain ⟨h1, h2⟩ := step_keeps (P := State.StorageSafe)
    (fun _ _ h => h.congr rfl rfl rfl rfl (fun _ => id) fun hc => ⟨hc, rfl⟩)
    (fun _ _ h => h.effect) ⟨hstorages, hbytes⟩ hstep
  exact ⟨h1, h2⟩

/-- Settles O60: CONFIGURED rises only with the bank of a legal configuration, and falls with any write
of the configuration, which RUN forbids. -/
theorem configurationInvariantKept : Obligations.ConfigurationInvariantKept := by
  unfold Obligations.ConfigurationInvariantKept
  intro s t
  exact step_keeps (P := State.ConfigInUse)
    (fun _ _ h => h.congr h.1 fun hc => ⟨hc, rfl, rfl, rfl, rfl⟩) fun _ _ h => h.effect

/-- Settles O5: a word that decodes runs its instruction. -/
theorem stepRunsDecodedTransaction : Obligations.StepRunsDecodedTransaction := by
  unfold Obligations.StepRunsDecodedTransaction
  intro s w rest i hin hdecode
  rw [step_txn hin, stepTxn_of_decode hdecode]

/-- Settles O7: no instruction stops the machine, whichever way it goes. -/
theorem everyStepCompletes : Obligations.EveryStepCompletes := by
  unfold Obligations.EveryStepCompletes
  exact ⟨step_completes, fun _ => step_nil⟩

/-- Settles O8: the command and the reset input are `State.fullReset`, whose elements are those of
`State.reset` but for the parameters and the inputs. -/
theorem fullReset : Obligations.FullReset := by
  unfold Obligations.FullReset
  refine ⟨fun d => ?command, fun s => ?exec, fun s rest hin => ?input,
    State.reset.fullReset_resetValues, rfl, rfl, rfl⟩
  case command => rw [decode_cmd, Except.ok.injEq, decodeCmd_eq_cmdReset_iff]
  case exec => exact ⟨s.fullReset, rfl, s.fullReset_resetValues, rfl, rfl⟩
  case input => exact ⟨_, step_reset hin, State.fullReset_resetValues _, rfl, rfl⟩

/-- Settles O9: the reset state has no frame, no record and an empty storage, and is not configured. -/
theorem resetIsSafe : Obligations.ResetIsSafe := by
  unfold Obligations.ResetIsSafe
  exact State.reset_safe

end

/-! PROOFS. What an instruction does, said once (`State.Runs`), and the statements over every instruction
that follow from it; the samples that are dropped, the IQ sample and the phases of a tick. -/

namespace Sys2Proof.Machine

/-! ## Selectors in range name a register (30_encoding.md R139 to R150) -/

section Selectors

theorem CondCfg.read_isSome (g : CondCfg) {k : BitVec 4} (hk : k.toNat ≤ 12) :
    (g.read k).isSome = true := by
  fun_cases CondCfg.read g k
  case case14 => simp only [imp_false] at *; omega
  all_goals rfl

theorem TechCfg.read_isSome (g : TechCfg) {k : BitVec 3} (hk : k.toNat ≤ 4) :
    (g.read k).isSome = true := by
  fun_cases TechCfg.read g k
  case case6 => simp only [imp_false] at *; omega
  all_goals rfl

theorem State.dbgWord_isSome (s : State) {k : BitVec 4} (hk : k.toNat ≤ 8) :
    (s.dbgWord k).isSome = true := by
  fun_cases State.dbgWord s k
  case case10 => simp only [imp_false] at *; omega
  all_goals rfl

theorem Timing.word_isSome (g : Timing) {k : BitVec 3} (hk : k.toNat ≤ 6) :
    (g.word k).isSome = true := by
  fun_cases Timing.word g k
  case case8 => simp only [imp_false] at *; omega
  all_goals rfl

theorem SearchState.word_isSome (g : SearchState) {k : BitVec 4} (hk : k.toNat ≤ 14) :
    (g.word k).isSome = true := by
  fun_cases SearchState.word g k
  case case16 => simp only [imp_false] at *; omega
  all_goals rfl

theorem Record.word_isSome (r : Record) (rptr : BitVec 16) {k : BitVec 4} (hk : k.toNat ≤ 8) :
    (r.word rptr k).isSome = true := by
  fun_cases Record.word r rptr k
  case case10 => simp only [imp_false] at *; omega
  all_goals rfl

end Selectors

/-! ## What an instruction does -/

/-- I_VALID after an instruction that neither latches a component nor resets: WR_SAMPLE_Q clears it
(40_signal_conditioner.md R203). -/
def State.iValidAfter (s : State) : Instr → Bool
  | .wrSampleQ _ => false
  | _ => s.iValid

/-- A read sets an error only where it is a malformed transaction, or an output read with nothing to
return (45_host_interface.md R500, R501). -/
def ReadErrorOf (i : Instr) (e : ErrBit) : Prop :=
  i.isWrite = false → i.wellFormed = true →
    e = .out ∧ ((∃ k : BitVec 4, i = .rdOut k) ∨ i = .rdOutData)

/-- What an instruction can do to `s`: the inversion of `exec` with the instruction in it. -/
inductive State.Runs (s : State) : Instr → State → Prop
  /-- A read returns a value. -/
  | read (i : Instr) (v : Word) (hread : i.isWrite = false) : s.Runs i (s.answer v)
  /-- RD_OUT_DATA returns a byte of the head record. -/
  | outData (v : Word) : s.Runs .rdOutData { s with rptr := s.rptr + 1#16, response := some v }
  /-- One ERR bit is set; a read returns 0. -/
  | error (i : Instr) (e : ErrBit) (hread : ReadErrorOf i e) :
      s.Runs i { s with
        err := s.err ||| e.mask, iValid := s.iValidAfter i,
        response := if i.isWrite then none else some 0#32 }
  /-- WR_ERR. -/
  | wrErr (d : Word) :
      s.Runs (.wrErr d) { s with err := s.err &&& ~~~(d.extractLsb' 0 8), response := none }
  /-- A write of another register of the host: interrupt enables, the history port, the latch. -/
  | hostWrite (i : Instr) (irqEn : BitVec 2) (iLatch : F32) (iValid : Bool) (histChan : BitVec 2)
      (histIndex : Word) (hwrite : i.isWrite = true) :
      s.Runs i { s with
        irqEn := irqEn, iLatch := iLatch, iValid := iValid, histChan := histChan,
        histIndex := histIndex, response := none }
  /-- An accepted WR_CFG or WR_TCFG. -/
  | config (i : Instr) (cfg : CondCfg) (tcfg : PerTech TechCfg) (hwrite : i.isWrite = true) :
      s.Runs i { s with cfg := cfg, tcfg := tcfg, configured := false, response := none }
  /-- CMD_START of a configured block, and CMD_STOP. -/
  | runStop (i : Instr) (run : Bool) (hwrite : i.isWrite = true) :
      s.Runs i { s with run := run, response := none }
  /-- CMD_OUT_REWIND. -/
  | rewind : s.Runs .cmdOutRewind { s with rptr := 0#16, response := none }
  /-- CMD_OUT_POP of a record. -/
  | pop (r : Record) (rest : List Record) (hq : s.queue = r :: rest) :
      s.Runs .cmdOutPop { s with queue := rest, rptr := 0#16, response := none }
  /-- CMD_RESET. -/
  | reset : s.Runs .cmdReset s.fullReset
  /-- CMD_RESET_CAPTURE. -/
  | resetCapture (hrun : s.run = false) : s.Runs .cmdResetCapture s.captureReset.quiet
  /-- A successful CMD_CONFIGURE. -/
  | configure (h : s.Configures) :
      s.Runs .cmdConfigure (State.captureReset
        { s with bank := bankOf s.params s.cfg, configured := true }).quiet
  /-- An accepted sample of magnitude `m`. -/
  | sample (i : Instr) (m : F32) (hwrite : i.isWrite = true) (h : s.Accepts i m) :
      s.Runs i (State.tick { s with iValid := s.iValidAfter i } m).quiet

section Runs

variable {s t : State} {i : Instr}

theorem ReadErrorOf.of_write (h : i.isWrite = true) (e : ErrBit) : ReadErrorOf i e :=
  fun hread => absurd (h.symm.trans hread) nofun

theorem ReadErrorOf.of_malformed (h : i.wellFormed = true → False) (e : ErrBit) : ReadErrorOf i e :=
  fun _ hwf => absurd hwf h

/-- A read of a block returns a value where its selectors are in range. -/
theorem State.Runs.completeRead {v : Option Word} (hread : i.isWrite = false)
    (hv : i.wellFormed = true → v.isSome = true) (hlatch : s.iValidAfter i = s.iValid) :
    s.Runs i (s.completeRead v) := by
  cases v with
  | some v => exact .read i v hread
  | none =>
    have herror := State.Runs.error (s := s) i .bus (.of_malformed (fun hwf => nomatch hv hwf) _)
    rw [hread, hlatch] at herror
    exact herror

theorem bind_isSome {α β : Type} {o : Option α} {f : α → Option β} (ho : o.isSome = true)
    (hf : ∀ a, (f a).isSome = true) : (o.bind f).isSome = true := by
  obtain ⟨a, rfl⟩ := Option.isSome_iff_exists.mp ho
  exact hf a

/-- An output read that has nothing to return. -/
theorem State.Runs.outEmpty (hread : i.isWrite = false)
    (hout : (∃ k : BitVec 4, i = .rdOut k) ∨ i = .rdOutData) (hlatch : s.iValidAfter i = s.iValid) :
    s.Runs i s.outEmpty := by
  have herror := State.Runs.error (s := s) i .out fun _ _ => ⟨rfl, hout⟩
  rw [hread, hlatch] at herror
  exact herror

theorem State.Runs.rdOut {k : BitVec 4} (h : execRdOut k s = .next t) : s.Runs (.rdOut k) t := by
  unfold execRdOut at h
  split at h
  case isTrue hk =>
    cases h
    exact .error (.rdOut k) .bus (.of_malformed (fun hwf => by simp [Instr.wellFormed] at hwf; omega) _)
  case isFalse hk =>
    split at h <;> cases h
    · exact .outEmpty rfl (.inl ⟨k, rfl⟩) rfl
    · exact .completeRead rfl (fun _ => Record.word_isSome _ _ (Nat.not_lt.mp hk)) rfl

theorem State.Runs.rdOutData (h : execRdOutData s = .next t) : s.Runs .rdOutData t := by
  unfold execRdOutData at h
  split at h
  · cases h; exact .outEmpty rfl (.inr rfl) rfl
  · split at h <;> cases h
    · exact .outEmpty rfl (.inr rfl) rfl
    · exact .outData _

/-- A write that sets one ERR bit and nothing else. -/
theorem State.Runs.raise (e : ErrBit) (hwrite : i.isWrite = true)
    (hlatch : s.iValidAfter i = s.iValid) : s.Runs i (s.raise e).quiet := by
  have herror := State.Runs.error (s := s) i e (.of_write hwrite _)
  rw [hwrite, hlatch] at herror
  exact herror

theorem State.Runs.cmdConfigure (h : execCmdConfigure s = .next t) : s.Runs .cmdConfigure t := by
  cases hrun : s.run with
  | true =>
    cases (exec_cmdConfigure_running hrun).symm.trans h
    exact .raise _ rfl rfl
  | false =>
    by_cases hok : s.LegalConfig ∧ ∃ c : Row, (bankRow s.params s.cfg c).active = true
    · cases (exec_cmdConfigure_accepted ⟨hrun, hok⟩).symm.trans h
      exact .configure ⟨hrun, hok⟩
    · cases (exec_cmdConfigure_refused hrun hok).symm.trans h
      exact .raise _ rfl rfl

theorem State.Runs.wrCfg {k : BitVec 4} {d : Word} (h : execWrCfg k d s = .next t) :
    s.Runs (.wrCfg k d) t := by
  unfold execWrCfg at h
  split at h
  · cases h; exact .raise .bus rfl rfl
  · split at h <;> cases h
    · exact .raise _ rfl rfl
    · exact .config _ _ s.tcfg rfl

theorem State.Runs.wrTcfg {x : BitVec 2} {k : BitVec 3} {d : Word}
    (h : execWrTcfg x k d s = .next t) : s.Runs (.wrTcfg x k d) t := by
  unfold execWrTcfg at h
  split at h
  · cases h; exact .raise .bus rfl rfl
  · split at h <;> cases h
    · exact .raise _ rfl rfl
    · exact .config _ s.cfg _ rfl

theorem State.Runs.wrSampleReal {x : F32} (h : execWrSampleReal x s = .next t) :
    s.Runs (.wrSampleReal x) t := by
  unfold execWrSampleReal at h
  split at h
  · cases h; exact .raise _ rfl rfl
  · split at h <;> cases h
    · exact .raise _ rfl rfl
    · rename_i hready hfinite
      obtain ⟨hrun, hconf, hroom⟩ := s.ready_iff.mp (by simpa using hready)
      exact .sample _ _ rfl ⟨hrun, hconf, hroom, .inl ⟨x, rfl, by simpa using hfinite, rfl⟩⟩

theorem State.Runs.wrSampleQ {q : F32} (h : execWrSampleQ q s = .next t) :
    s.Runs (.wrSampleQ q) t := by
  have hdrop (e : ErrBit) : s.Runs (.wrSampleQ q) (State.raise { s with iValid := false } e).quiet :=
    .error (.wrSampleQ q) e (.of_write rfl _)
  unfold execWrSampleQ at h
  dsimp only at h
  split at h
  · cases h; exact hdrop _
  · split at h
    · cases h; exact hdrop _
    · split at h <;> cases h
      · exact hdrop _
      · rename_i hready hvalid hfinite
        obtain ⟨hrun, hconf, hroom⟩ := s.ready_iff.mp (by simpa using hready)
        obtain ⟨hi, hq, hm⟩ : isfinite s.iLatch = true ∧ isfinite q = true
            ∧ isfinite (iqMagnitude s.iLatch q) = true := by simpa [and_assoc] using hfinite
        exact .sample (.wrSampleQ q) _ rfl
          ⟨hrun, hconf, hroom, .inr ⟨q, rfl, by simpa using hvalid, hi, hq, hm, rfl⟩⟩

/-- Whatever an instruction answers is what it can do. -/
theorem exec_runs (h : exec i s = .next t) : s.Runs i t := by
  cases i
  case cmdReset => cases h; exact .reset
  case cmdConfigure => exact .cmdConfigure h
  case cmdStart =>
    cases hconf : s.configured with
    | true => cases (exec_cmdStart_configured hconf).symm.trans h; exact .runStop _ true rfl
    | false => cases (exec_cmdStart_unconfigured hconf).symm.trans h; exact .raise _ rfl rfl
  case cmdStop => cases h; exact .runStop _ false rfl
  case cmdResetCapture =>
    cases hrun : s.run with
    | true => cases (exec_cmdResetCapture_running hrun).symm.trans h; exact .raise _ rfl rfl
    | false => cases (exec_cmdResetCapture_stopped hrun).symm.trans h; exact .resetCapture hrun
  case cmdOutPop =>
    cases hq : s.queue with
    | nil => cases (exec_cmdOutPop_empty hq).symm.trans h; exact .raise _ rfl rfl
    | cons r rest => cases (exec_cmdOutPop_head hq).symm.trans h; exact .pop r rest hq
  case cmdOutRewind => cases h; exact .rewind
  case cmdReserved d => cases h; exact .raise _ rfl rfl
  case wrErr d => cases h; exact .wrErr d
  case wrIrqEn d => cases h; exact .hostWrite _ _ s.iLatch s.iValid s.histChan s.histIndex rfl
  case wrHistChan d => cases h; exact .hostWrite _ s.irqEn s.iLatch s.iValid _ s.histIndex rfl
  case wrHistIndex d => cases h; exact .hostWrite _ s.irqEn s.iLatch s.iValid s.histChan _ rfl
  case wrSampleI x => cases h; exact .hostWrite _ s.irqEn _ _ s.histChan s.histIndex rfl
  case wrSampleReal x => exact .wrSampleReal h
  case wrSampleQ q => exact .wrSampleQ h
  case wrCfg k d => exact .wrCfg h
  case wrTcfg x k d => exact .wrTcfg h
  case rdCfg k =>
    cases h; exact .completeRead rfl (fun hwf => s.cfg.read_isSome (of_decide_eq_true hwf)) rfl
  case rdDbg k =>
    cases h; exact .completeRead rfl (fun hwf => s.dbgWord_isSome (of_decide_eq_true hwf)) rfl
  case rdTcfg x k =>
    cases h
    refine .completeRead rfl (fun hwf => ?_) rfl
    obtain ⟨hx, hk⟩ : x.toNat ≤ 2 ∧ k.toNat ≤ 4 := by simpa [Instr.wellFormed] using hwf
    exact bind_isSome (by rw [Tech.ofCode_isSome, decide_eq_true hx]) fun _ => TechCfg.read_isSome _ hk
  case rdTstat x k =>
    cases h
    refine .completeRead rfl (fun hwf => ?_) rfl
    obtain ⟨hx, hk⟩ : x.toNat ≤ 2 ∧ k.toNat ≤ 6 := by simpa [Instr.wellFormed] using hwf
    exact bind_isSome (by rw [Tech.ofCode_isSome, decide_eq_true hx]) fun _ => Timing.word_isSome _ hk
  case rdCand c k =>
    cases h
    exact .completeRead rfl (fun hwf => by rw [Option.isSome_map, Row.ofCode_isSome]; exact hwf) rfl
  case rdSs c k =>
    cases h
    refine .completeRead rfl (fun hwf => ?_) rfl
    obtain ⟨hc, hk⟩ : c.toNat ≤ 10 ∧ k.toNat ≤ 14 := by simpa [Instr.wellFormed] using hwf
    exact bind_isSome (by rw [Row.ofCode_isSome, decide_eq_true hc])
      fun _ => SearchState.word_isSome _ hk
  case rdOut k => exact .rdOut h
  case rdOutData => exact .rdOutData h
  all_goals cases h; exact .read _ _ rfl

end Runs

/-! ## ERR (60_exceptions.md R531, R532) -/

theorem ErrBit.index_lt (e : ErrBit) : e.index < 8 := by cases e <;> decide

/-- Where a bit of ERR rises an error is set, and nothing else but it happens (R532). -/
theorem State.Runs.error_of_rise {s t : State} {i : Instr} (h : s.Runs i t) {j : Nat}
    (hbefore : s.err.getLsbD j = false) (hafter : t.err.getLsbD j = true) :
    ∃ e : ErrBit, ReadErrorOf i e ∧ t = { s with
      err := s.err ||| e.mask, iValid := s.iValidAfter i,
      response := if i.isWrite then none else some 0#32 } := by
  cases h with
  | error _ e hread => exact ⟨e, hread, rfl⟩
  | read | outData | hostWrite | config | runStop | rewind | pop | resetCapture | configure =>
    exact absurd (hbefore.symm.trans hafter) nofun
  | wrErr d => simp [hbefore] at hafter
  | reset => simp [State.reset] at hafter
  | sample _ m =>
    rw [State.quiet_err, State.tick_err] at hafter
    exact absurd (hbefore.symm.trans hafter) nofun

/-- A bit of ERR falls only where the host clears it (R531). -/
theorem State.Runs.cleared_of_fall {s t : State} {i : Instr} (h : s.Runs i t) {j : Nat}
    (hbefore : s.err.getLsbD j = true) (hafter : t.err.getLsbD j = false) :
    i = .cmdReset ∨ ∃ d : Word, i = .wrErr d ∧ d.getLsbD j = true := by
  cases h with
  | reset => exact .inl rfl
  | wrErr d =>
    have hj : j < 8 := BitVec.lt_of_getLsbD hbefore
    refine .inr ⟨d, rfl, ?_⟩
    simpa [hbefore, hj] using hafter
  | error => simp [hbefore] at hafter
  | read | outData | hostWrite | config | runStop | rewind | pop | resetCapture | configure =>
    exact absurd (hbefore.symm.trans hafter) nofun
  | sample _ m =>
    rw [State.quiet_err, State.tick_err] at hafter
    exact absurd (hbefore.symm.trans hafter) nofun

end Sys2Proof.Machine

section
open Sys2Proof Sys2Proof.Machine

/-- Settles O52: of what an instruction can do, only a sample, CMD_OUT_POP and the resets touch the
queue. -/
theorem queueOrder : Obligations.QueueOrder := by
  unfold Obligations.QueueOrder
  intro i s t h
  cases exec_runs h with
  | read | outData | error | wrErr | hostWrite | config | runStop | rewind => exact .inl rfl
  | sample _ m _ haccepts => exact .inr (.inl ⟨⟨m, haccepts⟩, State.tick_queue _ m⟩)
  | pop r rest hq => exact .inr (.inr (.inl ⟨rfl, r, hq⟩))
  | reset => exact .inr (.inr (.inr ⟨.inl rfl, rfl⟩))
  | resetCapture hrun => exact .inr (.inr (.inr ⟨.inr (.inl ⟨rfl, hrun⟩), rfl⟩))
  | configure hok => exact .inr (.inr (.inr ⟨.inr (.inr ⟨rfl, hok⟩), rfl⟩))

/-- Settles O53: of what an instruction can do, only the full reset and WR_ERR clear a bit of ERR. -/
theorem errorsAreSticky : Obligations.ErrorsAreSticky := by
  unfold Obligations.ErrorsAreSticky
  exact fun _ _ _ _ h => (exec_runs h).cleared_of_fall

/-- Settles O54: a rising bit is that of an error, whose effect is stated whole. -/
theorem oneErrorPerTransaction : Obligations.OneErrorPerTransaction := by
  unfold Obligations.OneErrorPerTransaction
  rintro i s t - h ⟨j, hbefore, hafter⟩
  obtain ⟨e, -, rfl⟩ := (exec_runs h).error_of_rise hbefore hafter
  refine ⟨e.index, e.index_lt, ?_⟩
  cases i <;> rfl

/-- Settles O55: a read returns a value, or a byte with RPTR advanced, or has nothing to return. -/
theorem readsHaveNoSideEffects : Obligations.ReadsHaveNoSideEffects := by
  unfold Obligations.ReadsHaveNoSideEffects
  intro i s t hwf hread h
  cases exec_runs h with
  | read _ v => exact ⟨v, .inl rfl⟩
  | outData v => exact ⟨v, .inr (.inl ⟨rfl, rfl⟩)⟩
  | error _ e herror =>
    obtain ⟨rfl, hout⟩ := herror hread hwf
    refine ⟨0#32, .inr (.inr ⟨hout, ?_⟩)⟩
    rcases hout with ⟨k, rfl⟩ | rfl <;> rfl
  | hostWrite _ _ _ _ _ _ hwrite | config _ _ _ hwrite | runStop _ _ hwrite | sample _ _ hwrite =>
    exact absurd (hwrite.symm.trans hread) nofun
  | wrErr | rewind | pop | reset | resetCapture | configure => cases hread

/-- Settles O56: of what an instruction can do, only a sample and the resets touch the pipeline, and only
the full reset and CMD_CONFIGURE the bank. -/
theorem pipelineMovesOnlyInTicks : Obligations.PipelineMovesOnlyInTicks := by
  unfold Obligations.PipelineMovesOnlyInTicks
  intro i s t h
  cases exec_runs h with
  | read | outData | error | wrErr | hostWrite | config | runStop | rewind | pop =>
    exact ⟨.inr (.inr (.inr (.inr ⟨rfl, rfl, rfl, rfl, rfl, rfl⟩))), .inr (.inr rfl), rfl, rfl⟩
  | sample _ m _ haccepts =>
    exact ⟨.inl ⟨m, haccepts⟩, .inr (.inr (State.tick_bank _ m)), State.tick_params _ m,
      State.tick_inputs _ m⟩
  | reset => exact ⟨.inr (.inl rfl), .inl rfl, rfl, rfl⟩
  | resetCapture hrun => exact ⟨.inr (.inr (.inl ⟨rfl, hrun⟩)), .inr (.inr rfl), rfl, rfl⟩
  | configure hok =>
    exact ⟨.inr (.inr (.inr (.inl ⟨rfl, hok⟩))), .inr (.inl ⟨rfl, hok⟩), rfl, rfl⟩

end

/-! PROOFS. The sample instructions and the first phases of a tick (40_signal_conditioner.md). -/

namespace Sys2Proof.Machine

/-! ## Samples that are dropped and samples that tick (R203 to R205) -/

section Samples

variable {s : State} {x q : F32}

theorem exec_wrSampleReal_notReady (h : s.ready = false) :
    exec (.wrSampleReal x) s = .next (s.raise .notReady).quiet :=
  if_pos (by rw [h]; rfl)

theorem exec_wrSampleReal_nonfinite (hready : s.ready = true) (h : isfinite x = false) :
    exec (.wrSampleReal x) s = .next (s.raise .nonfinite).quiet := by
  simp [exec, execWrSampleReal, hready, h]

theorem exec_wrSampleQ_notReady (h : s.ready = false) :
    exec (.wrSampleQ q) s = .next (State.raise { s with iValid := false } .notReady).quiet := by
  simp [exec, execWrSampleQ, h]

theorem exec_wrSampleQ_noI (hready : s.ready = true) (h : s.iValid = false) :
    exec (.wrSampleQ q) s = .next (State.raise { s with iValid := false } .iqSeq).quiet := by
  simp [exec, execWrSampleQ, hready, h]

theorem exec_wrSampleQ_nonfinite (hready : s.ready = true) (hvalid : s.iValid = true)
    (h : isfinite s.iLatch = false ∨ isfinite q = false
      ∨ isfinite (iqMagnitude s.iLatch q) = false) :
    exec (.wrSampleQ q) s = .next (State.raise { s with iValid := false } .nonfinite).quiet := by
  have hall : (isfinite s.iLatch && isfinite q && isfinite (iqMagnitude s.iLatch q)) = false := by
    rcases h with h | h | h <;> simp [h]
  simp only [exec, execWrSampleQ, hready, hvalid, hall, Bool.not_true, Bool.not_false, if_true,
    Bool.false_eq_true, if_false]

theorem exec_wrSampleQ_of_ready (hready : s.ready = true) (hvalid : s.iValid = true)
    (hi : isfinite s.iLatch = true) (hq : isfinite q = true)
    (hm : isfinite (iqMagnitude s.iLatch q) = true) :
    exec (.wrSampleQ q) s =
      .next (State.tick { s with iValid := false } (iqMagnitude s.iLatch q)).quiet := by
  simp [exec, execWrSampleQ, hready, hvalid, hi, hq, hm]

end Samples

/-! ## The guards of phases 1 to 3 (44_frame_assembler.md R408) -/

section Guards

variable {s : State}

/-- Clearing EXPECT of a technology leaves every guard. -/
theorem State.unexpect_guards (s : State) (x y : Tech) :
    ((s.unexpect x).tim.get y).guardPoll = (s.tim.get y).guardPoll
      ∧ ((s.unexpect x).tim.get y).guardListen = (s.tim.get y).guardListen := by
  rw [State.unexpect_tim]
  by_cases hy : y = x
  · rw [hy, PerTech.get_set_same]; exact ⟨rfl, rfl⟩
  · rw [PerTech.get_set_other _ _ hy]; exact ⟨rfl, rfl⟩

theorem State.timeoutCheck_guards (s : State) (x y : Tech) :
    ((s.timeoutCheck x).tim.get y).guardPoll = (s.tim.get y).guardPoll
      ∧ ((s.timeoutCheck x).tim.get y).guardListen = (s.tim.get y).guardListen := by
  unfold State.timeoutCheck
  split
  · exact State.unexpect_guards (s.push (s.timeoutRecord x s.sig.clock)) x y
  · exact ⟨rfl, rfl⟩

theorem State.timeouts_guards (s : State) (y : Tech) :
    (s.timeouts.tim.get y).guardPoll = (s.tim.get y).guardPoll
      ∧ (s.timeouts.tim.get y).guardListen = (s.tim.get y).guardListen := by
  obtain ⟨ha, ha'⟩ := s.timeoutCheck_guards .a y
  obtain ⟨hb, hb'⟩ := (s.timeoutCheck .a).timeoutCheck_guards .b y
  obtain ⟨hv, hv'⟩ := ((s.timeoutCheck .a).timeoutCheck .b).timeoutCheck_guards .v y
  exact ⟨hv.trans (hb.trans ha), hv'.trans (hb'.trans ha')⟩

/-- The guards after phases 1 to 3 are those of phase 1: phases 2 and 3 leave them. -/
theorem State.tickFront_guards (s : State) (m : F32) (y : Tech) :
    ((s.tickFront m).tim.get y).guardPoll = (s.startupPhase.tim.get y).guardPoll
      ∧ ((s.tickFront m).tim.get y).guardListen = (s.startupPhase.tim.get y).guardListen :=
  (s.startupPhase.conditioner m).timeouts_guards y

theorem State.startupPhase_of_zero (h : s.sig.clock = 0#64) : s.startupPhase = s.startupGuard :=
  if_pos h

theorem State.startupPhase_of_ne (h : s.sig.clock ≠ 0#64) : s.startupPhase = s := if_neg h

theorem State.startupGuard_guards (s : State) (y : Tech) :
    (s.startupGuard.tim.get y).guardPoll = (s.tcfg.get y).startupGuardTime.setWidth 64
      ∧ (s.startupGuard.tim.get y).guardListen = (s.tcfg.get y).startupGuardTime.setWidth 64 := by
  rw [State.startupGuard_tim, PerTech.get_build]
  exact ⟨rfl, rfl⟩

end Guards

end Sys2Proof.Machine

section
open Sys2Proof Sys2Proof.Machine

/-- Settles O31: READY, then I_VALID, then the finiteness of the components decide, each leading to the
one error. -/
theorem droppedSamples : Obligations.DroppedSamples := by
  unfold Obligations.DroppedSamples
  intro s
  dsimp only
  rw [← s.ready_iff, Bool.not_eq_true]
  exact ⟨fun _ => exec_wrSampleReal_notReady, fun _ => exec_wrSampleReal_nonfinite,
    fun _ => exec_wrSampleQ_notReady, fun _ => exec_wrSampleQ_noI,
    fun _ => exec_wrSampleQ_nonfinite⟩

/-- Settles O33: READY, the latched component and finite values leave only the tick of the state whose
latch is cleared, and the tick's lemmas say the rest. -/
theorem iqSample : Obligations.IqSample := by
  unfold Obligations.IqSample
  refine ⟨writesAs_wrSampleQ, ?_⟩
  rintro s q m hrun hconf hroom hvalid hi hq rfl hm
  have hready : s.ready = true := s.ready_iff.mpr ⟨hrun, hconf, hroom⟩
  have hkeeps := State.tick_keeps { s with iValid := false } (iqMagnitude s.iLatch q)
  refine ⟨_, exec_wrSampleQ_of_ready hready hvalid hi hq hm, rfl,
    State.tick_conditions { s with iValid := false } _, ?histories, hkeeps, State.tick_iValid _ _, rfl⟩
  rintro ⟨hchannels, -⟩
  exact State.tick_historiesAdvance (s := { s with iValid := false }) _ fun chan =>
    (hchannels chan).1

/-- Settles O34: the order is the definition of a tick; the guards are set by phase 1, at clock 0
alone. -/
theorem startupGuard : Obligations.StartupGuard := by
  unfold Obligations.StartupGuard
  refine ⟨fun s m => ⟨rfl, rfl⟩, fun s m x => ?_⟩
  obtain ⟨hpoll, hlisten⟩ := s.tickFront_guards m x
  rw [hpoll, hlisten]
  refine ⟨fun hzero => ?zero, fun hne => ?later⟩
  case zero => rw [State.startupPhase_of_zero hzero]; exact s.startupGuard_guards x
  case later => rw [State.startupPhase_of_ne hne]; exact ⟨rfl, rfl⟩

end

/-! PROOFS. The correlation functions (42_symbol_correlator.md R282 to R284) and the sums they fold
(40_signal_conditioner.md R220). -/

namespace Sys2Proof.Machine

/-! ## `deepsum` (R220) -/

theorem State.deepsumFrom_eq_foldl (s : State) (n : Nat) (k : Clock) (acc : F32) :
    s.deepsumFrom n k acc =
      (List.range n).foldl (fun acc j => f32add acc (f32abs (s.deep (k + BitVec.ofNat 64 j)))) acc := by
  induction n generalizing k acc with
  | zero => rfl
  | succ n ih =>
    have hshift (j : Nat) : k + 1#64 + BitVec.ofNat 64 j = k + BitVec.ofNat 64 (j + 1) := by
      rw [BitVec.add_assoc, BitVec.ofNat_add, BitVec.add_comm 1#64]
    rw [State.deepsumFrom, ih, List.range_succ_eq_map, List.foldl_cons, List.foldl_map]
    simp only [hshift, BitVec.add_zero]

theorem State.deep_eq (s : State) (k : Clock) :
    s.deep k = Memory.read s.hist.hdeep (k.toNat % s.params.histSize) := by
  rw [State.deep, ringIndex_eq_mod]

/-! ## Comparisons that hold say that their operands are numbers (00_scope.md R12) -/

theorem not_isNaN_of_f32gt {a b : F32} (h : f32gt a b = true) : isNaN a = false := by
  simp only [f32gt, Bool.and_eq_true, Bool.not_eq_true'] at h
  exact h.1.1

/-! ## The evaluation by coding -/

section Eval

variable {s : State} {c : Row} {t : Clock} {thr : F32} {mode : EvalMode}

theorem State.eval_half (h : HalfCoding c.coding) :
    s.eval c t thr mode = s.evalHalf (s.bank.get c) t thr := by
  unfold State.eval
  rcases h with h | h <;> rw [h]

theorem State.eval_nrz (h : c.coding = .nrz) :
    s.eval c t thr mode = s.evalNrz (s.bank.get c) t thr mode := by
  rw [State.eval, h]

theorem State.eval_ppm4 (h : c.coding = .ppm4) :
    s.eval c t thr mode = s.evalPpm4 (s.bank.get c) t thr := by
  rw [State.eval, h]

theorem State.evalNrz_valid (s : State) (b : BankRow) (t : Clock) (thr : F32) (mode : EvalMode) :
    (s.evalNrz b t thr mode).valid =
      (decide (mode = .track)
        || (f32ge (s.evalNrz b t thr mode).s0 (s.evalNrz b t thr mode).s1
          && f32gt (s.evalNrz b t thr mode).s0 f32zero)) := by
  cases mode <;> rfl

end Eval

/-! ## The slots of PPM4 (R284) -/

section Slots

variable {a b c : F32} {o : SlotSums}

theorem f32max_spec (ha : isNaN a = false) (hb : isNaN b = false) :
    (f32max a b = a ∨ f32max a b = b) ∧ f32key a ≤ f32key (f32max a b)
      ∧ f32key b ≤ f32key (f32max a b) := by
  unfold f32max
  split
  case isTrue h => exact ⟨.inr rfl, ((f32gt_iff hb ha).mp h).le, le_rfl⟩
  case isFalse h => exact ⟨.inl rfl, le_rfl, not_lt.mp fun hlt => h ((f32gt_iff hb ha).mpr hlt)⟩

/-- The greatest of three numbers is one of them and at least each of them. -/
theorem greatest3_spec (ha : isNaN a = false) (hb : isNaN b = false) (hc : isNaN c = false) :
    (greatest3 a b c = a ∨ greatest3 a b c = b ∨ greatest3 a b c = c)
      ∧ f32ge (greatest3 a b c) a = true ∧ f32ge (greatest3 a b c) b = true
      ∧ f32ge (greatest3 a b c) c = true := by
  have hmax : greatest3 a b c = f32max (f32max a b) c := if_neg (by simp [ha, hb, hc])
  obtain ⟨hab, hkeya, hkeyb⟩ := f32max_spec ha hb
  have habnum : isNaN (f32max a b) = false := by rcases hab with h | h <;> rw [h] <;> assumption
  obtain ⟨habc, hkeyab, hkeyc⟩ := f32max_spec habnum hc
  have hnum : isNaN (f32max (f32max a b) c) = false := by
    rcases habc with h | h <;> rw [h] <;> assumption
  rw [hmax, f32ge_iff hnum ha, f32ge_iff hnum hb, f32ge_iff hnum hc]
  refine ⟨?_, hkeya.trans hkeyab, hkeyb.trans hkeyab, hkeyc⟩
  rcases habc with h | h
  · rw [h]; exact hab.imp_right .inl
  · exact .inr (.inr h)

theorem forall_slot {P : BitVec 2 → Prop} : (∀ j, P j) ↔ P 0#2 ∧ P 1#2 ∧ P 2#2 ∧ P 3#2 := by
  refine ⟨fun h => ⟨h _, h _, h _, h _⟩, fun ⟨h0, h1, h2, h3⟩ j => ?_⟩
  have hj : j = 0#2 ∨ j = 1#2 ∨ j = 2#2 ∨ j = 3#2 := by bv_omega
  rcases hj with rfl | rfl | rfl | rfl <;> assumption

/-- Slot `b` is the first of greatest sum, in the comparisons of R284. -/
def SlotSums.IsBest (o : SlotSums) (b : BitVec 2) : Prop :=
  (∀ j : BitVec 2, j.toNat < b.toNat → f32gt (o.get b) (o.get j) = true)
    ∧ ∀ j : BitVec 2, b.toNat < j.toNat → f32ge (o.get b) (o.get j) = true

/-- Where the sums are numbers some slot is the best, and it is the one the model finds. -/
theorem SlotSums.best_isBest (hnum : ∀ j : BitVec 2, isNaN (o.get j) = false) :
    o.IsBest o.best := by
  simp only [SlotSums.IsBest, f32gt_iff (hnum _) (hnum _), f32ge_iff (hnum _) (hnum _)]
  obtain ⟨h0, h1, h2, h3⟩ := forall_slot.mp hnum
  replace h0 : isNaN o.o0 = false := h0
  replace h1 : isNaN o.o1 = false := h1
  replace h2 : isNaN o.o2 = false := h2
  replace h3 : isNaN o.o3 = false := h3
  unfold SlotSums.best
  simp only [f32ge_iff, f32gt_iff, h0, h1, h2, h3, Bool.and_eq_true, forall_slot]
  split_ifs with hzero hone htwo hthree
  · simpa [SlotSums.get, and_assoc] using hzero
  · simpa [SlotSums.get, and_assoc] using hone
  · simpa [SlotSums.get, and_assoc] using htwo
  · simpa [SlotSums.get, and_assoc] using hthree
  · exfalso; omega

/-- The greatest of three slots that are all but `b`. -/
theorem SlotSums.greatest_of_others (hnum : ∀ j : BitVec 2, isNaN (o.get j) = false)
    {b i j k : BitVec 2} (hothers : ∀ x, x ≠ b ↔ x = i ∨ x = j ∨ x = k) :
    let d := greatest3 (o.get i) (o.get j) (o.get k)
    (∃ x, x ≠ b ∧ d = o.get x) ∧ ∀ x, x ≠ b → f32ge d (o.get x) = true := by
  obtain ⟨hone, hi, hj, hk⟩ := greatest3_spec (hnum i) (hnum j) (hnum k)
  simp only [hothers]
  refine ⟨?_, fun x hx => by rcases hx with rfl | rfl | rfl <;> assumption⟩
  rcases hone with h | h | h
  · exact ⟨i, .inl rfl, h⟩
  · exact ⟨j, .inr (.inl rfl), h⟩
  · exact ⟨k, .inr (.inr rfl), h⟩

/-- `second` is the greatest sum of the other slots, where the sums are numbers. -/
theorem SlotSums.second_spec (hnum : ∀ j : BitVec 2, isNaN (o.get j) = false) (b : BitVec 2) :
    (∃ j, j ≠ b ∧ o.second b = o.get j) ∧ ∀ j, j ≠ b → f32ge (o.second b) (o.get j) = true := by
  revert b
  rw [forall_slot]
  exact ⟨SlotSums.greatest_of_others hnum (b := 0#2) (i := 1#2) (j := 2#2) (k := 3#2) (by decide),
    SlotSums.greatest_of_others hnum (b := 1#2) (i := 0#2) (j := 2#2) (k := 3#2) (by decide),
    SlotSums.greatest_of_others hnum (b := 2#2) (i := 0#2) (j := 1#2) (k := 3#2) (by decide),
    SlotSums.greatest_of_others hnum (b := 3#2) (i := 0#2) (j := 1#2) (k := 2#2) (by decide)⟩

/-- The slot sums of an evaluation, by slot. -/
def State.slotSums (s : State) (b : BankRow) (t : Clock) : SlotSums :=
  ⟨s.slotSum b t 0, s.slotSum b t 1, s.slotSum b t 2, s.slotSum b t 3⟩

theorem State.slotSums_get (s : State) (b : BankRow) (t : Clock) {j : Nat} (hj : j < 4) :
    (s.slotSums b t).get (BitVec.ofNat 2 j) = s.slotSum b t j := by
  interval_cases j <;> rfl

theorem State.slotSums_get_toNat (s : State) (b : BankRow) (t : Clock) (j : BitVec 2) :
    (s.slotSums b t).get j = s.slotSum b t j.toNat := by
  rw [← s.slotSums_get b t j.isLt, BitVec.ofNat_toNat, BitVec.setWidth_eq]

theorem Pattern.ppm_code (j : BitVec 2) : (Pattern.ppm j).code.toNat = 8 + j.toNat := by
  revert j; decide

/-- The PPM4 evaluation in the words of R284, where the slot sums are numbers. -/
theorem State.evalPpm4_slots {s : State} {b : BankRow} {t : Clock} (thr : F32)
    (hnum : ∀ j : Nat, j < 4 → isNaN (s.slotSum b t j) = false) :
    ∃ best : Nat, best < 4
      ∧ (∀ j : Nat, j < best → f32gt (s.slotSum b t best) (s.slotSum b t j) = true)
      ∧ (∀ j : Nat, best < j → j < 4 → f32ge (s.slotSum b t best) (s.slotSum b t j) = true)
      ∧ (s.evalPpm4 b t thr).pat = Pattern.ppm (BitVec.ofNat 2 best)
      ∧ (s.evalPpm4 b t thr).pat.code.toNat = 8 + best
      ∧ (s.evalPpm4 b t thr).s0 = s.slotSum b t best
      ∧ (∃ j : Nat, j < 4 ∧ j ≠ best ∧ (s.evalPpm4 b t thr).s1 = s.slotSum b t j)
      ∧ ∀ j : Nat, j < 4 → j ≠ best → f32ge (s.evalPpm4 b t thr).s1 (s.slotSum b t j) = true := by
  have hget := s.slotSums_get_toNat b t
  have hgetnum (j : BitVec 2) : isNaN ((s.slotSums b t).get j) = false := by
    rw [hget]; exact hnum j.toNat j.isLt
  have hslot {j : Nat} (hj : j < 4) : (BitVec.ofNat 2 j).toNat = j := Nat.mod_eq_of_lt hj
  obtain ⟨hbefore, hafter⟩ := SlotSums.best_isBest hgetnum
  obtain ⟨⟨i, hi, hsecond⟩, hothers⟩ := SlotSums.second_spec hgetnum (s.slotSums b t).best
  have hbest : (s.slotSums b t).best.toNat < 4 := BitVec.isLt _
  have hpat : (s.evalPpm4 b t thr).pat = Pattern.ppm (s.slotSums b t).best := rfl
  refine ⟨(s.slotSums b t).best.toNat, hbest, fun j hj => ?before, fun j hj hj4 => ?after, ?pat, ?code,
    hget _, ⟨i.toNat, i.isLt, fun h => hi (BitVec.eq_of_toNat_eq h), hsecond.trans (hget i)⟩,
    fun j hj4 hj => ?others⟩
  case before =>
    have hj4 := hj.trans hbest
    have := hbefore (BitVec.ofNat 2 j) (by rwa [hslot hj4])
    rwa [hget, s.slotSums_get b t hj4] at this
  case after =>
    have := hafter (BitVec.ofNat 2 j) (by rwa [hslot hj4])
    rwa [hget, s.slotSums_get b t hj4] at this
  case pat => rw [hpat, BitVec.ofNat_toNat, BitVec.setWidth_eq]
  case code => rw [hpat, Pattern.ppm_code]
  case others =>
    have := hothers (BitVec.ofNat 2 j) fun h => hj (by rw [← h, hslot hj4])
    rwa [s.slotSums_get b t hj4] at this

end Slots

/-- A valid evaluation has strength above 0, but for NRZ in TRACK mode (R285, R283). -/
theorem State.eval_positive {s : State} {c : Row} {t : Clock} {thr : F32} {mode : EvalMode}
    (hmode : c.coding ≠ .nrz ∨ mode = .acquire) (hvalid : (s.eval c t thr mode).valid = true) :
    f32gt (s.eval c t thr mode).strength f32zero = true := by
  have hhalf (h : HalfCoding c.coding) : f32gt (s.eval c t thr mode).strength f32zero = true := by
    rw [State.eval_half h] at hvalid ⊢
    exact (Bool.and_eq_true_iff.mp hvalid).2
  cases hcoding : c.coding with
  | miller => exact hhalf (.inl hcoding)
  | manchester => exact hhalf (.inr hcoding)
  | nrz =>
    rw [State.eval_nrz hcoding, hmode.resolve_left fun h => h hcoding] at hvalid ⊢
    exact (Bool.and_eq_true_iff.mp hvalid).2
  | ppm4 =>
    rw [State.eval_ppm4 hcoding] at hvalid ⊢
    exact (Bool.and_eq_true_iff.mp hvalid).2

end Sys2Proof.Machine

section
open Sys2Proof Sys2Proof.Machine

/-- Settles O37: the recursion of `deepsum` is a fold from the oldest clock, and the entry of a clock is
its remainder. -/
theorem deepsumFold : Obligations.DeepsumFold := by
  unfold Obligations.DeepsumFold
  exact ⟨fun s k0 n => s.deepsumFrom_eq_foldl n k0 f32zero,
    fun s k => ⟨s.deep_eq k, Nat.mod_lt _ (Nat.two_pow_pos _)⟩⟩

/-- Settles O38: the coding chooses the function; the slot of PPM4 is `SlotSums.best`, and `second` the
greatest of the others. A valid evaluation but an NRZ one in TRACK mode has passed `> 0`. -/
theorem validStrengthIsPositive : Obligations.ValidStrengthIsPositive := by
  unfold Obligations.ValidStrengthIsPositive
  intro s c t thr mode
  dsimp only
  refine ⟨fun hhalf => ?half, fun hnrz => ?nrz, fun hppm => ?ppm, fun hmode hvalid => ?positive,
    fun hnrz htrack => ?track⟩
  case half => rw [State.eval_half hhalf]; exact ⟨rfl, rfl, rfl, rfl, rfl⟩
  case nrz => rw [State.eval_nrz hnrz]; exact ⟨rfl, rfl, rfl, State.evalNrz_valid s _ t thr mode, rfl⟩
  case ppm =>
    rw [State.eval_ppm4 hppm]
    exact ⟨rfl, rfl, State.evalPpm4_slots thr⟩
  case positive =>
    have hpos := State.eval_positive hmode hvalid
    exact ⟨not_isNaN_of_f32gt hpos, hpos⟩
  case track => rw [State.eval_nrz hnrz, State.evalNrz_valid, htrack]; rfl

end

/-! PROOFS. Whom a tick locks (42_symbol_correlator.md R294, R295), and whether it starts the search of an
IDLE candidate (R287). -/

namespace Sys2Proof.Machine

/-! ## The winner of an arbitration (R295) -/

section Winner

variable {s : State} {a b c : F32} {best r w : Row × Symbol} {rest : List (Row × Symbol)}

theorem f32gt_eq_true_iff :
    f32gt a b = true ↔ isNaN a = false ∧ isNaN b = false ∧ f32key b < f32key a := by
  simp [f32gt, and_assoc]

theorem f32eq_eq_true_iff :
    f32eq a b = true ↔ isNaN a = false ∧ isNaN b = false ∧ f32key a = f32key b := by
  simp [f32eq, and_assoc]

theorem f32gt_trans (hab : f32gt a b = true) (hbc : f32gt b c = true) : f32gt a c = true := by
  rw [f32gt_eq_true_iff] at *
  exact ⟨hab.1, hbc.2.1, hbc.2.2.trans hab.2.2⟩

theorem f32gt_asymm (hab : f32gt a b = true) : f32gt b a = false := by
  rw [← Bool.not_eq_true, f32gt_eq_true_iff]
  rw [f32gt_eq_true_iff] at hab
  omega

theorem f32gt_irrefl (a : F32) : f32gt a a = false := by
  rw [← Bool.not_eq_true, f32gt_eq_true_iff]
  omega

theorem f32gt_of_eq_of_gt (hab : f32eq a b = true) (hbc : f32gt b c = true) : f32gt a c = true := by
  rw [f32eq_eq_true_iff] at hab
  rw [f32gt_eq_true_iff] at *
  exact ⟨hab.1, hbc.2.1, by omega⟩

/-- Among `best` and `rest`, in row order, `w` is the winner: none outscores it, and those that score the
same are no earlier rows. It is `best` or outscores it, so that a NaN score of `best` stands. -/
structure State.Wins (s : State) (best : Row × Symbol) (rest : List (Row × Symbol))
    (w : Row × Symbol) : Prop where
  mem : w ∈ best :: rest
  above : w = best ∨ f32gt (s.score w.1) (s.score best.1) = true
  greatest : ∀ r ∈ best :: rest, f32gt (s.score r.1) (s.score w.1) = false
  lowest : ∀ r ∈ best :: rest, f32eq (s.score r.1) (s.score w.1) = true →
    w.1.code.toNat ≤ r.1.code.toNat

/-- A request that outscores the best so far takes its place. -/
theorem State.Wins.replaced (hr : f32gt (s.score r.1) (s.score best.1) = true)
    (h : s.Wins r rest w) : s.Wins best (r :: rest) w := by
  have habove : f32gt (s.score w.1) (s.score best.1) = true := by
    rcases h.above with rfl | hw
    · exact hr
    · exact f32gt_trans hw hr
  refine ⟨List.mem_cons_of_mem _ h.mem, .inr habove,
    List.forall_mem_cons.mpr ⟨f32gt_asymm habove, h.greatest⟩,
    List.forall_mem_cons.mpr ⟨fun heq => ?_, h.lowest⟩⟩
  have := f32gt_of_eq_of_gt heq habove
  rw [f32gt_irrefl] at this; cases this

/-- One that does not leaves it. -/
theorem State.Wins.kept (hr : f32gt (s.score r.1) (s.score best.1) = false)
    (horder : best.1.code.toNat < r.1.code.toNat) (h : s.Wins best rest w) :
    s.Wins best (r :: rest) w := by
  have hnot : f32gt (s.score r.1) (s.score w.1) = false := by
    rcases h.above with rfl | hw
    · exact hr
    · by_contra hgt
      rw [f32gt_trans (Bool.eq_true_of_not_eq_false hgt) hw] at hr; cases hr
  have hlowest : f32eq (s.score r.1) (s.score w.1) = true → w.1.code.toNat ≤ r.1.code.toNat := by
    intro heq
    rcases h.above with rfl | hw
    · exact horder.le
    · rw [f32gt_of_eq_of_gt heq hw] at hr; cases hr
  obtain ⟨hmem, habove, hgreatest, hlow⟩ := h
  rw [List.forall_mem_cons] at hgreatest hlow
  exact ⟨(List.mem_cons.mp hmem).elim (· ▸ List.mem_cons_self)
      fun h => List.mem_cons_of_mem _ (List.mem_cons_of_mem _ h), habove,
    List.forall_mem_cons.mpr ⟨hgreatest.1, List.forall_mem_cons.mpr ⟨hnot, hgreatest.2⟩⟩,
    List.forall_mem_cons.mpr ⟨hlow.1, List.forall_mem_cons.mpr ⟨hlowest, hlow.2⟩⟩⟩

/-- The fold of the arbitration finds the winner of requests in row order. -/
theorem State.winner_wins (s : State) (best : Row × Symbol) (rest : List (Row × Symbol))
    (horder : (best :: rest).Pairwise fun a b => a.1.code.toNat < b.1.code.toNat) :
    s.Wins best rest (s.winner best rest) := by
  induction rest generalizing best with
  | nil =>
    exact ⟨List.mem_cons_self, .inl rfl, List.forall_mem_singleton.mpr (f32gt_irrefl _),
      List.forall_mem_singleton.mpr fun _ => le_rfl⟩
  | cons r rest ih =>
    obtain ⟨hbest, hrest⟩ := List.pairwise_cons.mp horder
    obtain ⟨hr, htail⟩ := List.pairwise_cons.mp hrest
    rw [State.winner]
    split
    case isTrue hgt => exact (ih r hrest).replaced hgt
    case isFalse hle =>
      have hkept := ih best (List.pairwise_cons.mpr ⟨fun x hx =>
        hbest x (List.mem_cons_of_mem _ hx), htail⟩)
      exact hkept.kept (Bool.eq_false_of_not_eq_true hle) (hbest r List.mem_cons_self)

/-- The requests stand in row order. -/
theorem lockRequests_pairwise (out : PerRow RowOut) :
    (lockRequests out).Pairwise fun a b => a.1.code.toNat < b.1.code.toNat := by
  have hrows : Row.all.Pairwise fun a b => a.code.toNat < b.code.toNat := by decide
  refine List.pairwise_filterMap.mpr (hrows.imp fun hlt x hx y hy => ?_)
  obtain ⟨_, -, rfl⟩ := Option.map_eq_some_iff.mp hx
  obtain ⟨_, -, rfl⟩ := Option.map_eq_some_iff.mp hy
  exact hlt

theorem lockRequests_of_request {out : PerRow RowOut} (h : ∃ c : Row, (out.get c).lockreq ≠ none) :
    ∃ r rest, lockRequests out = r :: rest := by
  obtain ⟨c, hc⟩ := h
  obtain ⟨sym, hsym⟩ := Option.ne_none_iff_exists'.mp hc
  exact List.exists_cons_of_ne_nil (List.ne_nil_of_mem (mem_lockRequests.mpr hsym))

/-- Every requesting row is among the requests. -/
theorem exists_mem_lockRequests {out : PerRow RowOut} {c : Row} (h : (out.get c).lockreq ≠ none) :
    ∃ sym, (c, sym) ∈ lockRequests out := by
  obtain ⟨sym, hsym⟩ := Option.ne_none_iff_exists'.mp h
  exact ⟨sym, mem_lockRequests.mpr hsym⟩

theorem StreamState.frameStart_eq (f : Framing) :
    StreamState.frameStart f =
      { StreamState.reset with phase := if f = .startStop then .bSofZeros else .sofStrip } := by
  cases f <;> rfl

theorem State.lockRow_get_same (s : State) (w : Row) :
    (s.lockRow w).ss.get w = { s.ss.get w with stage := .locked, miss := 0#2, hold := false } := by
  simp [State.lockRow]

theorem State.lockRow_get_other (s : State) {c w : Row} (h : c ≠ w) :
    (s.lockRow w).ss.get c = SearchState.reset := by
  simp [State.lockRow, h]

/-- The lock of a row and the start of its frame (44_frame_assembler.md R400). -/
theorem State.lockRow_frameStart_eq (s : State) (w : Row) :
    (s.lockRow w).frameStart w =
      { s with
        ss := (s.lockRow w).ss
        fs :=
          ⟨.accumulating, some w, w.tech, w.dir, w.rate, (s.ss.get w).sym1Start,
            (s.ss.get w).sym1Start⟩
        st :=
          { StreamState.reset with
            phase := if w.framing = .startStop then .bSofZeros else .sofStrip } } := by
  rw [State.frameStart, s.lockRow_get_same, StreamState.frameStart_eq]
  rfl

end Winner

/-! ## An IDLE candidate through a tick (R287) -/

section Idle

variable {s : State} {c : Row}

theorem State.idle_clearFrameRow (h : (s.ss.get c).stage = .idle) :
    (s.clearFrameRow.ss.get c).stage = .idle := by
  unfold State.clearFrameRow
  split
  case h_1 w _ =>
    by_cases hc : c = w
    · rw [hc]; exact congrArg SearchState.stage (PerRow.get_set_same _ _ _)
    · exact (congrArg SearchState.stage (PerRow.get_set_other _ _ hc)).trans h
  case h_2 => exact h

theorem State.idle_endFrame (h : (s.ss.get c).stage = .idle) (t : Clock) :
    ((s.endFrame t).ss.get c).stage = .idle := by
  obtain ⟨-, -, hss⟩ := s.endFrame_cleared t
  rw [hss]; exact h

theorem State.idle_deliver (h : (s.ss.get c).stage = .idle) (eof : Option Row) (l : List Symbol) :
    ((s.deliver eof l).1.ss.get c).stage = .idle := by
  induction l generalizing s with
  | nil => exact h
  | cons sym rest ih =>
    cases hcand : s.fs.cand with
    | none => rwa [State.deliver, hcand]
    | some w =>
      have hone : ((s.deliverOne w sym).1.ss.get c).stage = .idle := h
      rcases hans : s.deliverOne w sym with ⟨u, answer⟩
      rw [hans] at hone
      cases answer with
      | cont => rw [State.deliver_cont hcand hans]; exact ih hone
      | complete =>
        rw [State.deliver_complete hcand hans]
        exact State.idle_endFrame (State.idle_clearFrameRow hone) _
      | abandon =>
        rw [State.deliver_abandon hcand hans]
        obtain ⟨-, -, hss⟩ := u.clearFrameRow.abandon_cleared u.sig.clock
        rw [hss]; exact State.idle_clearFrameRow hone

theorem State.idle_correlatorEof (h : (s.ss.get c).stage = .idle) (eof : Option Row) :
    ((s.correlatorEof eof).ss.get c).stage = .idle := by
  unfold State.correlatorEof
  split
  · exact State.idle_endFrame h _
  · exact h

/-- A candidate that makes no request is IDLE after an arbitration if it was before. -/
theorem State.idle_arbitrate {out : PerRow RowOut} (h : (s.ss.get c).stage = .idle)
    (hreq : (out.get c).lockreq = none) : ((s.arbitrate out).1.ss.get c).stage = .idle := by
  cases hl : lockRequests out with
  | nil => rwa [State.arbitrate_nil hl]
  | cons r rest =>
    have hwins := s.winner_wins r rest (hl ▸ lockRequests_pairwise out)
    have hwinner : (out.get (s.winner r rest).1).lockreq = some (s.winner r rest).2 :=
      mem_lockRequests.mp (hl ▸ hwins.mem)
    have hne : c ≠ (s.winner r rest).1 := by
      rintro rfl
      rw [hreq] at hwinner; cases hwinner
    rw [State.arbitrate_cons hl]
    exact congrArg SearchState.stage (s.lockRow_get_other hne)

/-- A candidate whose step leaves it IDLE and makes no request is IDLE after the tick. -/
theorem State.idle_tickBack (h : ((s.rowStep s.lockedAny c).1).stage = .idle)
    (hreq : (s.rowStep s.lockedAny c).2.lockreq = none) : (s.tickBack.ss.get c).stage = .idle := by
  rw [← State.correlators_ss] at h
  rw [← State.correlators_out] at hreq
  exact State.idle_correlatorEof (State.idle_deliver (State.idle_arbitrate h hreq) _ _) _

/-- With no candidate SYNCHRONIZING or LOCKED phases 5 to 7 have nothing to do. -/
theorem State.tickBack_quiet (hsync : ∀ d : Row, (s.ss.get d).stage ≠ .synchronizing)
    (hlock : ∀ d : Row, (s.ss.get d).stage ≠ .locked) : s.tickBack = s.correlators.1 := by
  have hquiet (d : Row) : s.correlators.2.get d = .quiet := by
    rw [State.correlators_out]
    cases hs : (s.ss.get d).stage with
    | idle => rw [State.rowStep_idle hs]
    | searching => rw [State.rowStep_searching hs]
    | synchronizing => exact absurd hs (hsync d)
    | locked => exact absurd hs (hlock d)
  have hreq := lockRequests_eq_nil (out := s.correlators.2) fun d => by rw [hquiet d]; rfl
  rw [State.tickBack_eq (State.arbitrate_nil hreq), delivered_eq_nil fun d => by rw [hquiet d]; rfl,
    eofPending_eq_none fun d => by rw [hquiet d]; rfl]
  exact State.correlatorEof_none _

theorem State.triggers_iff (s : State) (c : Row) :
    s.triggers c s.lockedAny = true ↔
      (s.bank.get c).active = true ∧ (∀ d : Row, (s.ss.get d).stage ≠ .locked)
        ∧ (s.guard c).toNat ≤ s.sig.clock.toNat ∧ (s.bank.get c).p.toNat ≤ s.sig.clock.toNat
        ∧ f32gt (f32abs s.sig.depth) s.sig.threshold = true := by
  have hlocked : s.lockedAny = false ↔ ∀ d : Row, (s.ss.get d).stage ≠ .locked := by
    rw [← Bool.not_eq_true, s.lockedAny_iff, not_exists]
  simp only [State.triggers, Bool.and_eq_true, Bool.not_eq_true', hlocked, decide_eq_true_iff,
    and_assoc]

/-! What phase 4 sees of phases 1 to 3. -/

theorem State.tickFront_sig (s : State) (m : F32) :
    (s.tickFront m).sig = s.sig.condition s.cfg m := by
  have hfront := (s.startupPhase.conditioner m).only_timeouts.sig
  have hphase := s.only_startupPhase
  rw [State.tickFront, hfront, State.conditioner_sig, hphase.sig, hphase.cfg]

theorem State.tickFront_bank (s : State) (m : F32) : (s.tickFront m).bank = s.bank := by
  rw [State.tickFront, (State.only_timeouts _).bank, State.conditioner_bank,
    s.only_startupPhase.bank]

/-- The guard that the trigger sees: at clock 0 the start-up guard (44_frame_assembler.md R408). -/
theorem State.tickFront_guard (s : State) (m : F32) (c : Row) :
    (s.tickFront m).guard c =
      if s.sig.clock = 0#64 then (s.tcfg.get c.tech).startupGuardTime.setWidth 64
      else s.guard c := by
  obtain ⟨hpoll, hlisten⟩ := s.tickFront_guards m c.tech
  unfold State.guard
  rw [hpoll, hlisten]
  by_cases hzero : s.sig.clock = 0#64
  · obtain ⟨hp, hl⟩ := s.startupGuard_guards c.tech
    rw [if_pos hzero, State.startupPhase_of_zero hzero, hp, hl]
    cases c.dir <;> rfl
  · rw [if_neg hzero, State.startupPhase_of_ne hzero]

end Idle

end Sys2Proof.Machine

section
open Sys2Proof Sys2Proof.Machine

/-- Settles O43: the requests stand in row order, and the fold over them keeps the winner. -/
theorem lockArbitration : Obligations.LockArbitration := by
  unfold Obligations.LockArbitration
  intro s out deliver4 score
  refine ⟨fun hnone => State.arbitrate_nil (lockRequests_eq_nil hnone), fun hsome => ?_⟩
  obtain ⟨r, rest, hl⟩ := lockRequests_of_request hsome
  have hwins := s.winner_wins r rest (hl ▸ lockRequests_pairwise out)
  have harb := State.arbitrate_cons (s := s) hl
  obtain ⟨⟨w, sym2⟩, hw⟩ : ∃ w, s.winner r rest = w := ⟨_, rfl⟩
  rw [hw] at hwins harb
  obtain ⟨hmem, -, hgreatest, hlowest⟩ := hwins
  rw [← hl] at hmem hgreatest hlowest
  refine ⟨w, sym2, mem_lockRequests.mp hmem, fun c hc => ?greatest, fun c hc => ?lowest,
    congrArg Prod.snd harb, ?frame, ?same, fun c hc => ?other⟩
  case greatest =>
    obtain ⟨sym, hsym⟩ := exists_mem_lockRequests hc
    exact hgreatest (c, sym) hsym
  case lowest =>
    obtain ⟨sym, hsym⟩ := exists_mem_lockRequests hc
    exact hlowest (c, sym) hsym
  case frame => rw [harb]; exact s.lockRow_frameStart_eq w
  case same => rw [harb]; exact s.lockRow_get_same w
  case other => rw [harb]; exact s.lockRow_get_other hc

/-- Settles O39: phases 1 to 3 set the guard, the depth and the threshold that the trigger sees; without a
trigger no later phase starts a search, and without a SYNCHRONIZING candidate none ends one. -/
theorem idleTrigger : Obligations.IdleTrigger := by
  unfold Obligations.IdleTrigger
  intro s m c hidle t guard trigger
  have htick : t.ss = (s.tickFront m).tickBack.ss := rfl
  have hsig : t.sig = { (s.tickFront m).sig with clock := (s.tickFront m).sig.clock + 1#64 } := by
    rw [s.tickFront_sig m]; exact s.tick_sig m
  have hclock : (s.tickFront m).sig.clock = s.sig.clock := by
    rw [s.tickFront_sig m, SignalState.condition_clock]
  have hguard : (s.tickFront m).guard c = guard := s.tickFront_guard m c
  have htrigger : (s.tickFront m).triggers c (s.tickFront m).lockedAny = true ↔ trigger := by
    rw [State.triggers_iff, State.tickFront_bank, State.tickFront_ss, hguard, hclock]
    show _ ↔ _ ∧ _ ∧ _ ∧ _ ∧ f32gt (f32abs t.sig.depth) t.sig.threshold = true
    rw [hsig]
  have hrow := State.rowStep_idle (s := s.tickFront m) (by rwa [s.tickFront_ss m])
    (s.tickFront m).lockedAny
  rw [s.tickFront_ss m] at hrow
  refine ⟨fun hno => ?idle, fun hyes hsync => ?search⟩
  case idle =>
    have hstay : (s.tickFront m).idleStep c (s.tickFront m).lockedAny (s.ss.get c) = s.ss.get c :=
      if_neg (mt htrigger.mp hno)
    rw [htick]
    exact State.idle_tickBack (by rw [hrow, hstay]; exact hidle) (by rw [hrow]; rfl)
  case search =>
    have hlock : ∀ d : Row, ((s.tickFront m).ss.get d).stage ≠ .locked := by
      rw [s.tickFront_ss m]; exact hyes.2.1
    have hback := State.tickBack_quiet (s := s.tickFront m) (by rwa [s.tickFront_ss m]) hlock
    rw [htick, hback, State.correlators_ss, hrow, State.idleStep, if_pos (htrigger.mpr hyes)]
    dsimp only
    rw [hclock, s.tickFront_bank m, hsig]
    rfl

end

/-! PROOFS. The bytes of PLAIN and PARITY_ODD frames (43_stream_decoder.md R357, R358). -/

namespace Sys2Proof.Machine

section ByteAssembly

variable {t : StreamState} {g : DecoderEnv}

/-- Bits that go to the partial byte leave what follows to be received after them. -/
theorem StreamState.bits_data_append {n : Nat} (hn : n ≤ 8)
    (hbit : ∀ (u : StreamState) (b : Bool), u.bitcnt.toNat < n → u.bit g b = (u.addBit b, .cont))
    (l rest : List Bool) (h : t.bitcnt.toNat + l.length ≤ n) :
    t.bits g (l ++ rest) = (t.addBits l).bits g rest := by
  induction l generalizing t with
  | nil => rfl
  | cons b tail ih =>
    rw [List.length_cons] at h
    rw [List.cons_append, StreamState.bits_cons_cont (hbit t b (by omega))]
    exact ih (t := t.addBit b) (by rw [StreamState.addBit_bitcnt_toNat (by omega)]; omega)

theorem StreamState.storeAndClear_below_limit (h : t.bytes.toNat < g.limit) :
    t.storeAndClear g =
      ({ t with
          data := 0#8
          bitcnt := 0#4
          buf := Memory.write t.buf t.bytes.toNat t.data
          bytes := t.bytes + 1#16 }, .cont) := by
  rw [StreamState.storeAndClear, StreamState.store_below_limit h]

theorem StreamState.addBits_parErr (t : StreamState) (l : List Bool) :
    (t.addBits l).parErr = t.parErr := by rw [t.addBits_eq l]

theorem StreamState.addBits_withParErr (t : StreamState) (l : List Bool) :
    { t.addBits l with parErr := t.parErr } = t.addBits l := by
  rw [← t.addBits_parErr l]

/-- The store of the received bits leaves the accumulator as empty as it was before them. -/
theorem StreamState.storeAndClear_addBits (hcount : t.bitcnt = 0#4) (hdata : t.data = 0#8)
    (hlimit : t.bytes.toNat < g.limit) (l : List Bool) (e : Bool) :
    StreamState.storeAndClear { t.addBits l with parErr := e } g =
      ({ t with
          parErr := e
          buf := Memory.write t.buf t.bytes.toNat (t.addBits l).data
          bytes := t.bytes + 1#16 }, .cont) := by
  have hreceived : { t.addBits l with parErr := e } =
      { t with
        data := (t.addBits l).data
        bitcnt := t.bitcnt + BitVec.ofNat 4 l.length
        parErr := e } :=
    congrArg (fun u : StreamState => { u with parErr := e }) (t.addBits_eq l)
  rw [hreceived, StreamState.storeAndClear_below_limit (by exact hlimit), ← hcount, ← hdata]

/-! ### PLAIN (R357) -/

theorem StreamState.bit_plain_data (hframing : g.row.framing = .plain) (u : StreamState) (b : Bool)
    (h : u.bitcnt.toNat < 7) : u.bit g b = (u.addBit b, .cont) := by
  have hcount : (u.addBit b).bitcnt ≠ 8#4 := by
    show u.bitcnt + 1#4 ≠ 8#4
    bv_omega
  rw [StreamState.bit, hframing]
  exact if_neg hcount

theorem StreamState.bit_plain_eighth (hframing : g.row.framing = .plain) (u : StreamState) (b : Bool)
    (h : u.bitcnt = 7#4) : u.bit g b = (u.addBit b).storeAndClear g := by
  have hcount : (u.addBit b).bitcnt = 8#4 := by
    show u.bitcnt + 1#4 = 8#4
    rw [h]; rfl
  rw [StreamState.bit, hframing]
  exact if_pos hcount

/-- Eight bits of a PLAIN frame store their byte. -/
theorem StreamState.bits_plain (hframing : g.row.framing = .plain) (hcount : t.bitcnt = 0#4)
    (l : List Bool) (hlen : l.length = 7) (b : Bool) :
    t.bits g (l ++ [b]) = (t.addBits (l ++ [b])).storeAndClear g := by
  have hseventh : (t.addBits l).bitcnt = 7#4 := by
    rw [t.addBits_eq l, hcount, hlen]; rfl
  rw [StreamState.bits_data_append (by omega) (StreamState.bit_plain_data hframing) l [b]
      (by simp [hcount, hlen]), StreamState.bits_singleton,
    StreamState.bit_plain_eighth hframing _ b hseventh, StreamState.addBits, StreamState.addBits,
    List.foldl_append]
  rfl

/-! ### PARITY_ODD (R358) -/

theorem StreamState.bit_parityOdd_data (hframing : g.row.framing = .parityOdd) (u : StreamState)
    (b : Bool) (h : u.bitcnt.toNat < 8) : u.bit g b = (u.addBit b, .cont) := by
  rw [StreamState.bit, hframing]
  exact if_neg fun h8 => absurd h (by rw [h8]; decide)

/-- Eight bits of a PARITY_ODD frame are the byte, and the ninth its parity. -/
theorem StreamState.bits_parityOdd (hframing : g.row.framing = .parityOdd) (hcount : t.bitcnt = 0#4)
    (l : List Bool) (hlen : l.length = 8) (p : Bool) :
    t.bits g (l ++ [p]) = (t.addBits l).parityBit g p := by
  have heighth : (t.addBits l).bitcnt = 8#4 := by
    rw [t.addBits_eq l, hcount, hlen]; rfl
  rw [StreamState.bits_data_append le_rfl (StreamState.bit_parityOdd_data hframing) l [p]
      (by simp [hcount, hlen]), StreamState.bits_singleton, StreamState.bit, hframing]
  exact if_pos heighth

/-- The ones of a byte are those of its bits. -/
theorem popcount_eq_count {v : Byte} {l : List Bool} (h : (List.range 8).map v.getLsbD = l) :
    popcount v = l.count true := by
  rw [← h, List.count, List.countP_map, popcount]
  congr 1
  funext i
  simp

/-- The ninth bit breaks odd parity exactly where the nine bits hold an even number of ones. -/
theorem parity_broken_iff {v : Byte} {l : List Bool} (h : (List.range 8).map v.getLsbD = l)
    (p : Bool) : (p != expectedParity v) = decide ((l ++ [p]).count true % 2 = 0) := by
  rw [expectedParity, popcount_eq_count h, List.count_append]
  generalize l.count true = n
  cases p
  · simp
  · simp only [List.count_singleton_self, Bool.true_bne, ← decide_not]
    exact decide_eq_decide.mpr (by omega)

end ByteAssembly

end Sys2Proof.Machine

section
open Sys2Proof Sys2Proof.Machine

/-- Settles O46: the byte is what the eight bits make in the accumulator, which a store clears again. -/
theorem byteAssembly : Obligations.ByteAssembly := by
  unfold Obligations.ByteAssembly
  intro t g b0 b1 b2 b3 b4 b5 b6 b7 hcount hdata hlimit
  have hbits := StreamState.addBits_data_bits hcount hdata
    (l := [b0, b1, b2, b3, b4, b5, b6, b7]) rfl
  refine ⟨(t.addBits [b0, b1, b2, b3, b4, b5, b6, b7]).data, hbits, fun hframing => ?plain,
    fun hframing p => ?parity⟩
  case plain =>
    refine (StreamState.bits_plain hframing hcount [b0, b1, b2, b3, b4, b5, b6] rfl b7).trans ?_
    have hstored := StreamState.storeAndClear_addBits hcount hdata hlimit
      [b0, b1, b2, b3, b4, b5, b6, b7] t.parErr
    rwa [StreamState.addBits_withParErr] at hstored
  case parity =>
    have hbroken : _ = decide ([b0, b1, b2, b3, b4, b5, b6, b7, p].count true % 2 = 0) :=
      parity_broken_iff hbits p
    rw [← hbroken]
    refine (StreamState.bits_parityOdd hframing hcount [b0, b1, b2, b3, b4, b5, b6, b7] rfl p).trans ?_
    rw [StreamState.parityBit, StreamState.addBits_parErr]
    exact StreamState.storeAndClear_addBits hcount hdata hlimit _ _

end

/-! PROOFS. The tracking window (42_symbol_correlator.md R290 to R292): what it keeps and how it decides. -/

namespace Sys2Proof.Machine

/-! ## The kept best (R290) -/

/-- The distance of a clock from the expected end. -/
def clockOff (x : Nat) (k : Clock) : Nat := ((k.toNat : Int) - x).natAbs

/-- The search state with this evaluation as its best. -/
def SearchState.withBest (ss : SearchState) (t : Clock) (r : Evaluation) : SearchState :=
  { ss with bestFound := true, bestTime := t, bestValue := r.strength, bestPat := r.pat }

/-- What makes an evaluation at clock `t` the best of the window around `x`: it is valid, and there is no
best yet or one that is less strong, or as strong and farther from `x`. -/
def Evaluation.Improves (r : Evaluation) (x : Nat) (t : Clock) (ss : SearchState) : Prop :=
  r.valid = true
    ∧ (ss.bestFound = false ∨ f32gt r.strength ss.bestValue = true
        ∨ (f32eq r.strength ss.bestValue = true ∧ clockOff x t < clockOff x ss.bestTime))

section KeepBest

variable {ss : SearchState} {x : Nat} {t : Clock} {r : Evaluation}

theorem Evaluation.improves_iff :
    r.Improves x t ss ↔
      (r.valid && (!ss.bestFound || f32gt r.strength ss.bestValue
        || (f32eq r.strength ss.bestValue
          && decide (clockDist t.toNat x < clockDist ss.bestTime.toNat x)))) = true := by
  simp [Evaluation.Improves, clockOff, clockDist_eq, or_assoc]

theorem SearchState.keepBest_of_improves (h : r.Improves x t ss) :
    ss.keepBest x t r = ss.withBest t r :=
  if_pos (Evaluation.improves_iff.mp h)

theorem SearchState.keepBest_of_not_improves (h : ¬r.Improves x t ss) : ss.keepBest x t r = ss :=
  if_neg (mt Evaluation.improves_iff.mpr h)

end KeepBest

/-! ## The best over the evaluations of a window -/

/-- `p` is the best of the evaluations `before ++ p :: after` of the window around `x`: the valid one of
greatest strength, among equals the closest to `x`, then the earliest. -/
structure IsBest (x : Nat) (before : List (Clock × Evaluation)) (p : Clock × Evaluation)
    (after : List (Clock × Evaluation)) : Prop where
  valid : p.2.valid = true
  greatest : ∀ q ∈ before ++ p :: after, q.2.valid = true →
    f32ge p.2.strength q.2.strength = true
  closer : ∀ q ∈ before, q.2.valid = true → f32eq q.2.strength p.2.strength = true →
    clockOff x p.1 < clockOff x q.1
  closest : ∀ q ∈ after, q.2.valid = true → f32eq q.2.strength p.2.strength = true →
    clockOff x p.1 ≤ clockOff x q.1

section WindowBest

variable {x : Nat} {before after evals : List (Clock × Evaluation)} {p q : Clock × Evaluation}

/-- The first valid evaluation is the best. -/
theorem IsBest.first (hq : q.2.valid = true) (hnum : isNaN q.2.strength = false)
    (hinvalid : ∀ e ∈ evals, e.2.valid = false) : IsBest x evals q [] where
  valid := hq
  greatest e he hvalid := by
    rcases List.mem_append.mp he with hold | hlast
    · rw [hinvalid e hold] at hvalid; cases hvalid
    · rw [List.mem_singleton.mp hlast, f32ge_iff hnum hnum]
  closer e he hvalid := by rw [hinvalid e he] at hvalid; cases hvalid
  closest e he := absurd he List.not_mem_nil

/-- No evaluation as strong as the best is closer to `x`. -/
theorem IsBest.off_le (h : IsBest x before p after) {e : Clock × Evaluation}
    (he : e ∈ before ++ p :: after) (hvalid : e.2.valid = true)
    (heq : f32eq e.2.strength p.2.strength = true) : clockOff x p.1 ≤ clockOff x e.1 := by
  rcases List.mem_append.mp he with hold | hrest
  · exact (h.closer e hold hvalid heq).le
  · rcases List.mem_cons.mp hrest with rfl | hlater
    · exact le_rfl
    · exact h.closest e hlater hvalid heq

/-- A valid evaluation that is stronger than the best, or as strong and closer, replaces it. -/
theorem IsBest.replaced (h : IsBest x before p after)
    (hnum : ∀ e ∈ before ++ p :: after, e.2.valid = true → isNaN e.2.strength = false)
    (hq : q.2.valid = true) (hqnum : isNaN q.2.strength = false)
    (hbetter : f32gt q.2.strength p.2.strength = true
      ∨ (f32eq q.2.strength p.2.strength = true ∧ clockOff x q.1 < clockOff x p.1)) :
    IsBest x (before ++ p :: after) q [] := by
  have hpnum := hnum p (by simp) h.valid
  rw [f32gt_iff hqnum hpnum, f32eq_iff hqnum hpnum] at hbetter
  have hbelow (e) (he : e ∈ before ++ p :: after) (hvalid : e.2.valid = true) :
      f32key e.2.strength ≤ f32key p.2.strength :=
    (f32ge_iff hpnum (hnum e he hvalid)).mp (h.greatest e he hvalid)
  refine ⟨hq, fun e he hvalid => ?greatest, fun e he hvalid heq => ?closer,
    fun e he => absurd he List.not_mem_nil⟩
  case greatest =>
    rcases List.mem_append.mp he with hold | hlast
    · rw [f32ge_iff hqnum (hnum e hold hvalid)]
      have := hbelow e hold hvalid
      omega
    · rw [List.mem_singleton.mp hlast, f32ge_iff hqnum hqnum]
  case closer =>
    have henum := hnum e he hvalid
    have hkey := hbelow e he hvalid
    rw [f32eq_iff henum hqnum] at heq
    obtain ⟨hpq, hoff⟩ := hbetter.resolve_left (by omega)
    exact hoff.trans_le (h.off_le he hvalid ((f32eq_iff henum hpnum).mpr (heq.trans hpq)))

/-- An evaluation that is not valid, or neither stronger than the best nor as strong and closer, leaves
it. -/
theorem IsBest.kept (h : IsBest x before p after) (hpnum : isNaN p.2.strength = false)
    (hqnum : q.2.valid = true → isNaN q.2.strength = false)
    (hworse : q.2.valid = true → ¬(f32gt q.2.strength p.2.strength = true
      ∨ (f32eq q.2.strength p.2.strength = true ∧ clockOff x q.1 < clockOff x p.1))) :
    IsBest x before p (after ++ [q]) where
  valid := h.valid
  greatest e he hvalid := by
    rw [← List.cons_append, ← List.append_assoc] at he
    rcases List.mem_append.mp he with hold | hlast
    · exact h.greatest e hold hvalid
    · obtain rfl := List.mem_singleton.mp hlast
      have hle := mt (f32gt_iff (hqnum hvalid) hpnum).mpr (not_or.mp (hworse hvalid)).1
      exact (f32ge_iff hpnum (hqnum hvalid)).mpr (not_lt.mp hle)
  closer := h.closer
  closest e he hvalid heq := by
    rcases List.mem_append.mp he with hold | hlast
    · exact h.closest e hold hvalid heq
    · obtain rfl := List.mem_singleton.mp hlast
      exact not_lt.mp fun hoff => hworse hvalid (.inr ⟨heq, hoff⟩)

/-- Over the evaluations of a window either none is valid and nothing is kept, or the best is kept. -/
theorem SearchState.foldl_keepBest {ss : SearchState} (hfound : ss.bestFound = false)
    (hnum : ∀ e ∈ evals, e.2.valid = true → isNaN e.2.strength = false) :
    let final := evals.foldl (fun e p => e.keepBest x p.1 p.2) ss
    ((∀ e ∈ evals, e.2.valid = false) ∧ final = ss)
      ∨ ∃ before p after, evals = before ++ p :: after ∧ IsBest x before p after
          ∧ final = ss.withBest p.1 p.2 := by
  induction evals using List.reverseRecOn with
  | nil => exact .inl ⟨fun e he => absurd he List.not_mem_nil, rfl⟩
  | append_singleton evals q ih =>
    have hqnum := hnum q (by simp)
    have holdnum : ∀ e ∈ evals, e.2.valid = true → isNaN e.2.strength = false :=
      fun e he => hnum e (List.mem_append_left _ he)
    simp only [List.foldl_append, List.foldl_cons, List.foldl_nil]
    rcases ih holdnum with ⟨hinvalid, hss⟩ | ⟨before, p, after, rfl, hbest, hpss⟩
    · rw [hss]
      by_cases hq : q.2.valid = true
      · exact .inr ⟨evals, q, [], rfl, .first hq (hqnum hq) hinvalid,
          SearchState.keepBest_of_improves ⟨hq, .inl hfound⟩⟩
      · refine .inl ⟨fun e he => ?_, SearchState.keepBest_of_not_improves fun h => hq h.1⟩
        rcases List.mem_append.mp he with hold | hlast
        · exact hinvalid e hold
        · rw [List.mem_singleton.mp hlast, Bool.eq_false_of_not_eq_true hq]
    · rw [hpss]
      have hiff : q.2.Improves x q.1 (ss.withBest p.1 p.2) ↔
          q.2.valid = true ∧ (f32gt q.2.strength p.2.strength = true
            ∨ (f32eq q.2.strength p.2.strength = true ∧ clockOff x q.1 < clockOff x p.1)) := by
        simp [Evaluation.Improves, SearchState.withBest]
      by_cases hq : q.2.Improves x q.1 (ss.withBest p.1 p.2)
      · obtain ⟨hvalid, hbetter⟩ := hiff.mp hq
        exact .inr ⟨before ++ p :: after, q, [], rfl,
          hbest.replaced holdnum hvalid (hqnum hvalid) hbetter,
          SearchState.keepBest_of_improves hq⟩
      · exact .inr ⟨before, p, after ++ [q], by simp,
          hbest.kept (holdnum p (by simp) hbest.valid) hqnum fun hv hb => hq (hiff.mpr ⟨hv, hb⟩),
          SearchState.keepBest_of_not_improves hq⟩

end WindowBest

/-! ## The window at a clock (R290) -/

section Track

variable {s : State} {c : Row} {mode : EvalMode} {ss : SearchState}

theorem State.track_waiting (h : s.sig.clock.toNat + (s.bank.get c).tau.toNat < ss.xp) :
    s.track c mode ss = (ss, none) := if_pos h

theorem State.track_evaluating (h : ss.xp ≤ s.sig.clock.toNat + (s.bank.get c).tau.toNat)
    (hend : s.sig.clock.toNat ≠ ss.xp + (s.bank.get c).tau.toNat) :
    let r := s.eval c s.sig.clock ss.thresh mode
    s.track c mode ss = ((ss.withCorr r).keepBest ss.xp s.sig.clock r, none) := by
  rcases s.track_cases c mode ss with ⟨hlt, -⟩ | ⟨-, -, heq⟩ | ⟨hat, -⟩
  · omega
  · exact heq
  · exact absurd hat hend

theorem State.track_deciding (hend : s.sig.clock.toNat = ss.xp + (s.bank.get c).tau.toNat) :
    let r := s.eval c s.sig.clock ss.thresh mode
    let kept := (ss.withCorr r).keepBest ss.xp s.sig.clock r
    s.track c mode ss =
      ((kept.windowDecide c (s.bank.get c) ss.xp).1,
        some (kept.windowDecide c (s.bank.get c) ss.xp).2) := by
  rcases s.track_cases c mode ss with ⟨hlt, -⟩ | ⟨-, hne, -⟩ | ⟨-, heq⟩
  · omega
  · exact absurd hend hne
  · exact heq

end Track

/-! ## The decision (R291, R292) -/

section Decide

variable {ss : SearchState} {b : BankRow} {x : Nat} (c : Row)

theorem SearchState.windowDecide_found (h : ss.bestFound = true) :
    (ss.windowDecide c b x).2.2.pat = ss.bestPat
      ∧ (ss.windowDecide c b x).2.2.stop = ss.bestTime := by
  simp [SearchState.windowDecide, h]

theorem SearchState.windowDecide_missed (h : ss.bestFound = false) :
    (ss.windowDecide c b x).2.2.pat = .none
      ∧ (ss.windowDecide c b x).2.2.stop = BitVec.ofNat 64 x := by
  simp [SearchState.windowDecide, h]

/-- A symbol found off the expected end re-anchors the expected time. -/
theorem SearchState.windowDecide_reanchored (h : ss.bestFound = true) (hoff : ss.bestTime.toNat ≠ x) :
    (ss.windowDecide c b x).1.expFx = ss.bestTime * 256#64 + b.pfx := by
  simp [SearchState.windowDecide, h, hoff]

/-- One found at the expected end, or missed, keeps the fractional expected time. -/
theorem SearchState.windowDecide_anchored (h : ss.bestFound = false ∨ ss.bestTime.toNat = x) :
    (ss.windowDecide c b x).1.expFx = ss.expFx + b.pfx := by
  rcases h with h | h <;> simp [SearchState.windowDecide, h]

theorem SearchState.windowDecide_next :
    (ss.windowDecide c b x).2.2.next =
      BitVec.ofNat 32 (ss.windowDecide c b x).1.xp
        - (ss.windowDecide c b x).2.2.stop.setWidth 32 := rfl

end Decide

end Sys2Proof.Machine

section
open Sys2Proof Sys2Proof.Machine

/-- Settles O41: the window's three clocks, one evaluation, the fold over a window's evaluations
(`SearchState.foldl_keepBest`), and the decision by whether a symbol was found and where. -/
theorem windowDecision : Obligations.WindowDecision := by
  unfold Obligations.WindowDecision
  refine ⟨fun s c mode ss => ?track, fun ss x t r => ?keep, fun ss x evals hfound hnum => ?best,
    fun ss c b x => ?decide⟩
  case track =>
    rw [← ss.xp_eq]
    exact ⟨State.track_waiting, State.track_evaluating, State.track_deciding⟩
  case keep =>
    exact ⟨SearchState.keepBest_of_improves, SearchState.keepBest_of_not_improves⟩
  case best =>
    rcases SearchState.foldl_keepBest (x := x) hfound hnum with
      ⟨hinvalid, hfinal⟩ | ⟨before, ⟨t, r⟩, after, rfl, hbest, hfinal⟩
    · refine ⟨fun _ => hfinal, fun ⟨p, hp, hvalid⟩ => ?_⟩
      rw [hinvalid p hp] at hvalid; cases hvalid
    · refine ⟨fun hinvalid => ?_, fun _ => ⟨before, after, t, r, rfl, hbest.valid, hfinal,
        hbest.greatest, hbest.closer, hbest.closest⟩⟩
      have hvalid := hbest.valid
      rw [hinvalid (t, r) (by simp)] at hvalid; cases hvalid
  case decide =>
    dsimp only
    rw [← SearchState.xp_eq]
    exact ⟨rfl, rfl, rfl, rfl, SearchState.windowDecide_found c, SearchState.windowDecide_missed c,
      SearchState.windowDecide_reanchored c, SearchState.windowDecide_anchored c,
      SearchState.windowDecide_next c, rfl⟩

end

/-! PROOFS. Binary32 arithmetic (00_scope.md R11, R12): the order of the values, and the correct rounding
of each operation on finite operands. -/

namespace Sys2Proof.Machine

/-! ## The order of values (R12) -/

section Order

variable {a b : F32}

/-- A magnitude field is a significand at an exponent. -/
theorem exists_significand (m : Nat) :
    ∃ k q : Nat, m = k * 2 ^ 23 + q ∧ q < 2 ^ 24 ∧ (0 < k → 2 ^ 23 ≤ q) := by
  rcases Nat.eq_zero_or_pos (m / 2 ^ 23) with h | h
  · exact ⟨0, m, by omega, by omega, by omega⟩
  · exact ⟨m / 2 ^ 23 - 1, m % 2 ^ 23 + 2 ^ 23, by omega, by omega, by omega⟩

/-- The next magnitude field is one more unit in the last place. -/
theorem magOf_strictMono : StrictMono magOf := by
  refine strictMono_nat_of_lt_succ fun m => ?_
  obtain ⟨k, q, rfl, hq, hk⟩ := exists_significand m
  rw [magOf_scaled hq.le hk, Nat.add_assoc, magOf_scaled hq fun h => Nat.le_succ_of_le (hk h)]
  exact Nat.mul_lt_mul_of_pos_right q.lt_succ_self (Nat.two_pow_pos k)

theorem f32key_eq (a : F32) :
    f32key a = if f32sign a then -(f32field a : Int) else (f32field a : Int) := by
  have hfield : (a.extractLsb' 0 31).toNat = f32field a := by
    rw [BitVec.extractLsb'_toNat, Nat.shiftRight_zero, f32field]
  rw [f32key, hfield]

/-- The keys of patterns are in the order of their values. -/
theorem f32key_lt_iff : f32key b < f32key a ↔ f32units b < f32units a := by
  have hlt := magOf_strictMono.lt_iff_lt (a := f32field a) (b := f32field b)
  have hgt := magOf_strictMono.lt_iff_lt (a := f32field b) (b := f32field a)
  have ha := magOf_strictMono.lt_iff_lt (a := 0) (b := f32field a)
  have hb := magOf_strictMono.lt_iff_lt (a := 0) (b := f32field b)
  rw [magOf_zero] at ha hb
  rw [f32key_eq, f32key_eq, f32units_eq, f32units_eq]
  cases f32sign a <;> cases f32sign b <;> simp only [Bool.false_eq_true, if_false, if_true] <;> omega

theorem f32key_le_iff : f32key b ≤ f32key a ↔ f32units b ≤ f32units a := by
  rw [← not_lt, ← not_lt, f32key_lt_iff]

theorem f32key_eq_iff : f32key a = f32key b ↔ f32units a = f32units b := by
  rw [le_antisymm_iff, le_antisymm_iff, f32key_le_iff, f32key_le_iff]

theorem isNaN_of_isfinite (h : isfinite a = true) : isNaN a = false := by
  simp only [isfinite, bne_iff_ne] at h
  simp [isNaN, h]

theorem isInf_of_isfinite (h : isfinite a = true) : isInf a = false := by
  simp only [isfinite, bne_iff_ne] at h
  simp [isInf, h]

/-- A comparison with a NaN is false. -/
theorem compare_nan (h : isNaN a = true ∨ isNaN b = true) :
    f32gt a b = false ∧ f32ge a b = false ∧ f32eq a b = false := by
  rcases h with h | h <;> simp [f32gt, f32ge, f32eq, h]

/-- The infinities are beyond every finite value (log 15). -/
theorem f32gt_inf (h : isfinite a = true) :
    f32gt 0x7F800000#32 a = true ∧ f32gt a 0xFF800000#32 = true := by
  have hnum := isNaN_of_isfinite h
  have hfield := (isfinite_iff a).mp h
  have hpos : f32key 0x7F800000#32 = 0x7F800000 := by decide
  have hneg : f32key 0xFF800000#32 = -0x7F800000 := by decide
  have hkey := f32key_eq a
  rw [f32gt_iff (by decide) hnum, f32gt_iff hnum (by decide), hpos, hneg, hkey]
  split <;> omega

end Order

/-! ## Sums, differences, products, quotients and conversions (R11) -/

section Rounding

variable {a b : F32}

theorem NearestTo.zero (sign : Bool) : NearestTo (f32pack sign 0) 0 1 := by
  obtain ⟨hs, hf⟩ := f32pack_fields sign (m := 0) (by norm_num)
  have hfinite : isfinite (f32pack sign 0) = true := by rw [isfinite_iff, hf]; norm_num
  have hunits : f32units (f32pack sign 0) = 0 := by
    rw [f32units_eq, hf, magOf_zero]; simp
  refine ⟨iff_of_true hfinite (by positivity), isNaN_of_isfinite hfinite, fun h => absurd rfl h,
    fun _ c _ => ?_⟩
  rw [hunits]
  refine ⟨by simp, fun h => .inl (Int.natAbs_eq_zero.mp ?_).symm⟩
  simpa using h.symm

/-- An integer as its sign and magnitude. -/
theorem ite_natAbs (z : Int) : (if decide (z < 0) then -(z.natAbs : Int) else z.natAbs) = z := by
  split <;> rename_i h <;> simp only [decide_eq_true_iff] at h <;> omega

/-- A sum of finite values is rounded once. -/
theorem f32sumFinite_nearest (a b : F32) :
    NearestTo (f32sumFinite a b) (f32units a + f32units b) 1 := by
  unfold f32sumFinite
  dsimp only
  split
  case isTrue h => rw [h]; exact .zero _
  case isFalse h =>
    have hround := roundRat_nearest (decide (f32units a + f32units b < 0))
      (f32units a + f32units b).natAbs one_pos
    rwa [ite_natAbs] at hround

theorem f32sum_of_finite (nan : F32) (ha : isfinite a = true) (hb : isfinite b = true) :
    f32sum nan a b = f32sumFinite a b := by
  simp [f32sum, isNaN_of_isfinite, isInf_of_isfinite, ha, hb]

/-- The operand of a subtraction with its sign changed. -/
theorem f32neg_fields (b : F32) :
    f32sign (b ^^^ 0x80000000#32) = !f32sign b ∧ f32field (b ^^^ 0x80000000#32) = f32field b := by
  constructor
  · have hbit : (0x80000000#32).getLsbD 31 = true := by decide
    rw [f32sign, BitVec.getLsbD_xor, hbit, Bool.xor_true]; rfl
  · rw [f32field, BitVec.toNat_xor, Nat.xor_mod_two_pow]
    exact Nat.xor_zero _

theorem isfinite_neg (h : isfinite b = true) : isfinite (b ^^^ 0x80000000#32) = true := by
  rw [isfinite_iff] at *
  rwa [(f32neg_fields b).2]

theorem f32units_neg (b : F32) : f32units (b ^^^ 0x80000000#32) = -f32units b := by
  obtain ⟨hsign, hfield⟩ := f32neg_fields b
  rw [f32units_eq, f32units_eq, hsign, hfield]
  cases f32sign b <;> simp

theorem f32mul_of_finite (ha : isfinite a = true) (hb : isfinite b = true) :
    f32mul a b = roundRat (f32sign a != f32sign b) (f32mag a * f32mag b) (2 ^ 149) := by
  simp only [f32mul, isNaN_of_isfinite, isInf_of_isfinite, ha, hb, Bool.or_self, Bool.false_eq_true,
    if_false]

theorem f32div_of_finite (ha : isfinite a = true) (hb : isfinite b = true) (hne : f32mag b ≠ 0) :
    f32div a b = roundRat (f32sign a != f32sign b) (f32mag a <<< 149) (f32mag b) := by
  simp only [f32div, isNaN_of_isfinite, isInf_of_isfinite, ha, hb, Bool.or_self, Bool.false_eq_true,
    if_false, hne]

/-- The sign of a product or quotient with the magnitudes' value. -/
theorem ite_sign_mul (a b : F32) (n : Nat) :
    (if f32sign a != f32sign b then -((f32mag a * n : Nat) : Int) else ((f32mag a * n : Nat) : Int)) =
      f32units a * (if f32sign b then -(n : Int) else n) := by
  unfold f32units
  cases f32sign a <;> cases f32sign b <;> simp

theorem natAbs_f32units (a : F32) : (f32units a).natAbs = f32mag a := by
  unfold f32units; split <;> simp

/-- A product of finite values is rounded once. -/
theorem f32mul_nearest (ha : isfinite a = true) (hb : isfinite b = true) :
    NearestTo (f32mul a b) (f32units a * f32units b) (2 ^ 149) := by
  rw [f32mul_of_finite ha hb]
  have hround := roundRat_nearest (f32sign a != f32sign b) (f32mag a * f32mag b)
    (Nat.two_pow_pos 149)
  rwa [ite_sign_mul] at hround

/-- A quotient of finite values, the divisor not 0, is rounded once. -/
theorem f32div_nearest (ha : isfinite a = true) (hb : isfinite b = true) (hne : f32units b ≠ 0) :
    NearestTo (f32div a b) (f32units a * 2 ^ 149 * (f32units b).sign) (f32units b).natAbs := by
  have hmag : f32mag b ≠ 0 := by rw [← natAbs_f32units]; exact Int.natAbs_ne_zero.mpr hne
  have hsign : (f32units b).sign = if f32sign b then -1 else 1 := by
    unfold f32units
    split
    · rw [Int.sign_neg, Int.sign_natCast_of_ne_zero hmag]
    · exact Int.sign_natCast_of_ne_zero hmag
  have hround := roundRat_nearest (f32sign a != f32sign b) (f32mag a <<< 149)
    (Nat.pos_of_ne_zero hmag)
  rw [Nat.shiftLeft_eq, ite_sign_mul] at hround
  have hvalue : (2 ^ 149 : Int) * (if f32sign b then -1 else 1) =
      if f32sign b then -((2 ^ 149 : Nat) : Int) else ((2 ^ 149 : Nat) : Int) := by
    split <;> norm_num
  rwa [f32div_of_finite ha hb hmag, natAbs_f32units, hsign, mul_assoc, hvalue, Nat.shiftLeft_eq]

/-- The conversion of an integer is rounded once. -/
theorem f32ofNat_nearest (n : Nat) : NearestTo (f32ofNat n) ((n : Int) * 2 ^ 149) 1 := by
  have hround := roundRat_nearest false (n <<< 149) one_pos
  rw [if_neg (by decide), Nat.shiftLeft_eq, Nat.cast_mul, Nat.cast_pow, Nat.cast_ofNat] at hround
  rwa [f32ofNat, Nat.shiftLeft_eq]

end Rounding

/-! ## Square roots (R11)

`f32sqrt` rounds `m / 2`, where `m` is twice the integer root, plus 1 where the root is not exact. No
midpoint of two patterns lies strictly inside the interval of the root, so `m` is on the same side of
each as the root. -/

section Root

/-- Twice the integer root `r` of `n`, and 1 more where the root is not exact. -/
def stickyRoot (n r : Nat) : Nat := 2 * r + (if r * r = n then 0 else 1)

section Squares

variable {n r S : Nat} (hlow : r * r ≤ n) (hup : n < (r + 1) * (r + 1))
  (hodd : r * r = n ∨ S ≠ stickyRoot n r)

include hup hodd in
/-- A sum at or above `stickyRoot n r`, which it meets only where the root is exact, is at or above
twice the root. -/
theorem le_sq_of_stickyRoot_le (h : stickyRoot n r ≤ S) : 4 * n ≤ S * S := by
  by_cases hexact : r * r = n
  · rw [stickyRoot, if_pos hexact] at h
    have := Nat.mul_self_le_mul_self h
    nlinarith
  · have hS : 2 * (r + 1) ≤ S := by
      rw [stickyRoot, if_neg hexact] at h hodd
      have := hodd.resolve_left hexact
      omega
    have := Nat.mul_self_le_mul_self hS
    nlinarith

include hlow hodd in
/-- A sum at or below `stickyRoot n r`, under the same condition, is at or below twice the root. -/
theorem sq_le_of_le_stickyRoot (h : S ≤ stickyRoot n r) : S * S ≤ 4 * n := by
  have hS : S ≤ 2 * r := by
    by_cases hexact : r * r = n
    · rwa [stickyRoot, if_pos hexact] at h
    · rw [stickyRoot, if_neg hexact] at h hodd
      have := hodd.resolve_left hexact
      omega
  have := Nat.mul_self_le_mul_self hS
  nlinarith

include hlow hup hodd in
/-- Such a sum is twice the root only where the root is exact and the sum is `stickyRoot n r`. -/
theorem eq_stickyRoot_of_sq_eq (h : S * S = 4 * n) : S = stickyRoot n r := by
  have hge : 2 * r ≤ S := by
    by_contra hlt
    have := Nat.mul_self_lt_mul_self (not_le.mp hlt)
    nlinarith
  have hlt : S < 2 * (r + 1) := by
    by_contra hge
    have := Nat.mul_self_le_mul_self (not_lt.mp hge)
    nlinarith
  by_cases hexact : r * r = n
  · rw [stickyRoot, if_pos hexact]
    by_contra hne
    have := Nat.mul_self_le_mul_self (show 2 * r + 1 ≤ S by omega)
    nlinarith
  · rw [stickyRoot, if_neg hexact] at hodd
    have hS : S = 2 * r := by
      have := hodd.resolve_left hexact
      omega
    subst hS
    exact absurd (by linarith) hexact

end Squares

/-- A magnitude that needs all 24 bits of a significand or more is even. -/
theorem f32mag_small_or_even (a : F32) : f32mag a < 2 ^ 24 ∨ f32mag a % 2 = 0 := by
  rw [f32mag_eq]
  refine (Nat.lt_or_ge _ (2 ^ (23 + 1))).imp_right fun h => ?_
  obtain ⟨j, hj⟩ := magOf_multiple _ h
  omega

theorem f32units_of_sign_false {a : F32} (h : f32sign a = false) : f32units a = f32mag a := by
  rw [f32units, h, if_neg Bool.false_ne_true]

section Midpoint

variable {n r : Nat} {t c : F32}

theorem stickyRoot_bounds (n r : Nat) : 2 * r ≤ stickyRoot n r ∧ stickyRoot n r ≤ 2 * r + 1 := by
  unfold stickyRoot
  split <;> omega

/-- A magnitude nearest to `m / 2`, where `m` is large, has at least 75 bits: it is not further off than
the pattern 0x1A000000 of the magnitude 2^74. -/
theorem large_of_nearest {m : Nat} (hlarge : 2 ^ 75 ≤ m) (hsign : f32sign t = false)
    (hnear : ∀ c : F32, isfinite c = true →
      (f32units t * 2 - m).natAbs ≤ (f32units c * 2 - m).natAbs) :
    2 ^ 74 ≤ f32mag t ∧ 2 * f32mag t + 2 ^ 75 ≤ 2 * m := by
  have hpattern := hnear 0x1A000000#32 (by decide)
  have hunits : f32units 0x1A000000#32 = 2 ^ 74 := by decide
  rw [hunits, f32units_of_sign_false hsign] at hpattern
  omega

/-- No midpoint of the rounded root and another pattern lies strictly between twice an inexact integer
root and the next even number: an odd sum has a summand below 2^24, and the other is too far off. -/
theorem exact_or_sum_ne (hlarge : 2 ^ 74 ≤ f32mag t)
    (hnear : 2 * f32mag t + 2 ^ 75 ≤ 2 * stickyRoot n r) :
    r * r = n ∨ f32mag t + f32mag c ≠ stickyRoot n r := by
  refine or_iff_not_imp_left.mpr fun hexact hsum => ?_
  rw [stickyRoot, if_neg hexact] at hsum hnear
  have ht := f32mag_small_or_even t
  have hc := f32mag_small_or_even c
  omega

/-- A pattern nearest to half the `stickyRoot` is nearest to the root. -/
theorem nearestRoot_of_nearestTo (hlow : r * r ≤ n) (hup : n < (r + 1) * (r + 1)) (hr : 2 ^ 74 ≤ r)
    (hfit : r < 2 ^ 213) (h : NearestTo t (stickyRoot n r : Nat) 2) : NearestRoot t n := by
  obtain ⟨hfinite, -, hsign, hnear⟩ := h
  have hm := stickyRoot_bounds n r
  have ht : isfinite t = true := hfinite.mpr (by omega)
  have hst : f32sign t = false := by
    rw [hsign (by omega), decide_eq_false_iff_not]
    omega
  have hbest := large_of_nearest (by omega) hst fun c hc => (hnear ht c hc).1
  refine ⟨ht, hst, fun c hc hsc => ?_⟩
  obtain ⟨hdist, htie⟩ := hnear ht c hc
  have hodd := exact_or_sum_ne (c := c) hbest.1 hbest.2
  rw [f32units_of_sign_false hst, f32units_of_sign_false hsc] at *
  have hsq : ((f32mag t : Int) + f32mag c) ^ 2 =
      (((f32mag t + f32mag c) * (f32mag t + f32mag c) : Nat) : Int) := by
    push_cast; ring
  rw [hsq]
  refine ⟨fun hlt => ?_, fun hlt => ?_, fun hne heq => ?_⟩
  · have := le_sq_of_stickyRoot_le hup hodd (by omega)
    omega
  · have := sq_le_of_le_stickyRoot hlow hodd (by omega)
    omega
  · have := eq_stickyRoot_of_sq_eq hlow hup hodd (by omega)
    exact (htie (by omega)).resolve_left hne

end Midpoint

theorem f32mag_lt_of_isfinite {a : F32} (h : isfinite a = true) : f32mag a < 2 ^ 23 * 2 ^ 254 := by
  have hfield : f32field a < 254 * 2 ^ 23 + 2 ^ 23 := by rw [isfinite_iff] at h; omega
  have hinf : magOf (254 * 2 ^ 23 + 2 ^ 23) = 2 ^ 23 * 2 ^ 254 :=
    magOf_scaled (k := 254) (q := 2 ^ 23) (by norm_num) (fun _ => Nat.le_refl _)
  rw [f32mag_eq, ← hinf]
  exact magOf_strictMono hfield

/-- The square root of a finite positive value rounds half the `stickyRoot` of its magnitude. -/
theorem f32sqrt_of_pos {a : F32} (ha : isfinite a = true) (h : 0 < f32units a) :
    f32sqrt a = roundRat false (stickyRoot (f32mag a <<< 149) (isqrt (f32mag a <<< 149))) 2 := by
  have hmag : f32mag a ≠ 0 := by rw [← natAbs_f32units]; omega
  have hsign : f32sign a = false := by
    by_contra hs
    rw [f32units, if_pos (by simpa using hs)] at h
    omega
  simp only [f32sqrt, isNaN_of_isfinite ha, isInf_of_isfinite ha, hmag, hsign, Bool.false_eq_true,
    if_false]
  rfl

/-- The square root of a finite positive value is rounded correctly. -/
theorem f32sqrt_nearest {a : F32} (ha : isfinite a = true) (h : 0 < f32units a) :
    NearestRoot (f32sqrt a) ((f32units a).natAbs * 2 ^ 149) := by
  have hlt := f32mag_lt_of_isfinite ha
  have hpos : 0 < f32mag a := by rw [← natAbs_f32units]; omega
  rw [f32sqrt_of_pos ha h, natAbs_f32units, ← Nat.shiftLeft_eq]
  have hn : f32mag a <<< 149 = f32mag a * 2 ^ 149 := Nat.shiftLeft_eq ..
  generalize f32mag a <<< 149 = n at hn
  obtain ⟨hlow, hup⟩ := isqrt_spec (n := n) (by omega)
  generalize isqrt n = r at *
  have hround := roundRat_nearest false (stickyRoot n r) two_pos
  refine nearestRoot_of_nearestTo hlow hup ?_ ?_ hround
  · by_contra hsmall
    have := Nat.mul_self_le_mul_self (show r + 1 ≤ 2 ^ 74 by omega)
    omega
  · by_contra hbig
    have := Nat.mul_self_le_mul_self (show 2 ^ 213 ≤ r by omega)
    omega

/-- The square root of a zero is that zero. -/
theorem f32units_sqrt_zero {a : F32} (ha : isfinite a = true) (h : f32units a = 0) :
    f32units (f32sqrt a) = 0 := by
  have hmag : f32mag a = 0 := by rw [← natAbs_f32units, h, Int.natAbs_zero]
  rw [f32sqrt, isNaN_of_isfinite ha, if_neg Bool.false_ne_true, if_pos hmag, h]

end Root

end Sys2Proof.Machine

section

open Sys2Proof Sys2Proof.Machine

/-- Settles O35: the keys are in the order of the values, the infinities' keys are outermost, and each
comparison excludes NaNs first. -/
theorem floatOrder : Obligations.FloatOrder := by
  refine fun a b => ⟨fun ha hb => ?_, compare_nan, f32gt_inf, fun ha => ?_, fun h => ?_⟩
  · have hna := isNaN_of_isfinite ha
    have hnb := isNaN_of_isfinite hb
    exact ⟨(f32gt_iff hna hnb).trans f32key_lt_iff, (f32ge_iff hna hnb).trans f32key_le_iff,
      (f32eq_iff hna hnb).trans f32key_eq_iff⟩
  · rw [fmaxfloor, (compare_nan (.inl ha)).1, if_neg Bool.false_ne_true]
  · rw [fmaxfloor, if_pos h]

/-- Settles O36: each operation rounds its exact value once; the square root rounds an integer root
with one more bit, on the same side of every midpoint as the root. -/
theorem floatRounding : Obligations.FloatRounding := by
  refine ⟨fun a b ha hb => ⟨?_, ?_, f32mul_nearest ha hb, f32div_nearest ha hb⟩, f32ofNat_nearest,
    fun a ha => ⟨f32sqrt_nearest ha, f32units_sqrt_zero ha⟩⟩
  · rw [f32add, f32sum_of_finite _ ha hb]
    exact f32sumFinite_nearest a b
  · rw [f32sub, f32sum_of_finite _ ha (isfinite_neg hb), sub_eq_add_neg, ← f32units_neg]
    exact f32sumFinite_nearest a _

end
